-- ==== Sys2Proof/Word.lean ====
section
/-! DEFINITION. The word of the machine (spec/00_scope.md R12, R13). -/

namespace Sys2Proof

/-- A word of `WORD_BITS` = 32 bits (R10, R12): the contents of every memory cell and of every
register but `kernel` and `timerElapsed`, and every address. It is read as a two's-complement signed
integer by `BitVec.toInt`; `+` and `-` wrap modulo `2^32` (R13). The width is the spec's decision D2:
DESIGN CHOICE of the spec, unsafe, log 7. -/
abbrev Word := BitVec 32

/-- The largest word read as a signed integer, `2^(WORD_BITS-1) - 1`. -/
def Word.maxInt : Int := 2147483647

end Sys2Proof
end

