-- ==== Sys2Proof/Config.lean ====
section
/-! DEFINITION. The parameters of the machine (spec/00_scope.md R10), its constants and its free values. -/

namespace Sys2Proof

/-- The parameters of R10 that are fixed at launch and never change. `State` carries them, so that a
statement holds for every choice that R11 admits (spec/93_implementation_defined.md part 2 asks to keep
the addresses parameters). Log 8. -/
structure Params where
  /-- `MEM_WORDS`: the number of words in the address space. -/
  memWords : Nat
  /-- `SYS_BASE`: the lowest system-space address. -/
  sysBase : Nat
  /-- `TIMER_VEC`: the timer-handler entry address. -/
  timerVec : Word
  /-- `SYSCALL_VEC`: the software-interrupt-handler entry address. -/
  syscallVec : Word
  /-- `SYS_STACK_BASE`: loaded into `SP` on interrupt entry. -/
  sysStackBase : Word
  /-- `USER_SP_RESET`: `SP` at reset. -/
  userSpReset : Word
  /-- `PC_RESET`: `PC` at reset. -/
  pcReset : Word
  /-- `CHANNEL_FAILS`: whether the channel may fail (R53, D17). -/
  channelFails : Bool
  deriving DecidableEq, Repr

/-- The values R10 fixes. The two handler addresses and the two stack bases are PRESUMED (the spec's own
general knowledge, D4 to D7), unsafe, log 4. -/
def Params.reference : Params where
  memWords := 2000
  sysBase := 1000
  timerVec := 1000
  syscallVec := 1500
  sysStackBase := 2000
  userSpReset := 1000
  pcReset := 0
  channelFails := false

namespace Config

/-- `SENTINEL` (R10): the read address that means "terminate". -/
def sentinel : Word := BitVec.ofInt 32 (-1)

/-- `RAND_LO` (R10). -/
def randLo : Nat := 1

/-- `RAND_HI` (R10). -/
def randHi : Nat := 100

/-- What a memory address that the memory list does not name reads as. The spec gives a cell that the
image does not name an unspecified word, a launch draw (R65); `launch` takes those draws as an argument.
DESIGN CHOICE, unsafe, log 2. -/
def unlistedWord : Word := 0

/-- The timer period of `State.reset`; the spec makes it a launch input (R10) and gives it no value.
DESIGN CHOICE, unsafe, log 5. -/
def resetTimerLimit : Word := 100

/-- FREE VALUE. The `n`-th draw of the random-value input, less `RAND_LO` (R93): nothing is known of it
but its range. Log 14. -/
opaque randomDraw : Nat → Fin 100

/-- FREE VALUE. Whether the `n`-th send or receive on the channel fails, consulted only when
`CHANNEL_FAILS` is true (R53). Log 13. -/
opaque channelFault : Nat → Bool

/-- FREE VALUE. How many of the messages in flight the memory unit has taken when the host stops it (R59), at the
`n`-th draw. Log 28. -/
opaque takenInFlight : Nat → Nat

/-- FREE VALUE. A word register after a fault, which R144 leaves unspecified, at the `n`-th draw. Log 10. -/
opaque leftWord : Nat → Word

/-- FREE VALUE. A one-bit register after a fault (R144), at the `n`-th draw. Log 10. -/
opaque leftFlag : Nat → Bool

end Config

end Sys2Proof
end

