-- ==== Sys2Proof/Machine/State.lean ====
section
/-! DEFINITION. The state of the machine (spec/10_state.md), its faults and refusals, its reset. -/

namespace Sys2Proof.Machine

/-- Whether an access reads or writes: part of a fault's information (R137). -/
inductive AccessKind where
  | read
  | write
  deriving DecidableEq, Repr

/-- The two causes of the interrupt sequence (R124). -/
inductive Cause where
  | timer
  | manual
  deriving DecidableEq, Repr

/-- A message from the CPU to the memory unit, the words of its payload (R54): `[a]` reads, `[a, v]`
writes, `[SENTINEL]` terminates. -/
abbrev Message := List Word

/-- What the CPU reports of a fault: its kind and information (R137, R144). -/
inductive FaultReport where
  /-- Code 1, R138. Raised by every memory read and write at `a >= SYS_BASE` in user mode, before any
  traffic. `pc` is `PC` at that moment (R14). -/
  | accessViolation (a : Word) (kind : AccessKind) (pc : Word)
  /-- Code 2, R139. Raised by a memory read at `a` that waits for its response, only when `CHANNEL_FAILS`
  is true. -/
  | channelReadError (a : Word)
  /-- Code 3, R140. Raised by every send of the CPU, only when `CHANNEL_FAILS` is true. -/
  | channelWriteError (m : Message)
  /-- Code 5, R142. Raised by every memory read and write outside `0 .. MEM_WORDS-1` that passed the
  privilege check, but a read of `SENTINEL`. -/
  | addressRange (a : Word) (kind : AccessKind) (pc : Word)
  deriving DecidableEq, Repr

/-- Where the model gives no next state and no fault. -/
inductive Refusal where
  /-- Raised by no arm: every instruction of the table has its meaning. Safe. -/
  | notModelled (mnemonic : String)
  /-- Raised by `step` on a CPU that is halted, faulted or stuck: such a CPU takes no more steps (R75,
  R150). Safe, log 12. -/
  | notRunning
  /-- Raised by `launch`: a parameter breaks R11, so the launch is refused (R151). Safe. -/
  | badParameters
  /-- Raised by `launch`: the timer period is no positive word, so the launch is refused (R151). Safe. -/
  | badTimerPeriod
  deriving DecidableEq, Repr

/-- The CPU's run state (R35). -/
inductive RunState where
  /-- Steps are taken. -/
  | running
  /-- Set by opcode 50 (R121). -/
  | halted
  /-- Set by a fault (R144). The state that the fault leaves has it (log 10). -/
  | faulted (r : FaultReport)
  /-- The CPU waits for a response that will never come (R52, R145). -/
  | stuck
  deriving DecidableEq, Repr

/-- The memory unit's run state (R33). -/
inductive UnitState where
  | serving
  | stopped
  deriving DecidableEq, Repr

/-- An event on the output port (R92). -/
inductive OutEvent where
  /-- `Int(v)`: the word `v` as a signed decimal integer. -/
  | int (v : Word)
  /-- `Char(b)`: one character whose code is `b`. -/
  | char (b : BitVec 8)
  /-- `InvalidPort(q)`: the "invalid operand" notice for port `q`. -/
  | invalidPort (q : Word)
  deriving DecidableEq, Repr

/-- The memory unit's array as (address, word) pairs, one word an address (R32, R42: the machine has no
bytes, log 1). Canonical form: addresses strictly rising, no entry equal to `Config.unlistedWord`, which
every unlisted address reads as. -/
abbrev Memory := List (Nat × Word)

/-- The canonical form of a memory. -/
abbrev Memory.wf (m : Memory) : Prop :=
  m.Pairwise (fun p q => p.1 < q.1) ∧ ∀ p ∈ m, p.2 ≠ Config.unlistedWord

/-- A write that the CPU has sent and of which nothing it has received shows that it was stored (R34, R50):
its message `{address, value}`, and the memory unit's array as the writes before it left it. -/
structure PostedWrite where
  address : Word
  value : Word
  before : Memory
  deriving DecidableEq, Repr

/-- Everything the spec gives the machine: the ten registers of R19, the CPU's run state (R35), the
memory unit (R32, R33), the channel (R34), the output history (R36) and the launch parameters (R10). -/
structure State where
  /-- `PC`, R22. -/
  pc : Word
  /-- `SP`, R23. -/
  sp : Word
  /-- `IR`, R24. -/
  ir : Word
  /-- `AC`, R20. -/
  ac : Word
  /-- `X`, R20. -/
  x : Word
  /-- `Y`, R20. -/
  y : Word
  /-- `kernel`, R25. -/
  kernel : Bool
  /-- `timerElapsed`, R26. -/
  timerElapsed : Bool
  /-- `timerLimit`, R27. -/
  timerLimit : Word
  /-- `timerCount`, R28. -/
  timerCount : Word
  /-- The CPU's run state, R35. -/
  cpu : RunState
  /-- The memory unit's array, R32. -/
  mem : Memory
  /-- The memory unit's run state, R33. -/
  memUnit : UnitState
  /-- The channel: messages sent by the CPU and not yet taken, oldest first, R34. -/
  requests : List Message
  /-- The channel: responses sent and not yet received, oldest first, R34. -/
  responses : List Word
  /-- The posted writes that may still be ahead in the channel (R34, R59), oldest first: those sent since the
  last opcode read was answered. `mem` already holds them, as R58 lets a model do, and only a stop of the
  memory unit by the host can take them back (log 9, log 28). -/
  posted : List PostedWrite
  /-- The address of the read request whose response the CPU failed to receive (R34, R53), behind the posted
  writes. The failed receive does not show that the memory unit took it (log 28). -/
  unanswered : Option Word
  /-- The output history, oldest first, R36. -/
  output : List OutEvent
  /-- The launch parameters, R10. -/
  params : Params
  /-- The MODEL's own: how many free values have been drawn, so that each draw is a fresh one (log 14). -/
  draws : Nat
  deriving DecidableEq, Repr

namespace State

def setPc (s : State) (v : Word) : State := { s with pc := v }
def setSp (s : State) (v : Word) : State := { s with sp := v }
def setIr (s : State) (v : Word) : State := { s with ir := v }
def setAc (s : State) (v : Word) : State := { s with ac := v }
def setX (s : State) (v : Word) : State := { s with x := v }
def setY (s : State) (v : Word) : State := { s with y := v }
def setKernel (s : State) (v : Bool) : State := { s with kernel := v }
def setTimerElapsed (s : State) (v : Bool) : State := { s with timerElapsed := v }
def setTimerCount (s : State) (v : Word) : State := { s with timerCount := v }
def setCpu (s : State) (v : RunState) : State := { s with cpu := v }
def setMem (s : State) (v : Memory) : State := { s with mem := v }
def setMemUnit (s : State) (v : UnitState) : State := { s with memUnit := v }
def setRequests (s : State) (v : List Message) : State := { s with requests := v }
def setResponses (s : State) (v : List Word) : State := { s with responses := v }
def setPosted (s : State) (v : List PostedWrite) : State := { s with posted := v }
def setUnanswered (s : State) (v : Option Word) : State := { s with unanswered := v }
def setOutput (s : State) (v : List OutEvent) : State := { s with output := v }
def setDraws (s : State) (v : Nat) : State := { s with draws := v }

/-- The state after reset (R38, R152) with the parameters of R10 and nothing placed in memory: `PC` =
`PC_RESET`, `SP` = `USER_SP_RESET`, user mode, no timer interrupt pending, `timerCount` = `timerLimit`, the
CPU running, the memory unit serving, the channel (nothing in flight in it) and the output empty. The launch
draws `AC`, `X`, `Y`, `IR` are 0 (DESIGN CHOICE, log 3), `timerLimit` is `Config.resetTimerLimit` (DESIGN
CHOICE, log 5), `draws` is 0 (DESIGN CHOICE, log 14). -/
def reset : State where
  pc := Params.reference.pcReset
  sp := Params.reference.userSpReset
  ir := 0
  ac := 0
  x := 0
  y := 0
  kernel := false
  timerElapsed := false
  timerLimit := Config.resetTimerLimit
  timerCount := Config.resetTimerLimit
  cpu := .running
  mem := []
  memUnit := .serving
  requests := []
  responses := []
  posted := []
  unanswered := none
  output := []
  params := Params.reference
  draws := 0

end State

/-- A fault, with the state it leaves (R144). Every one is fatal. -/
inductive Fault where
  /-- Raised by a step, for the four reports of the CPU. `left` has the run state `faulted r`, the memory unit,
  the channel and the output as the fault found them, and free register values (log 10). Safe: the spec
  names each report. -/
  | raised (r : FaultReport) (left : State)
  /-- Code 4, R141. Raised by `launch` when the program image cannot be opened or parsed. Safe: the machine
  takes no step. -/
  | programImageError
  deriving DecidableEq, Repr

end Sys2Proof.Machine
end

