-- ==== Sys2Proof/Machine/Ops.lean ====
section
/-! DEFINITION. The shared operations: memory, the channel and the memory unit, the interface controller
(spec/20_memory.md), the stack (spec/40_cycle.md), taking an interrupt and returning from one
(spec/60_exceptions.md). -/

namespace Sys2Proof.Machine

/-! ### The memory unit's array -/

/-- `Mem[a]` (R32). -/
def Memory.read : Memory → Nat → Word
  | [], _ => Config.unlistedWord
  | (k, w) :: m, a => if k = a then w else Memory.read m a

/-- `Mem[a] <- v` (R55), keeping the canonical form. -/
def Memory.write : Memory → Nat → Word → Memory
  | [], a, v => if v = Config.unlistedWord then [] else [(a, v)]
  | (k, w) :: m, a, v =>
    if a < k then
      if v = Config.unlistedWord then (k, w) :: m else (a, v) :: (k, w) :: m
    else if a = k then
      if v = Config.unlistedWord then m else (a, v) :: m
    else (k, w) :: Memory.write m a v

/-! ### The outcome of an operation inside a step -/

/-- How an operation inside a step ends (R16): it goes on with a value and a state, it raises a fault in the
state in which the rest of the instruction is abandoned (R144), or the CPU blocks for good (R52, R145). -/
inductive Res (α : Type) where
  | ok (v : α) (s : State)
  | fault (r : FaultReport) (s : State)
  | stuck (s : State)

/-- Go on only where the first operation went on: a fault or a stuck CPU ends the step (R75). -/
def Res.bind {α β : Type} (r : Res α) (k : α → State → Res β) : Res β :=
  match r with
  | .ok v s => k v s
  | .fault f s => .fault f s
  | .stuck s => .stuck s

/-- What is left of the state in which a fault abandoned an instruction (R144): nothing is undone, and the
values of the ten registers are unspecified, so each is a free value (log 10). The run state, the memory unit,
the channel and the output stay. -/
def abandon (s : State) : State :=
  { s with
    pc := Config.leftWord s.draws
    sp := Config.leftWord (s.draws + 1)
    ir := Config.leftWord (s.draws + 2)
    ac := Config.leftWord (s.draws + 3)
    x := Config.leftWord (s.draws + 4)
    y := Config.leftWord (s.draws + 5)
    timerLimit := Config.leftWord (s.draws + 6)
    timerCount := Config.leftWord (s.draws + 7)
    kernel := Config.leftFlag s.draws
    timerElapsed := Config.leftFlag (s.draws + 1)
    draws := s.draws + 8 }

/-- The host's view of an operation: a fault is reported with what it leaves (R144), and a stuck CPU is a next
state (log 11). -/
def Res.outcome (r : Res Unit) : Host.Outcome State Fault Refusal :=
  match r with
  | .ok _ s => .next s
  | .fault r s => .fault (.raised r (abandon s))
  | .stuck s => .next s

/-- `raise F(info)` (R16, R144): the run state becomes `faulted` and the rest is abandoned. No sentinel is
sent (R59). -/
def raise {α : Type} (r : FaultReport) (s : State) : Res α :=
  .fault r (s.setCpu (.faulted r))

/-- The CPU waits for a response that will not come: its run state becomes `stuck` (R52, R145). -/
def block {α : Type} (s : State) : Res α :=
  .stuck (s.setCpu .stuck)

/-! ### The channel and the memory unit -/

/-- Whether one send or receive fails (R53): never when `CHANNEL_FAILS` is false, else a free value. -/
def channelDraw (s : State) : Bool × State :=
  if s.params.channelFails then (Config.channelFault s.draws, s.setDraws (s.draws + 1))
  else (false, s)

/-- An address of the memory unit's array: `0 <= a < MEM_WORDS` (R39). -/
def inRange (p : Params) (a : Word) : Bool :=
  decide (0 ≤ a.toInt) && decide (a.toInt < p.memWords)

/-- The CPU sends a message (R49 to R51); a failure raises `ChannelWriteError` (R53), and the message is not in the
channel (DEDUCED, unsafe, log 29). -/
def send (m : Message) (s : State) : Res Unit :=
  match channelDraw s with
  | (true, t) => raise (.channelWriteError m) t
  | (false, t) => .ok () (t.setRequests (t.requests ++ [m]))

/-- The memory unit sends `Data(v)` (R54); a failure is fatal to it (R53, log 13), and the response is not in the
channel (DEDUCED, unsafe, log 29). -/
def reply (v : Word) (s : State) : State :=
  match channelDraw s with
  | (true, t) => t.setMemUnit .stopped
  | (false, t) => t.setResponses (t.responses ++ [v])

/-- `Mem[a] <- v` (R55), and the write joins the posted ones (R34, log 9). -/
def stored (a v : Word) (s : State) : State :=
  (s.setMem (Memory.write s.mem a.toNat v)).setPosted (s.posted ++ [⟨a, v, s.mem⟩])

/-- What the memory unit does with a message it has received (R55). A message whose address lies outside
its array stops it: the CPU sends none (R48, log 17). -/
def actOnMessage (m : Message) (s : State) : State :=
  match m with
  | [a] =>
    if a = Config.sentinel then s.setMemUnit .stopped
    else if inRange s.params a then reply (Memory.read s.mem a.toNat) s
    else s.setMemUnit .stopped
  | [a, v] =>
    if inRange s.params a then stored a v s
    else s.setMemUnit .stopped
  | _ => s.setMemUnit .stopped

/-- `handleRequest()` (R55) on the message it takes; a failure of its receive is fatal to it (log 13). DESIGN
CHOICE, unsafe, log 27: the spec does not say whether a message whose receive fails is lost or stays in the
channel; here it is lost. -/
def handleRequest (m : Message) (s : State) : State :=
  match channelDraw s with
  | (true, t) => t.setMemUnit .stopped
  | (false, t) => actOnMessage m t

/-- The memory unit takes the messages in the order sent (R57) until none is left or it stops; a stopped
unit takes no more (R33), and what it did not take stays in the channel (log 24). The message whose receive
fails counts as taken: it leaves the channel and is lost (DESIGN CHOICE, unsafe, log 27). -/
def serveAll : List Message → State → State
  | [], s => s.setRequests []
  | m :: ms, s =>
    match s.memUnit with
    | .serving => serveAll ms (handleRequest m s)
    | .stopped => s.setRequests (m :: ms)

/-- The memory unit takes what is in the channel. The model lets it do so inside the send (R58, log 9). -/
def serve (s : State) : State := serveAll s.requests s

/-- What a failed receive of the response to a read of `a` leaves in the channel: the response, if one was there,
is lost (DESIGN CHOICE, unsafe, log 27: the spec does not say whether it is lost or stays in the channel), and the
read counts as one that may still be ahead of the memory unit (log 28). -/
def failReceive (a : Word) (s : State) : State :=
  match s.responses with
  | [] => s
  | _ :: rest => (s.setResponses rest).setUnanswered (some a)

/-- The CPU receives the response to its read of `a` (R49); a failure raises `ChannelReadError` (R53), and
where no response comes the CPU is stuck (R145). -/
def receive (a : Word) (s : State) : Res Word :=
  match channelDraw s with
  | (true, t) => raise (.channelReadError a) (failReceive a t)
  | (false, t) =>
    match t.responses with
    | v :: rest => .ok v (t.setResponses rest)
    | [] => block t

/-! ### The interface controller -/

/-- The privilege check (R46): user mode and a system address. -/
def privilegeRefuses (a : Word) (s : State) : Bool :=
  !s.kernel && decide ((s.params.sysBase : Int) ≤ a.toInt)

/-- `MemRead(a, 1)` (R49). -/
def memRead (a : Word) (s : State) : Res Word :=
  if privilegeRefuses a s then raise (.accessViolation a .read s.pc) s
  else if a = Config.sentinel then (send [Config.sentinel] s).bind fun _ t => block (serve t)
  else if !inRange s.params a then raise (.addressRange a .read s.pc) s
  else (send [a] s).bind fun _ t => receive a (serve t)

/-- `MemWrite(a, 1, v)` (R50). -/
def memWrite (a v : Word) (s : State) : Res Unit :=
  if privilegeRefuses a s then raise (.accessViolation a .write s.pc) s
  else if !inRange s.params a then raise (.addressRange a .write s.pc) s
  else (send [a, v] s).bind fun _ t => .ok () (serve t)

/-- `Terminate` (R51): the sentinel, no check, no response awaited. -/
def sendTerminate (s : State) : Res Unit :=
  (send [Config.sentinel] s).bind fun _ t => .ok () (serve t)

/-! ### The stack -/

/-- `push(v)` (R79): decrement `SP`, then write. -/
def push (v : Word) (s : State) : Res Unit :=
  memWrite (s.sp - 1) v (s.setSp (s.sp - 1))

/-- `pop()` (R80): read, then increment `SP`. -/
def pop (s : State) : Res Word :=
  (memRead s.sp s).bind fun v t => .ok v (t.setSp (t.sp + 1))

/-! ### Taking an interrupt and returning from one -/

/-- The last lines of R124: `PC` goes to the handler; the timer handler's entry clears `timerElapsed`. -/
def enterHandler (cause : Cause) (s : State) : State :=
  match cause with
  | .manual => s.setPc s.params.syscallVec
  | .timer => (s.setPc s.params.timerVec).setTimerElapsed false

/-- `interrupt(cause)` (R124). In kernel mode nothing happens: interrupts are not nested. -/
def interrupt (cause : Cause) (s : State) : Res Unit :=
  if s.kernel then .ok () s
  else
    (push s.sp ((s.setKernel true).setSp s.params.sysStackBase)).bind fun _ t =>
      (push t.pc t).bind fun _ u => .ok () (enterHandler cause u)

/-- The return from an interrupt (R120): `PC = pop()`, `SP = pop()`, clear `kernel`. -/
def returnFromHandler (s : State) : Res Unit :=
  (pop s).bind fun v t =>
    (pop (t.setPc v)).bind fun w u => .ok () ((u.setSp w).setKernel false)

/-! ### The output port and the fault report -/

/-- The output port carries the events in program order (R92). -/
def emit (e : OutEvent) (s : State) : State :=
  s.setOutput (s.output ++ [e])

/-- The codes of the faults (R137): labels, no rule reads them. -/
def faultCode : Fault → Nat
  | .raised (.accessViolation _ _ _) _ => 1
  | .raised (.channelReadError _) _ => 2
  | .raised (.channelWriteError _) _ => 3
  | .programImageError => 4
  | .raised (.addressRange _ _ _) _ => 5

/-! ### The host's forced stop of the memory unit -/

/-- The message of a posted write (R54). -/
def PostedWrite.message (p : PostedWrite) : Message := [p.address, p.value]

/-- The messages in flight, in the order sent (R34): the posted writes, then a read whose answer the CPU failed to
receive. Nothing that the CPU has received shows that the memory unit took them. -/
def inFlight (s : State) : List Message :=
  s.posted.map PostedWrite.message ++ s.unanswered.toList.map fun a => [a]

/-- The array after the memory unit has taken the first `k` messages in flight. -/
def memAfterTaking (k : Nat) (s : State) : Memory :=
  match s.posted.drop k with
  | [] => s.mem
  | p :: _ => p.before

/-- The memory unit stopped after it took the first `k` messages in flight, in the order sent (R57): its array is
what they left, and the messages it did not take stay in the channel (R33). -/
def stopUnitAfter (k : Nat) (s : State) : State :=
  ((((s.setMem (memAfterTaking k s)).setRequests ((inFlight s).drop k ++ s.requests)).setMemUnit
    .stopped).setPosted []).setUnanswered none

/-- The host's forced stop of the memory unit (R59, R33), of the state a fault leaves or between two steps (log
22). The spec does not say whether posted writes still in the channel are stored first: how many of the
messages in flight the unit took is a free value, so that `Mem` is what some prefix of the writes sent leaves
(log 28). A unit that has stopped stays as it is. -/
def hostStopsUnit (s : State) : State :=
  match s.memUnit with
  | .stopped => s
  | .serving =>
    stopUnitAfter (Config.takenInFlight s.draws % ((inFlight s).length + 1)) (s.setDraws (s.draws + 1))

end Sys2Proof.Machine
end

