-- ==== Sys2Proof/Machine/Arith.lean ====
section
/-! DEFINITION. Arithmetic and register transfers, opcodes 10 to 19, 25 and 26
(spec/43_arith_transfer.md). Sums and differences wrap (R96). -/

namespace Sys2Proof.Machine

/-- R97. `AC <- AC + X`. -/
def execAddX (s : State) : Host.Outcome State Fault Refusal := .next (s.setAc (s.ac + s.x))

/-- R98. `AC <- AC + Y`. -/
def execAddY (s : State) : Host.Outcome State Fault Refusal := .next (s.setAc (s.ac + s.y))

/-- R99. `AC <- AC - X`. -/
def execSubX (s : State) : Host.Outcome State Fault Refusal := .next (s.setAc (s.ac - s.x))

/-- R100. `AC <- AC - Y`. -/
def execSubY (s : State) : Host.Outcome State Fault Refusal := .next (s.setAc (s.ac - s.y))

/-- R101. `X <- X + 1`. -/
def execIncX (s : State) : Host.Outcome State Fault Refusal := .next (s.setX (s.x + 1))

/-- R102. `X <- X - 1`. -/
def execDecX (s : State) : Host.Outcome State Fault Refusal := .next (s.setX (s.x - 1))

/-- R104. `X <- AC`. -/
def execCopyToX (s : State) : Host.Outcome State Fault Refusal := .next (s.setX s.ac)

/-- R105. `AC <- X`. -/
def execCopyFromX (s : State) : Host.Outcome State Fault Refusal := .next (s.setAc s.x)

/-- R106. `Y <- AC`. -/
def execCopyToY (s : State) : Host.Outcome State Fault Refusal := .next (s.setY s.ac)

/-- R107. `AC <- Y`. -/
def execCopyFromY (s : State) : Host.Outcome State Fault Refusal := .next (s.setAc s.y)

/-- R108. `SP <- AC`, unchecked in both modes. -/
def execCopyToSp (s : State) : Host.Outcome State Fault Refusal := .next (s.setSp s.ac)

/-- R109. `AC <- SP`. -/
def execCopyFromSp (s : State) : Host.Outcome State Fault Refusal := .next (s.setAc s.sp)

end Sys2Proof.Machine
end

