-- ==== Sys2Proof/Machine/Flags.lean ====
section
/-! DEFINITION. Tests of the state. The machine has no condition codes (spec/10_state.md R29): the branches
test `AC`, and fetch tests the timer. -/

namespace Sys2Proof.Machine

/-- The test of opcodes 21 and 22 (R112, R113): only the word 0 is zero. -/
def acIsZero (s : State) : Bool := s.ac == 0

/-- The test of fetch's first step (R76): `timerCount <= 0`, signed. -/
def timerExpired (s : State) : Bool := decide (s.timerCount.toInt ≤ 0)

/-- The ports of opcode 9 (R95). -/
def portIsInt (q : Word) : Bool := q == 1

/-- The ports of opcode 9 (R95). -/
def portIsChar (q : Word) : Bool := q == 2

/-- `AC[7:0]` (R92). -/
def lowByte (w : Word) : BitVec 8 := w.setWidth 8

end Sys2Proof.Machine
end

