-- ==== Sys2Proof/Machine/Control.lean ====
section
/-! DEFINITION. Control transfer and the stack, opcodes 20 to 24, 27 and 28 (spec/44_control_stack.md). The
operand word has been read: `PC` is just past the instruction's words. -/

namespace Sys2Proof.Machine

/-- R111. `PC <- t`, unchecked (R110). -/
def execJump (t : Word) (s : State) : Host.Outcome State Fault Refusal := .next (s.setPc t)

/-- R112. `if AC == 0: PC <- t`. -/
def execJumpIfEqual (t : Word) (s : State) : Host.Outcome State Fault Refusal :=
  if acIsZero s then .next (s.setPc t) else .next s

/-- R113. `if AC != 0: PC <- t`. -/
def execJumpIfNotEqual (t : Word) (s : State) : Host.Outcome State Fault Refusal :=
  if acIsZero s then .next s else .next (s.setPc t)

/-- R114. `push(PC); PC <- t`: `PC` is `p + 2`, the operand having been read first (D14). -/
def execCall (t : Word) (s : State) : Host.Outcome State Fault Refusal :=
  ((push s.pc s).bind fun _ u => .ok () (u.setPc t)).outcome

/-- R115. `PC <- pop()`. -/
def execRet (s : State) : Host.Outcome State Fault Refusal :=
  ((pop s).bind fun v t => .ok () (t.setPc v)).outcome

/-- R116. `push(AC)`. -/
def execPush (s : State) : Host.Outcome State Fault Refusal := (push s.ac s).outcome

/-- R117. `AC <- pop()`. -/
def execPop (s : State) : Host.Outcome State Fault Refusal :=
  ((pop s).bind fun v t => .ok () (t.setAc v)).outcome

end Sys2Proof.Machine
end

