-- ==== Sys2Proof/Machine/InputOutput.lean ====
section
/-! DEFINITION. Input and output, opcodes 8 and 9 (spec/42_io.md), and the printed form of the output. -/

namespace Sys2Proof.Machine

/-- The integer the random-value input supplies (R93): a free value in `RAND_LO .. RAND_HI`, log 14. -/
def randomWord (n : Nat) : Word :=
  BitVec.ofNat 32 (Config.randLo + (Config.randomDraw n).val)

/-- R94. `AC <- r`, `1 <= r <= 100`, a fresh draw at each execution. -/
def execGet (s : State) : Host.Outcome State Fault Refusal :=
  .next ((s.setAc (randomWord s.draws)).setDraws (s.draws + 1))

/-- R95. Port 1 emits `Int(AC)`, port 2 emits `Char(AC[7:0])`, every other port emits `InvalidPort(q)`. -/
def execPut (q : Word) (s : State) : Host.Outcome State Fault Refusal :=
  if portIsInt q then .next (emit (.int s.ac) s)
  else if portIsChar q then .next (emit (.char (lowByte s.ac)) s)
  else .next (emit (.invalidPort q) s)

/-- The decimal digits of `n`, most significant first, no leading zeros; `fuel` bounds the digits. -/
def decimalDigits : Nat → Nat → List Char → List Char
  | 0, _, acc => acc
  | fuel + 1, n, acc =>
    let d := Char.ofNat (48 + n % 10)
    if n / 10 = 0 then d :: acc else decimalDigits fuel (n / 10) (d :: acc)

/-- The text of `Int(v)` (R92): signed decimal, a leading `-` for a negative value, no leading zeros, no
padding, no separator. A word has at most ten digits. -/
def signedDecimal (v : Word) : List Char :=
  if v.toInt < 0 then '-' :: decimalDigits 10 v.toInt.natAbs []
  else decimalDigits 10 v.toInt.natAbs []

/-- The printed output (R92). The spec leaves open the character encoding and the text of the notice, so
both are arguments (log 19). -/
def printOutput (character : BitVec 8 → List Char) (notice : Word → List Char) :
    List OutEvent → List Char
  | [] => []
  | .int v :: es => signedDecimal v ++ printOutput character notice es
  | .char b :: es => character b ++ printOutput character notice es
  | .invalidPort q :: es => notice q ++ printOutput character notice es

end Sys2Proof.Machine
end

