-- ==== Sys2Proof/Machine/Operands.lean ====
section
/-! DEFINITION. Operand forms and effective addresses (spec/30_encoding.md R68, spec/41_load_store.md R84). -/

namespace Sys2Proof.Machine

/-- `getArgument()` (R78): the word at `PC`, then `PC <- PC + 1`. -/
def getArgument (s : State) : Res Word :=
  (memRead s.pc s).bind fun v t => .ok v (t.setPc (t.pc + 1))

/-- Absolute (R84; opcodes 2, 7): the operand is the address. -/
def absoluteAddr (n : Word) (_s : State) : Word := n

/-- Indirect (R84; opcode 3): the address is the word at the operand, one extra read. -/
def indirectAddr (n : Word) (s : State) : Res Word := memRead n s

/-- Indexed by `X` (R84; opcode 4), wrapping. -/
def indexedXAddr (n : Word) (s : State) : Word := n + s.x

/-- Indexed by `Y` (R84; opcode 5), wrapping. -/
def indexedYAddr (n : Word) (s : State) : Word := n + s.y

/-- Stack-relative (R84; opcode 6), wrapping. -/
def stackXAddr (s : State) : Word := s.sp + s.x

/-- The value a load puts into `AC`: the word at `a`. -/
def loadAc (a : Word) (s : State) : Res Unit :=
  (memRead a s).bind fun v t => .ok () (t.setAc v)

end Sys2Proof.Machine
end

