-- ==== Sys2Proof/Machine/LoadStore.lean ====
section
/-! DEFINITION. Loads and the store, opcodes 1 to 7 (spec/41_load_store.md). The operand word has been read:
`PC` is just past the instruction's words. -/

namespace Sys2Proof.Machine

/-- R85. `AC <- n`. -/
def execLoadValue (n : Word) (s : State) : Host.Outcome State Fault Refusal :=
  .next (s.setAc n)

/-- R86. `AC <- MemRead(n, 1)`. -/
def execLoadAddr (n : Word) (s : State) : Host.Outcome State Fault Refusal :=
  (loadAc (absoluteAddr n s) s).outcome

/-- R87. `b <- MemRead(n, 1); AC <- MemRead(b, 1)`. -/
def execLoadInd (n : Word) (s : State) : Host.Outcome State Fault Refusal :=
  ((indirectAddr n s).bind fun b t => loadAc b t).outcome

/-- R88. `AC <- MemRead(n + X, 1)`. -/
def execLoadIdxX (n : Word) (s : State) : Host.Outcome State Fault Refusal :=
  (loadAc (indexedXAddr n s) s).outcome

/-- R89. `AC <- MemRead(n + Y, 1)`. -/
def execLoadIdxY (n : Word) (s : State) : Host.Outcome State Fault Refusal :=
  (loadAc (indexedYAddr n s) s).outcome

/-- R90. `AC <- MemRead(SP + X, 1)`. -/
def execLoadSpX (s : State) : Host.Outcome State Fault Refusal :=
  (loadAc (stackXAddr s) s).outcome

/-- R91. `MemWrite(n, 1, AC)`. -/
def execStore (n : Word) (s : State) : Host.Outcome State Fault Refusal :=
  (memWrite (absoluteAddr n s) s.ac s).outcome

end Sys2Proof.Machine
end

