-- ==== Sys2Proof/Machine/System.lean ====
section
/-! DEFINITION. System instructions, opcodes 29, 30 and 50, and the unlisted opcodes (spec/45_system.md). No
instruction is privileged (R118). -/

namespace Sys2Proof.Machine

/-- R119. `interrupt(manual)`. -/
def execSoftwareInterrupt (s : State) : Host.Outcome State Fault Refusal :=
  (interrupt .manual s).outcome

/-- R120. `PC <- pop(); SP <- pop(); kernel <- false`, in both modes. -/
def execReturnFromInterrupt (s : State) : Host.Outcome State Fault Refusal :=
  (returnFromHandler s).outcome

/-- R121. Sends the sentinel; the CPU's run state becomes `halted` (R75). -/
def execTerminate (s : State) : Host.Outcome State Fault Refusal :=
  ((sendTerminate s).bind fun _ t => .ok () (t.setCpu .halted)).outcome

/-- R122. An unlisted opcode does nothing. -/
def execUnlisted (s : State) : Host.Outcome State Fault Refusal := .next s

end Sys2Proof.Machine
end

