-- ==== Sys2Proof/Syntax.lean ====
section
/-! DEFINITION. The instructions: one constructor per row of spec/opcode_table.json (R70). -/

namespace Sys2Proof

/-- The 31 instructions of the cpu-sim ISA (R2, R70). A two-word form carries its operand word (R68).
A word that is no opcode of R70 has no constructor: it is the one-word no-op of R122, which the step
runs (`Machine.execUnlisted`, log 16). -/
inductive Instr where
  /-- Opcode 1, R85. -/
  | loadValue (imm : Word)
  /-- Opcode 2, R86. -/
  | loadAddr (addr : Word)
  /-- Opcode 3, R87. -/
  | loadInd (addr : Word)
  /-- Opcode 4, R88. -/
  | loadIdxX (addr : Word)
  /-- Opcode 5, R89. -/
  | loadIdxY (addr : Word)
  /-- Opcode 6, R90. -/
  | loadSpX
  /-- Opcode 7, R91. -/
  | store (addr : Word)
  /-- Opcode 8, R94. -/
  | get
  /-- Opcode 9, R95. -/
  | put (port : Word)
  /-- Opcode 10, R97. -/
  | addX
  /-- Opcode 11, R98. -/
  | addY
  /-- Opcode 12, R99. -/
  | subX
  /-- Opcode 13, R100. -/
  | subY
  /-- Opcode 14, R104. -/
  | copyToX
  /-- Opcode 15, R105. -/
  | copyFromX
  /-- Opcode 16, R106. -/
  | copyToY
  /-- Opcode 17, R107. -/
  | copyFromY
  /-- Opcode 18, R108. -/
  | copyToSp
  /-- Opcode 19, R109. -/
  | copyFromSp
  /-- Opcode 20, R111. -/
  | jump (addr : Word)
  /-- Opcode 21, R112. -/
  | jumpIfEqual (addr : Word)
  /-- Opcode 22, R113. -/
  | jumpIfNotEqual (addr : Word)
  /-- Opcode 23, R114. -/
  | call (addr : Word)
  /-- Opcode 24, R115. -/
  | ret
  /-- Opcode 25, R101. -/
  | incX
  /-- Opcode 26, R102. -/
  | decX
  /-- Opcode 27, R116. -/
  | push
  /-- Opcode 28, R117. -/
  | pop
  /-- Opcode 29, R119. -/
  | softwareInterrupt
  /-- Opcode 30, R120. -/
  | returnFromInterrupt
  /-- Opcode 50, R121. -/
  | terminate
  deriving DecidableEq, Repr

end Sys2Proof
end

