-- ==== Sys2Proof/Machine/Dispatch.lean ====
section
/-! DEFINITION. One arm per instruction. `exec i s` is the body `perform(IR)` of R77 and R83: the opcode word
and the operand word have been read, and `PC` is just past them. -/

namespace Sys2Proof.Machine

def exec (i : Instr) (s : State) : Host.Outcome State Fault Refusal :=
  match i with
  | .loadValue n => Sys2Proof.Machine.execLoadValue n s
  | .loadAddr n => Sys2Proof.Machine.execLoadAddr n s
  | .loadInd n => Sys2Proof.Machine.execLoadInd n s
  | .loadIdxX n => Sys2Proof.Machine.execLoadIdxX n s
  | .loadIdxY n => Sys2Proof.Machine.execLoadIdxY n s
  | .loadSpX => Sys2Proof.Machine.execLoadSpX s
  | .store n => Sys2Proof.Machine.execStore n s
  | .get => Sys2Proof.Machine.execGet s
  | .put q => Sys2Proof.Machine.execPut q s
  | .addX => Sys2Proof.Machine.execAddX s
  | .addY => Sys2Proof.Machine.execAddY s
  | .subX => Sys2Proof.Machine.execSubX s
  | .subY => Sys2Proof.Machine.execSubY s
  | .copyToX => Sys2Proof.Machine.execCopyToX s
  | .copyFromX => Sys2Proof.Machine.execCopyFromX s
  | .copyToY => Sys2Proof.Machine.execCopyToY s
  | .copyFromY => Sys2Proof.Machine.execCopyFromY s
  | .copyToSp => Sys2Proof.Machine.execCopyToSp s
  | .copyFromSp => Sys2Proof.Machine.execCopyFromSp s
  | .jump t => Sys2Proof.Machine.execJump t s
  | .jumpIfEqual t => Sys2Proof.Machine.execJumpIfEqual t s
  | .jumpIfNotEqual t => Sys2Proof.Machine.execJumpIfNotEqual t s
  | .call t => Sys2Proof.Machine.execCall t s
  | .ret => Sys2Proof.Machine.execRet s
  | .incX => Sys2Proof.Machine.execIncX s
  | .decX => Sys2Proof.Machine.execDecX s
  | .push => Sys2Proof.Machine.execPush s
  | .pop => Sys2Proof.Machine.execPop s
  | .softwareInterrupt => Sys2Proof.Machine.execSoftwareInterrupt s
  | .returnFromInterrupt => Sys2Proof.Machine.execReturnFromInterrupt s
  | .terminate => Sys2Proof.Machine.execTerminate s

end Sys2Proof.Machine
end

