-- ==== Sys2Proof/Decode.lean ====
section
/-! DEFINITION. Decoding and encoding (spec/30_encoding.md). -/

namespace Sys2Proof

/-- R69: the opcodes that take an operand word are 1, 2, 3, 4, 5, 7, 9, 20, 21, 22 and 23. Every other
word, listed or not, is one word long. -/
def isTwoWord (op : Word) : Bool :=
  match op.toNat with
  | 1 | 2 | 3 | 4 | 5 | 7 | 9 | 20 | 21 | 22 | 23 => true
  | _ => false

/-- The opcode map R70: the instruction whose opcode word is `op` and whose operand word, if it has
one, is `operand`. `none` for an unlisted opcode (R71). An opcode is compared as a whole word (R67). -/
def decodeInstr (op operand : Word) : Option Instr :=
  match op.toNat with
  | 1 => some (.loadValue operand)
  | 2 => some (.loadAddr operand)
  | 3 => some (.loadInd operand)
  | 4 => some (.loadIdxX operand)
  | 5 => some (.loadIdxY operand)
  | 6 => some .loadSpX
  | 7 => some (.store operand)
  | 8 => some .get
  | 9 => some (.put operand)
  | 10 => some .addX
  | 11 => some .addY
  | 12 => some .subX
  | 13 => some .subY
  | 14 => some .copyToX
  | 15 => some .copyFromX
  | 16 => some .copyToY
  | 17 => some .copyFromY
  | 18 => some .copyToSp
  | 19 => some .copyFromSp
  | 20 => some (.jump operand)
  | 21 => some (.jumpIfEqual operand)
  | 22 => some (.jumpIfNotEqual operand)
  | 23 => some (.call operand)
  | 24 => some .ret
  | 25 => some .incX
  | 26 => some .decX
  | 27 => some .push
  | 28 => some .pop
  | 29 => some .softwareInterrupt
  | 30 => some .returnFromInterrupt
  | 50 => some .terminate
  | _ => none

/-- Why a run of words is no instruction of the table. -/
inductive DecodeError where
  /-- There is no word to decode. -/
  | noWord
  /-- The first word is an unlisted opcode (R71): the machine runs it as a one-word no-op (R122). -/
  | unlisted (op : Word)
  /-- The opcode takes an operand word (R69) and there is none. -/
  | noOperand (op : Word)
  deriving DecidableEq, Repr

/-- Decode the instruction at the head of a list of words: the instruction and the words after it. -/
def decodeWords : List Word → Except DecodeError (Instr × List Word)
  | [] => .error .noWord
  | op :: rest =>
    match isTwoWord op, rest with
    | true, [] => .error (.noOperand op)
    | true, v :: rest' => match decodeInstr op v with
      | some i => .ok (i, rest')
      | none => .error (.unlisted op)
    | false, rest' => match decodeInstr op 0 with
      | some i => .ok (i, rest')
      | none => .error (.unlisted op)

/-- The words of an instruction (R67, R70): the opcode word, then the operand word of a W2 form. -/
def encode : Instr → List Word
  | .loadValue n => [1, n]
  | .loadAddr n => [2, n]
  | .loadInd n => [3, n]
  | .loadIdxX n => [4, n]
  | .loadIdxY n => [5, n]
  | .loadSpX => [6]
  | .store n => [7, n]
  | .get => [8]
  | .put q => [9, q]
  | .addX => [10]
  | .addY => [11]
  | .subX => [12]
  | .subY => [13]
  | .copyToX => [14]
  | .copyFromX => [15]
  | .copyToY => [16]
  | .copyFromY => [17]
  | .copyToSp => [18]
  | .copyFromSp => [19]
  | .jump t => [20, t]
  | .jumpIfEqual t => [21, t]
  | .jumpIfNotEqual t => [22, t]
  | .call t => [23, t]
  | .ret => [24]
  | .incX => [25]
  | .decX => [26]
  | .push => [27]
  | .pop => [28]
  | .softwareInterrupt => [29]
  | .returnFromInterrupt => [30]
  | .terminate => [50]

/-- Word `k` of an instruction given as a number of `nbits` bits, bit 0 the least significant bit of the
first word; the bits from `nbits` up are zero. Log 23. -/
def tableWordAt (nbits w k : Nat) : Word :=
  BitVec.ofNat 32 ((w % 2 ^ nbits) / 2 ^ (32 * k))

/-- The instruction the decoder reads from an instruction numbered as spec/opcode_table.json numbers its
bits: the words are laid out first to last and given to `decodeWords`. -/
def decodeTableWord (nbits w : Nat) : Option Instr :=
  match decodeWords [tableWordAt nbits w 0, tableWordAt nbits w 1] with
  | .ok (i, _) => some i
  | .error _ => none

end Sys2Proof
end

