-- ==== Sys2Proof/Machine/Fetch.lean ====
section
/-! DEFINITION. The parts of the fetch-execute cycle around `perform` (spec/40_cycle.md). -/

namespace Sys2Proof.Machine

/-- Step 1 of fetch (R76): an expired countdown is reloaded and sets `timerElapsed`. -/
def reloadTimer (s : State) : State :=
  if timerExpired s then (s.setTimerCount s.timerLimit).setTimerElapsed true else s

/-- Steps 1 and 2 of fetch (R76): the timer, and the interrupt sequence when `timerElapsed` is set. -/
def timerPhase (s : State) : Res Unit :=
  if (reloadTimer s).timerElapsed then interrupt .timer (reloadTimer s) else .ok () (reloadTimer s)

/-- The state after the opcode word `op` was read at `PC` (R76): `IR` and `PC` are written, and no posted write is
left ahead, because the answer to a read shows that every write sent before it was stored (R57). It is recorded
at this read alone: no instruction writes and then reads (log 28). -/
def fetched (s : State) (op : Word) : State := ((s.setIr op).setPc (s.pc + 1)).setPosted []

/-- Step 3 of fetch (R76): `IR <- MemRead(PC, 1); PC <- PC + 1`. -/
def readOpcode (s : State) : Res Unit :=
  (memRead s.pc s).bind fun w t => .ok () (fetched t w)

/-- `fetch()` (R76). -/
def fetch (s : State) : Res Unit :=
  (timerPhase s).bind fun _ t => readOpcode t

/-- Decode `IR` (R77, R69): a two-word opcode first reads its operand with `getArgument` (R78). `none` is an
unlisted opcode, which reads no operand (R71). Log 15. -/
def decodeIr (s : State) : Res (Option Instr) :=
  if isTwoWord s.ir then (getArgument s).bind fun v t => .ok (decodeInstr s.ir v) t
  else .ok (decodeInstr s.ir 0) s

/-- The end of `execute()` (R77): `timerCount` is decremented. A stuck CPU never reaches that end. -/
def tick (s : State) : State :=
  if s.cpu = .stuck then s else s.setTimerCount (s.timerCount - 1)

/-- The end of a step around what `perform` answered. -/
def finish : Host.Outcome State Fault Refusal → Host.Outcome State Fault Refusal
  | .next s => .next (tick s)
  | .fault f => .fault f
  | .refused r => .refused r

/-- The address the next fetch reads its opcode word from: `PC` after the timer phase (R76). -/
def fetchAddress (s : State) : Word :=
  match timerPhase s with
  | .ok _ t => t.pc
  | .fault _ t => t.pc
  | .stuck t => t.pc

/-- Memory with the word `v` placed at `a`, if `a` is an address of the array. -/
def placeWord (p : Params) (a v : Word) (m : Memory) : Memory :=
  if inRange p a then Memory.write m a.toNat v else m

/-- The two words of an instruction, placed at the address the next fetch reads. -/
def placeInstruction (op operand : Word) (s : State) : State :=
  s.setMem (placeWord s.params (fetchAddress s + 1) operand
    (placeWord s.params (fetchAddress s) op s.mem))

end Sys2Proof.Machine
end

