-- ==== Sys2Proof/Machine/Cycle.lean ====
section
/-! DEFINITION. The fetch-execute cycle (spec/40_cycle.md R75, R77). -/

namespace Sys2Proof.Machine

/-- `execute()` (R77): decode `IR`, perform the instruction or the no-op of an unlisted opcode, and
decrement `timerCount`. -/
def execute (s : State) : Host.Outcome State Fault Refusal :=
  match decodeIr s with
  | .ok (some i) t => finish (exec i t)
  | .ok none t => finish (execUnlisted t)
  | .fault r t => .fault (.raised r (abandon t))
  | .stuck t => .next t

/-- `fetch()` and then `execute()` (R75). -/
def cycle (s : State) : Host.Outcome State Fault Refusal :=
  match fetch s with
  | .ok _ t => execute t
  | .fault r t => .fault (.raised r (abandon t))
  | .stuck t => .next t

/-- The step of R75, taken only while the run state is running (log 12). -/
def oneStep (s : State) : Host.Outcome State Fault Refusal :=
  match s.cpu with
  | .running => cycle s
  | .halted => .refused .notRunning
  | .faulted _ => .refused .notRunning
  | .stuck => .refused .notRunning

end Sys2Proof.Machine
end

