-- ==== Sys2Proof/Machine/Step.lean ====
section
/-! DEFINITION. One step of the machine, and an instruction stored where it will be fetched. -/

namespace Sys2Proof.Machine

/-- One step of the machine (R75). -/
def step (s : State) : Host.Outcome State Fault Refusal := oneStep s

/-- The instruction numbered as spec/opcode_table.json numbers its bits, stored where the next step fetches
it (log 6, 23). -/
def State.withFetchWord (s : State) (nbits w : Nat) : State :=
  placeInstruction (tableWordAt nbits w 0) (tableWordAt nbits w 1) s

end Sys2Proof.Machine
end

