-- ==== Sys2Proof/WellFormed.lean ====
section
/-! DEFINITION. What is well formed: instructions, parameters and the timer period (spec/00_scope.md R11). -/

namespace Sys2Proof

/-- Every instruction is well formed: an operand is a whole word, used as it stands (R68), and no value
of it is reserved. There is no check, so there is no ill-formed instruction. -/
def Instr.wellFormed : Instr → Bool
  | .loadValue _ | .loadAddr _ | .loadInd _ | .loadIdxX _ | .loadIdxY _ | .loadSpX | .store _ => true
  | .get | .put _ => true
  | .addX | .addY | .subX | .subY | .copyToX | .copyFromX | .copyToY | .copyFromY => true
  | .copyToSp | .copyFromSp | .incX | .decX => true
  | .jump _ | .jumpIfEqual _ | .jumpIfNotEqual _ | .call _ | .ret | .push | .pop => true
  | .softwareInterrupt | .returnFromInterrupt | .terminate => true

/-- R11 (a): `0 < SYS_BASE < MEM_WORDS <= 2^(WORD_BITS-1) - 1`. -/
abbrev Params.SizesOk (p : Params) : Prop :=
  0 < p.sysBase ∧ p.sysBase < p.memWords ∧ (p.memWords : Int) ≤ Word.maxInt

/-- An address of system space: `SYS_BASE <= a < MEM_WORDS` (R40). -/
abbrev Params.InSystemSpace (p : Params) (a : Word) : Prop :=
  (p.sysBase : Int) ≤ a.toInt ∧ a.toInt < p.memWords

/-- R11 (b): both handler entry addresses lie in system space. -/
abbrev Params.VectorsOk (p : Params) : Prop :=
  p.InSystemSpace p.timerVec ∧ p.InSystemSpace p.syscallVec

/-- R11 (c): `SYS_BASE + 2 <= SYS_STACK_BASE <= MEM_WORDS`. -/
abbrev Params.StackOk (p : Params) : Prop :=
  (p.sysBase : Int) + 2 ≤ p.sysStackBase.toInt ∧ p.sysStackBase.toInt ≤ p.memWords

/-- The constraints of R11 (a), (b), (c). -/
abbrev Params.WellFormed (p : Params) : Prop :=
  p.SizesOk ∧ p.VectorsOk ∧ p.StackOk

/-- R11 (d): `1 <= timerLimit <= 2^(WORD_BITS-1) - 1`. -/
abbrev TimerPeriodOk (period : Int) : Prop :=
  1 ≤ period ∧ period ≤ Word.maxInt

end Sys2Proof
end

