-- ==== Sys2Proof/Machine/Launch.lean ====
section
/-! DEFINITION. The launch (spec/70_reset_and_hazards.md R151, R152) and the program image
(spec/20_memory.md R63 to R65). -/

namespace Sys2Proof.Machine

/-! ### The program image -/

/-- The value of a decimal digit. -/
def digitValue (c : Char) : Option Nat :=
  if 48 ≤ c.toNat ∧ c.toNat ≤ 57 then some (c.toNat - 48) else none

/-- The longest run of decimal digits at the start of a line, continued from `acc` (R63). -/
def readDigits : List Char → Nat → Nat
  | [], acc => acc
  | c :: cs, acc => match digitValue c with
    | some d => readDigits cs (10 * acc + d)
    | none => acc

/-- What one line of an image asks for (R63). -/
inductive Directive where
  /-- A line beginning with `.`: the next write index. -/
  | setIndex (n : Nat)
  /-- A line beginning with a digit: a word at the current index. -/
  | word (n : Nat)
  /-- A blank line or anything else. -/
  | ignored
  /-- A `.` with no digit after it: it cannot be parsed (log 18). -/
  | unparsed
  deriving DecidableEq, Repr

/-- One line of an image (R63). The rest of the line after its number is ignored. -/
def parseLine : List Char → Directive
  | [] => .ignored
  | c :: cs =>
    match digitValue c with
    | some d => .word (readDigits cs d)
    | none =>
      if c = '.' then
        match cs with
        | [] => .unparsed
        | e :: es => match digitValue e with
          | some d => .setIndex (readDigits es d)
          | none => .unparsed
      else .ignored

/-- The lines of an image from write index `index` on (R63). `none` is a `ProgramImageError`: a line that
cannot be parsed, a word outside `0 .. MEM_WORDS-1`, or a number that is no word (R64, log 18). -/
def loadLines (p : Params) : List (List Char) → Nat → Memory → Option Memory
  | [], _, m => some m
  | line :: lines, index, m =>
    match parseLine line with
    | .setIndex n => loadLines p lines n m
    | .word n =>
      if index < p.memWords ∧ (n : Int) ≤ Word.maxInt then
        loadLines p lines (index + 1) (Memory.write m index (BitVec.ofNat 32 n))
      else none
    | .ignored => loadLines p lines index m
    | .unparsed => none

/-! ### The launch -/

/-- The inputs of a launch (R151). -/
structure Launch where
  /-- The lines of the program image; `none` when it cannot be opened. -/
  image : Option (List (List Char))
  /-- The timer period. -/
  timerLimit : Int
  /-- The parameter choices of R10. -/
  params : Params
  /-- The launch draw of `AC` (R38). -/
  ac : Word
  /-- The launch draw of `X` (R38). -/
  x : Word
  /-- The launch draw of `Y` (R38). -/
  y : Word
  /-- The launch draw of `IR` (R38). -/
  ir : Word
  /-- The launch draws of the cells (R65), used where the image names no word. -/
  cell : Nat → Word

/-- The memory of the launch draws alone, in canonical form. -/
def drawnMemory (p : Params) (cell : Nat → Word) : Memory :=
  (List.range p.memWords).filterMap fun a =>
    if cell a = Config.unlistedWord then none else some (a, cell a)

/-- The state a launch that is not refused leaves (R38, R152). -/
def launchedState (l : Launch) (m : Memory) : State where
  pc := l.params.pcReset
  sp := l.params.userSpReset
  ir := l.ir
  ac := l.ac
  x := l.x
  y := l.y
  kernel := false
  timerElapsed := false
  timerLimit := BitVec.ofInt 32 l.timerLimit
  timerCount := BitVec.ofInt 32 l.timerLimit
  cpu := .running
  mem := m
  memUnit := .serving
  requests := []
  responses := []
  posted := []
  unanswered := none
  output := []
  params := l.params
  draws := 0

/-- The launch (R151, R152): refused when a parameter breaks R11 or the timer period is no positive word, a
`ProgramImageError` when the image cannot be opened or parsed (R141). -/
def launch (l : Launch) : Host.Outcome State Fault Refusal :=
  if ¬ l.params.WellFormed then .refused .badParameters
  else if ¬ TimerPeriodOk l.timerLimit then .refused .badTimerPeriod
  else
    match l.image with
    | none => .fault .programImageError
    | some lines =>
      match loadLines l.params lines 0 (drawnMemory l.params l.cell) with
      | none => .fault .programImageError
      | some m => .next (launchedState l m)

end Sys2Proof.Machine
end

