-- ==== Sys2Proof/Safety.lean ====
section
/-! DEFINITION. What claims are stated in terms of: accessible addresses, the channel at rest, the interrupt
state machine, the end of a run, and the invariant of the machine. -/

namespace Sys2Proof.Machine

/-- The word `Mem[a]` a statement speaks of (R15), `a` read as an index. -/
abbrev wordAt (s : State) (a : Word) : Word := Memory.read s.mem a.toNat

/-- An access at `a` passes the checks of R46 and R48. -/
abbrev Accessible (s : State) (a : Word) : Prop :=
  0 ≤ a.toInt ∧ a.toInt < s.params.memWords ∧ (s.kernel = true ∨ a.toInt < s.params.sysBase)

/-- User mode and a system address: R46 refuses it. -/
abbrev Protected (s : State) (a : Word) : Prop :=
  s.kernel = false ∧ (s.params.sysBase : Int) ≤ a.toInt

/-- Passes R46 but lies outside the array, or below it: R48 refuses it (a read of -1 apart). -/
abbrev OutOfRange (s : State) (a : Word) : Prop :=
  ¬ Protected s a ∧ (a.toInt < 0 ∨ (s.params.memWords : Int) ≤ a.toInt)

/-- The premise of the collapsed channel (R58): a reliable channel (`CHANNEL_FAILS` false), nothing in it,
and a memory unit that has not been stopped. -/
abbrev Linked (s : State) : Prop :=
  s.params.channelFails = false ∧ s.memUnit = .serving ∧ s.requests = [] ∧ s.responses = []

/-- The channel of a CPU between two steps (R56): no response waits, and a serving memory unit has taken
every message. Unlike `Linked` it also admits a channel that may fail and a memory unit that stopped. -/
abbrev Quiet (s : State) : Prop :=
  s.responses = [] ∧ (s.memUnit = .serving → s.requests = [])

/-- `Quiet`, and no read was left unanswered by a failed receive (R34, R53): the channel of a running CPU. -/
abbrev AtRest (s : State) : Prop := Quiet s ∧ s.unanswered = none

/-- The next fetch enters no handler and reloads no timer (R76): the countdown has not run out, and no
timer interrupt is pending unless kernel mode defers it. -/
abbrev NoTimerEvent (s : State) : Prop :=
  0 < s.timerCount.toInt ∧ (s.kernel = true ∨ s.timerElapsed = false)

/-- The next fetch takes the timer interrupt (R76, R124): user mode, and due or pending. -/
abbrev TimerTaken (s : State) : Prop :=
  s.kernel = false ∧ (s.timerCount.toInt ≤ 0 ∨ s.timerElapsed = true)

/-- A running CPU that is about to fetch the opcode word `op` at an accessible `PC`, with no timer event
and the channel at rest. -/
abbrev AtOpcode (s : State) (op : Word) : Prop :=
  s.cpu = .running ∧ Linked s ∧ NoTimerEvent s ∧ Accessible s s.pc ∧ wordAt s s.pc = op

/-- The causes of a fault of one access at `a` made in `s` (R137). -/
def AccessFault (s : State) (a : Word) (kind : AccessKind) (r : FaultReport) : Prop :=
  r = .accessViolation a kind s.pc ∧ Protected s a ∨
  r = .addressRange a kind s.pc ∧ OutOfRange s a ∧ (kind = .read → a ≠ Config.sentinel) ∨
  s.params.channelFails = true ∧ (r = .channelReadError a ∨ ∃ m, r = .channelWriteError m)

/-- `t` has all of `s` that lies outside the CPU: the memory unit, the channel with its messages in flight, the
output and the parameters. -/
abbrev SameOutside (s t : State) : Prop :=
  t.mem = s.mem ∧ t.memUnit = s.memUnit ∧ t.requests = s.requests ∧ t.responses = s.responses ∧
    t.posted = s.posted ∧ t.unanswered = s.unanswered ∧ t.output = s.output ∧ t.params = s.params

/-- What `o` answers is the fault reported as `r` (R144), and nothing has been sent: the state it leaves has the
run state `faulted r` and everything outside the CPU as in `s`. (Its register values are free.) -/
def FaultsWith (s : State) (o : Host.Outcome State Fault Refusal) (r : FaultReport) : Prop :=
  ∃ t, o = .fault (.raised r t) ∧ t.cpu = .faulted r ∧ SameOutside s t

/-- The read whose response the CPU failed to receive, for a fault of that kind (R139). -/
def FaultReport.unanswered : FaultReport → Option Word
  | .channelReadError a => some a
  | .accessViolation _ _ _ => none
  | .channelWriteError _ => none
  | .addressRange _ _ _ => none

/-- Where the memory unit still serves at a fault reported as `r`, the channel holds no response and no message but
those in flight: the posted writes and, behind them, a read whose response the CPU failed to receive. -/
abbrev OnlyInFlight (r : FaultReport) (t : State) : Prop :=
  t.memUnit = .serving → t.requests = [] ∧ t.responses = [] ∧ t.unanswered = r.unanswered

/-- The array after a posted write. -/
def PostedWrite.after (p : PostedWrite) : Memory := Memory.write p.before p.address.toNat p.value

/-- The array after the writes of `ws`, oldest first. -/
def applyWrites (m : Memory) (ws : List PostedWrite) : Memory :=
  ws.foldl (fun n p => Memory.write n p.address.toNat p.value) m

/-- The array before the first posted write (the array itself where there is none). -/
def memBeforePosts (s : State) : Memory :=
  match s.posted with
  | [] => s.mem
  | p :: _ => p.before

/-- The posted writes account for the array: each found it as the one before left it, and the last left `m`. -/
abbrev PostsLeadTo (m : Memory) (ps : List PostedWrite) : Prop :=
  ps.map PostedWrite.after = (ps.map PostedWrite.before ++ [m]).tail

/-- The step of a one-word instruction `i` with opcode word `op` (R76, R77): `exec i` with `IR` and `PC`
written by the fetch, and then the tick. -/
def RunsOneWord (op : Word) (i : Instr) : Prop :=
  ∀ s : State, AtOpcode s op → step s = finish (exec i (fetched s op))

/-- The step of a two-word instruction with opcode word `op` (R76, R78, R77): its operand is the word at
`p + 1`, read with the checks of every read, before anything else the instruction does. -/
def RunsTwoWord (op : Word) (i : Word → Instr) : Prop :=
  ∀ s : State, AtOpcode s op →
    (Accessible s (s.pc + 1) →
      step s = finish (exec (i (wordAt s (s.pc + 1))) ((fetched s op).setPc (s.pc + 2)))) ∧
    (Protected s (s.pc + 1) → FaultsWith (fetched s op) (step s) (.accessViolation (s.pc + 1) .read (s.pc + 1))) ∧
    (OutOfRange s (s.pc + 1) → FaultsWith (fetched s op) (step s) (.addressRange (s.pc + 1) .read (s.pc + 1)))

/-- The instruction `i` loads `AC` from the address `a` and does nothing else (R84, R86): its four cases on a
channel at rest. -/
def LoadsFrom (i : Instr) (a : State → Word) : Prop :=
  ∀ s : State, Linked s →
    (Accessible s (a s) → exec i s = .next (s.setAc (wordAt s (a s)))) ∧
    (Protected s (a s) → FaultsWith s (exec i s) (.accessViolation (a s) .read s.pc)) ∧
    (a s = Config.sentinel → exec i s = .next ((s.setMemUnit .stopped).setCpu .stuck)) ∧
    (OutOfRange s (a s) → a s ≠ Config.sentinel → FaultsWith s (exec i s) (.addressRange (a s) .read s.pc))

/-- Two memories alike at every address below `base`. -/
def AlikeBelow (base : Nat) (m n : Memory) : Prop :=
  ∀ a : Nat, a < base → Memory.read m a = Memory.read n a

/-- Posted writes with the same messages, in memories alike below `base`. -/
def PostsAlike (base : Nat) : List PostedWrite → List PostedWrite → Prop :=
  List.Forall₂ fun p q => p.message = q.message ∧ AlikeBelow base p.before q.before

/-- The indexes at which the lines of an image place their words, from write index `index` on (R63). -/
def wordIndexes : List (List Char) → Nat → List Nat
  | [], _ => []
  | line :: lines, index =>
    match parseLine line with
    | .setIndex n => wordIndexes lines n
    | .word _ => index :: wordIndexes lines (index + 1)
    | .ignored => wordIndexes lines index
    | .unparsed => wordIndexes lines index

/-- The opcode of an instruction (R70). -/
def opcodeOf (i : Instr) : Word := (encode i).headD 0

/-- The states of the interrupt state machine (R125). -/
inductive InterruptState where
  | user
  | kernel
  | kernelPending
  | userPending
  deriving DecidableEq, Repr

/-- The state of the interrupt state machine, read off `kernel` and `timerElapsed` (R125). -/
def interruptState (s : State) : InterruptState :=
  match s.kernel, s.timerElapsed with
  | false, false => .user
  | true, false => .kernel
  | true, true => .kernelPending
  | false, true => .userPending

/-- A run that ended well (R155): the CPU halted, the memory unit stopped, every message taken. (On a channel that
fails, a message whose receive failed counts as taken, log 27.) -/
abbrev EndedWell (s : State) : Prop :=
  s.cpu = .halted ∧ s.memUnit = .stopped ∧ s.requests = []

/-- A memory in canonical form that names only addresses of the array (R39). -/
abbrev Memory.Ok (p : Params) (m : Memory) : Prop :=
  m.wf ∧ ∀ c ∈ m, c.1 < p.memWords

/-- The array, and what it was before each posted write, are such memories, and the posted writes account for
the array. -/
abbrev MemoryOk (s : State) : Prop :=
  Memory.Ok s.params s.mem ∧ (∀ p ∈ s.posted, Memory.Ok s.params p.before) ∧ PostsLeadTo s.mem s.posted

/-- The timer between steps (R135), its period being one of R11 (d). -/
abbrev TimerOk (s : State) : Prop :=
  TimerPeriodOk s.timerLimit.toInt ∧ 0 ≤ s.timerCount.toInt ∧ s.timerCount.toInt ≤ s.timerLimit.toInt

/-- The invariant of the machine: R11, R39 (with the posted writes, R59), R135 and, while the CPU runs, the
channel at rest (R56), with a serving memory unit when the channel is reliable (R58). -/
abbrev Inv (s : State) : Prop :=
  s.params.WellFormed ∧ MemoryOk s ∧ TimerOk s ∧
    (s.cpu = .running → AtRest s ∧ (s.params.channelFails = false → s.memUnit = .serving))

end Sys2Proof.Machine
end

