-- ==== Sys2Proof/Certificates/Slice0/Obligations.lean ====
section
/-! DEFINITION. The statements for the provers, from the numbered rules of the spec. -/

open Sys2Proof Sys2Proof.Machine

/-! ### Encoding (spec/30_encoding.md) -/

/-- R70: every opcode of the map decodes to its instruction, with its format and its operand. -/
def Obligations.OpcodeMapDecodes : Prop :=
  ∀ (v : Word) (rest : List Word),
    decodeWords (1 :: v :: rest) = .ok (.loadValue v, rest) ∧
    decodeWords (2 :: v :: rest) = .ok (.loadAddr v, rest) ∧
    decodeWords (3 :: v :: rest) = .ok (.loadInd v, rest) ∧
    decodeWords (4 :: v :: rest) = .ok (.loadIdxX v, rest) ∧
    decodeWords (5 :: v :: rest) = .ok (.loadIdxY v, rest) ∧
    decodeWords (6 :: rest) = .ok (.loadSpX, rest) ∧
    decodeWords (7 :: v :: rest) = .ok (.store v, rest) ∧
    decodeWords (8 :: rest) = .ok (.get, rest) ∧
    decodeWords (9 :: v :: rest) = .ok (.put v, rest) ∧
    decodeWords (10 :: rest) = .ok (.addX, rest) ∧
    decodeWords (11 :: rest) = .ok (.addY, rest) ∧
    decodeWords (12 :: rest) = .ok (.subX, rest) ∧
    decodeWords (13 :: rest) = .ok (.subY, rest) ∧
    decodeWords (14 :: rest) = .ok (.copyToX, rest) ∧
    decodeWords (15 :: rest) = .ok (.copyFromX, rest) ∧
    decodeWords (16 :: rest) = .ok (.copyToY, rest) ∧
    decodeWords (17 :: rest) = .ok (.copyFromY, rest) ∧
    decodeWords (18 :: rest) = .ok (.copyToSp, rest) ∧
    decodeWords (19 :: rest) = .ok (.copyFromSp, rest) ∧
    decodeWords (20 :: v :: rest) = .ok (.jump v, rest) ∧
    decodeWords (21 :: v :: rest) = .ok (.jumpIfEqual v, rest) ∧
    decodeWords (22 :: v :: rest) = .ok (.jumpIfNotEqual v, rest) ∧
    decodeWords (23 :: v :: rest) = .ok (.call v, rest) ∧
    decodeWords (24 :: rest) = .ok (.ret, rest) ∧
    decodeWords (25 :: rest) = .ok (.incX, rest) ∧
    decodeWords (26 :: rest) = .ok (.decX, rest) ∧
    decodeWords (27 :: rest) = .ok (.push, rest) ∧
    decodeWords (28 :: rest) = .ok (.pop, rest) ∧
    decodeWords (29 :: rest) = .ok (.softwareInterrupt, rest) ∧
    decodeWords (30 :: rest) = .ok (.returnFromInterrupt, rest) ∧
    decodeWords (50 :: rest) = .ok (.terminate, rest)

/-- A few words written out bit by bit from R67 and R70. The layout of a table word is the model's choice, log
23: bits 31..0 are the first word, bits 63..32 the operand word, and missing bits are zero, so that the 32 bits
of opcode 9 alone stand for `Put 0`. -/
def Obligations.SpecWordsDecode : Prop :=
  decodeTableWord 64 0x0000000500000001 = some (.loadValue 5) ∧
  decodeTableWord 64 0xFFFFFFFD00000007 = some (.store (BitVec.ofInt 32 (-3))) ∧
  decodeTableWord 64 0x0000000100000009 = some (.put 1) ∧
  decodeTableWord 64 0x0000000700000014 = some (.jump 7) ∧
  decodeTableWord 32 0x00000009 = some (.put 0) ∧
  decodeTableWord 32 0x0000000C = some .subX ∧
  decodeTableWord 32 0x0000001E = some .returnFromInterrupt ∧
  decodeTableWord 32 0x00000032 = some .terminate ∧
  decodeTableWord 32 0x00000000 = none ∧
  decodeTableWord 32 0x8000001E = none

/-- R69, which the spec marks derived from its opcode table: the opcode alone decides the length, for listed
and unlisted opcodes alike. -/
def Obligations.OpcodeAloneDecidesLength : Prop :=
  (∀ op : Word, isTwoWord op = true ↔ op ∈ ([1, 2, 3, 4, 5, 7, 9, 20, 21, 22, 23] : List Word)) ∧
  (∀ (op : Word) (ws rest : List Word) (i : Instr), decodeWords (op :: ws) = .ok (i, rest) →
    ws.length = rest.length + if isTwoWord op then 1 else 0) ∧
  (∀ s t : State, ∀ d, isTwoWord s.ir = false → decodeIr s = .ok d t → t = s)

/-- Decoding what was encoded gives the instruction back, with every operand, and leaves the words after it.
-/
def Obligations.DecodeOfEncode : Prop :=
  ∀ (i : Instr) (rest : List Word), i.wellFormed = true → decodeWords (encode i ++ rest) = .ok (i, rest)

/-- Each instruction has one encoding: words that decode to it are its encoding. -/
def Obligations.EncodeOfDecode : Prop :=
  ∀ (ws rest : List Word) (i : Instr), decodeWords ws = .ok (i, rest) → ws = encode i ++ rest

/-- R71, R122: which words are unlisted, and that an unlisted opcode is a one-word no-op. -/
def Obligations.UnlistedOpcodeIsNoOp : Prop :=
  (∀ op v : Word, decodeInstr op v = none ↔
    op.toInt ≤ 0 ∨ (31 ≤ op.toInt ∧ op.toInt ≤ 49) ∨ 50 < op.toInt) ∧
  (∀ (s : State) (op : Word), decodeInstr op 0 = none → AtOpcode s op →
    step s = .next ((fetched s op).setTimerCount (s.timerCount - 1)))

/-! ### The cycle (spec/40_cycle.md) -/

/-- A step runs the instruction whose words stand at `PC`: `exec` of it with `IR` the opcode word and `PC`
past its words, and then the tick that `finish` adds; a CPU that the instruction left stuck has not reached
the tick (log 11). -/
def Obligations.StepRunsDecodedInstruction : Prop :=
  (∀ (s : State) (i : Instr) (op : Word), i.wellFormed = true → encode i = [op] → AtOpcode s op →
    step s = finish (exec i (fetched s op))) ∧
  (∀ (s : State) (i : Instr) (op v : Word), i.wellFormed = true → encode i = [op, v] → AtOpcode s op →
    Accessible s (s.pc + 1) → wordAt s (s.pc + 1) = v →
    step s = finish (exec i ((fetched s op).setPc (s.pc + 2)))) ∧
  (∀ t : State, t.cpu ≠ .stuck → finish (.next t) = .next (t.setTimerCount (t.timerCount - 1))) ∧
  (∀ t : State, t.cpu = .stuck → finish (.next t) = .next t) ∧
  (∀ f : Fault, finish (.fault f) = .fault f)

/-- R76: the three parts of a fetch, in order. The last clause, an opcode read out of range, is not R76's: it
rests on R48 and R49, the spec's own decision D13 (log 21). -/
def Obligations.FetchSequence : Prop :=
  -- step 1: an expired countdown is reloaded and sets `timerElapsed`
  (∀ s : State, TimerPeriodOk s.timerLimit.toInt → s.timerCount.toInt ≤ 0 →
    fetch s = fetch ((s.setTimerCount s.timerLimit).setTimerElapsed true)) ∧
  -- step 2: a set `timerElapsed` invokes the interrupt sequence
  (∀ s t : State, 0 < s.timerCount.toInt → s.timerElapsed = true → interrupt .timer s = .ok () t →
    fetch s = readOpcode t) ∧
  (∀ s t : State, ∀ f, 0 < s.timerCount.toInt → s.timerElapsed = true → interrupt .timer s = .fault f t →
    fetch s = .fault f t) ∧
  -- with neither, step 3 alone
  (∀ s : State, 0 < s.timerCount.toInt → s.timerElapsed = false → fetch s = readOpcode s) ∧
  -- step 3: the word at `PC` goes to `IR`, and `PC` is incremented
  (∀ s : State, Linked s → Accessible s s.pc →
    readOpcode s = .ok () (fetched s (wordAt s s.pc))) ∧
  -- a fault of that read leaves `PC`
  (∀ s t : State, ∀ f, readOpcode s = .fault f t → AccessFault s s.pc .read f ∧ t.pc = s.pc) ∧
  (∀ s : State, Protected s s.pc → ∃ t, readOpcode s = .fault (.accessViolation s.pc .read s.pc) t) ∧
  (∀ s : State, OutOfRange s s.pc → s.pc ≠ Config.sentinel →
    ∃ t, readOpcode s = .fault (.addressRange s.pc .read s.pc) t)

/-- R78: `getArgument` reads the word at `PC` with the checks of every read, and advances `PC` only if the
read goes on. -/
def Obligations.OperandRead : Prop :=
  (∀ s : State, Linked s → Accessible s s.pc → getArgument s = .ok (wordAt s s.pc) (s.setPc (s.pc + 1))) ∧
  (∀ s : State, Protected s s.pc → ∃ t, getArgument s = .fault (.accessViolation s.pc .read s.pc) t) ∧
  (∀ s t : State, ∀ f, getArgument s = .fault f t → AccessFault s s.pc .read f ∧ t.pc = s.pc)

/-- R28: a completed instruction ticks the countdown once, whatever the mode and the opcode, after the
fetch's reload, and the period never changes. (A CPU that the step leaves stuck has completed no
instruction.) No instruction writes the countdown itself. -/
def Obligations.CompletedInstructionTicks : Prop :=
  (∀ s t : State, step s = .next t → t.cpu ≠ .stuck →
    t.timerLimit = s.timerLimit ∧
    t.timerCount = (if s.timerCount.toInt ≤ 0 then s.timerLimit else s.timerCount) - 1) ∧
  (∀ (i : Instr) (s t : State), exec i s = .next t → t.timerCount = s.timerCount)

/-- R135, which the spec marks derived: the countdown starts at the period, stays in `0 .. timerLimit - 1`
at every later fetch, and the reload fires exactly when it is 0. -/
def Obligations.CountdownStaysInRange : Prop :=
  (∀ (l : Launch) (s : State), launch l = .next s → s.timerCount = s.timerLimit ∧ TimerOk s) ∧
  (∀ s t : State, TimerOk s → step s = .next t → t.cpu ≠ .stuck →
    TimerOk t ∧ t.timerCount.toInt ≤ t.timerLimit.toInt - 1) ∧
  (∀ s : State, TimerOk s → (timerExpired s = true ↔ s.timerCount = 0))

/-! ### The interface controller, the channel and the memory unit (spec/20_memory.md) -/

/-- R49, whose range check is the spec's own decision D13: `MemRead`, with its checks in order. A refused
read sends nothing: the abandoned state has the memory unit and the channel as they were. -/
def Obligations.MemoryRead : Prop :=
  ∀ (s : State) (a : Word),
    (Protected s a → memRead a s = .fault (.accessViolation a .read s.pc)
      (s.setCpu (.faulted (.accessViolation a .read s.pc)))) ∧
    (Linked s → a = Config.sentinel → memRead a s = .stuck ((s.setMemUnit .stopped).setCpu .stuck)) ∧
    (OutOfRange s a → a ≠ Config.sentinel → memRead a s = .fault (.addressRange a .read s.pc)
      (s.setCpu (.faulted (.addressRange a .read s.pc)))) ∧
    (Linked s → Accessible s a → memRead a s = .ok (wordAt s a) s) ∧
    (∀ f t, memRead a s = .fault f t → AccessFault s a .read f ∧ t.cpu = .faulted f)

/-- R50, whose range check is the spec's own decision D13: `MemWrite`, with its checks in order; a write
never blocks. -/
def Obligations.MemoryWrite : Prop :=
  ∀ (s : State) (a v : Word),
    (Protected s a → memWrite a v s = .fault (.accessViolation a .write s.pc)
      (s.setCpu (.faulted (.accessViolation a .write s.pc)))) ∧
    (OutOfRange s a → memWrite a v s = .fault (.addressRange a .write s.pc)
      (s.setCpu (.faulted (.addressRange a .write s.pc)))) ∧
    (Linked s → Accessible s a → memWrite a v s = .ok () (stored a v s)) ∧
    (∀ t, memWrite a v s ≠ .stuck t) ∧
    (∀ f t, memWrite a v s = .fault f t → AccessFault s a .write f ∧ t.cpu = .faulted f)

/-- R52, which the spec marks derived: a read of -1 stops the memory unit and leaves the CPU stuck, wherever
the address came from. -/
def Obligations.SentinelReadSticks : Prop :=
  ∀ s : State, Linked s →
    memRead Config.sentinel s = .stuck ((s.setMemUnit .stopped).setCpu .stuck) ∧
    (∀ n : Word, n + s.x = Config.sentinel →
      exec (.loadIdxX n) s = .next ((s.setMemUnit .stopped).setCpu .stuck)) ∧
    (s.sp + s.x = Config.sentinel → exec .loadSpX s = .next ((s.setMemUnit .stopped).setCpu .stuck)) ∧
    (s.sp = Config.sentinel → exec .pop s = .next ((s.setMemUnit .stopped).setCpu .stuck)) ∧
    (s.pc = Config.sentinel → s.cpu = .running → NoTimerEvent s →
      step s = .next ((s.setMemUnit .stopped).setCpu .stuck))

/-- R55: what the memory unit does with each message it takes. -/
def Obligations.MemoryUnitServes : Prop :=
  ∀ s : State,
    (s.params.channelFails = false →
      handleRequest [Config.sentinel] s = s.setMemUnit .stopped ∧
      (∀ a : Word, 0 ≤ a.toInt → a.toInt < s.params.memWords →
        handleRequest [a] s = s.setResponses (s.responses ++ [wordAt s a]) ∧
        ∀ v : Word, handleRequest [a, v] s = stored a v s) ∧
      (∀ m : Message, m.length ≠ 1 → m.length ≠ 2 → handleRequest m s = s.setMemUnit .stopped)) ∧
    (∀ m : Message, (handleRequest m s).memUnit = s.memUnit ∨ (handleRequest m s).memUnit = .stopped)

/-- R58, R62, which the spec marks derived: a read returns the word of the latest write to its address,
every other address keeps its word, and a stored word is what the next fetch of its address reads. -/
def Obligations.ReadsSeeLatestWrite : Prop :=
  ∀ (s : State) (a v : Word), Linked s → s.mem.wf → Accessible s a →
    ∃ t, memWrite a v s = .ok () t ∧ Linked t ∧ memRead a t = .ok v t ∧
      (∀ b : Word, b ≠ a → Accessible s b → memRead b t = .ok (wordAt s b) t) ∧
      (∀ n : Nat, n ≠ a.toNat → Memory.read t.mem n = Memory.read s.mem n) ∧
      readOpcode (t.setPc a) = .ok () (fetched (t.setPc a) v)

/-- R57, R59, R144 and R145 (the spec's own decision D15 and what it derives from it; how many messages in flight
the memory unit took is a free value, log 28, and so are the register values, log 10; that a response whose
receive fails is lost is the model's choice, log 27): a step that faults leaves the messages in flight in the
channel, a read whose answer was not received behind the posted writes, and sends nothing for a refused fetch.
The host can stop the memory unit of the state it leaves, or of any other: the unit has then taken a prefix of
those messages, `Mem` is what the writes in it leave, and the rest stays in the channel. A read sent to a
stopped memory unit leaves the CPU stuck. -/
def Obligations.HostStopKeepsAPrefix : Prop :=
  (∀ (s t : State) (r : FaultReport), step s = .fault (.raised r t) →
    t.cpu = .faulted r ∧ t.output = s.output ∧ t.params = s.params ∧ (MemoryOk s → MemoryOk t) ∧
    (Linked s → Linked t) ∧ (AtRest s → OnlyInFlight r t)) ∧
  (∀ s : State, s.cpu = .running → NoTimerEvent s → Protected s s.pc →
    FaultsWith s (step s) (.accessViolation s.pc .read s.pc)) ∧
  (∀ t : State, MemoryOk t → t.memUnit = .serving →
    applyWrites (memBeforePosts t) t.posted = t.mem ∧
    ∃ k : Nat, k ≤ (inFlight t).length ∧
      (hostStopsUnit t).mem = applyWrites (memBeforePosts t) (t.posted.take k) ∧
      (hostStopsUnit t).requests = (inFlight t).drop k ++ t.requests ∧
      (hostStopsUnit t).responses = t.responses ∧
      (hostStopsUnit t).memUnit = .stopped ∧ (hostStopsUnit t).cpu = t.cpu ∧ MemoryOk (hostStopsUnit t)) ∧
  (∀ (s : State) (a : Word), Linked s → Accessible s a →
    ∃ t, memRead a (hostStopsUnit s) = .stuck t ∧ t.cpu = .stuck ∧ t.mem = (hostStopsUnit s).mem)

/-- The canonical form of the memory (the model's own, log 1): writes keep it, and two memories in it that
read alike are equal. -/
def Obligations.MemoryIsCanonical : Prop :=
  (∀ (m : Memory) (a : Nat) (v : Word), m.wf → (Memory.write m a v).wf ∧ Memory.read (Memory.write m a v) a = v) ∧
  (∀ m n : Memory, m.wf → n.wf → (∀ a, Memory.read m a = Memory.read n a) → m = n)

/-! ### Loads and the store (spec/41_load_store.md) -/

/-- R85. -/
def Obligations.LoadValueLoadsOperand : Prop :=
  RunsTwoWord 1 .loadValue ∧ ∀ (s : State) (n : Word), exec (.loadValue n) s = .next (s.setAc n)

/-- R86. -/
def Obligations.LoadAddrLoadsWord : Prop :=
  RunsTwoWord 2 .loadAddr ∧ ∀ n : Word, LoadsFrom (.loadAddr n) (fun _ => n)

/-- R87: the pointer read and the data read, each checked on its own, in order. -/
def Obligations.LoadIndLoadsThroughPointer : Prop :=
  RunsTwoWord 3 .loadInd ∧
  ∀ (s : State) (n : Word), Linked s →
    (Accessible s n → Accessible s (wordAt s n) →
      exec (.loadInd n) s = .next (s.setAc (wordAt s (wordAt s n)))) ∧
    (Accessible s n → Protected s (wordAt s n) →
      FaultsWith s (exec (.loadInd n) s) (.accessViolation (wordAt s n) .read s.pc)) ∧
    (Accessible s n → wordAt s n = Config.sentinel →
      exec (.loadInd n) s = .next ((s.setMemUnit .stopped).setCpu .stuck)) ∧
    (Accessible s n → OutOfRange s (wordAt s n) → wordAt s n ≠ Config.sentinel →
      FaultsWith s (exec (.loadInd n) s) (.addressRange (wordAt s n) .read s.pc)) ∧
    (Protected s n → FaultsWith s (exec (.loadInd n) s) (.accessViolation n .read s.pc)) ∧
    (n = Config.sentinel → exec (.loadInd n) s = .next ((s.setMemUnit .stopped).setCpu .stuck)) ∧
    (OutOfRange s n → n ≠ Config.sentinel → FaultsWith s (exec (.loadInd n) s) (.addressRange n .read s.pc))

/-- R88, R89. -/
def Obligations.IndexedLoadsLoadWord : Prop :=
  RunsTwoWord 4 .loadIdxX ∧ RunsTwoWord 5 .loadIdxY ∧
  ∀ n : Word, LoadsFrom (.loadIdxX n) (fun s => n + s.x) ∧ LoadsFrom (.loadIdxY n) (fun s => n + s.y)

/-- R90. -/
def Obligations.LoadSpXLoadsWord : Prop :=
  RunsOneWord 6 .loadSpX ∧ LoadsFrom .loadSpX (fun s => s.sp + s.x)

/-- R91. -/
def Obligations.StoreStoresAc : Prop :=
  RunsTwoWord 7 .store ∧
  ∀ (s : State) (n : Word),
    (Linked s → Accessible s n → exec (.store n) s = .next (stored n s.ac s)) ∧
    (Protected s n → FaultsWith s (exec (.store n) s) (.accessViolation n .write s.pc)) ∧
    (OutOfRange s n → FaultsWith s (exec (.store n) s) (.addressRange n .write s.pc))

/-! ### Input and output (spec/42_io.md) -/

/-- R94, R93: `AC` is some integer in 1..100, nothing else of the machine changes (`draws` is the model's
own count of free values, log 14, and is not the spec's), and nothing faults. -/
def Obligations.GetDrawsInRange : Prop :=
  RunsOneWord 8 .get ∧
  ∀ s : State, ∃ r d : Nat, 1 ≤ r ∧ r ≤ 100 ∧
    exec .get s = .next ((s.setAc (BitVec.ofNat 32 r)).setDraws d)

/-- R95, with the events of R92, which are the spec's own decision D18: ports 1, 2 and every other. -/
def Obligations.PutEmitsEvent : Prop :=
  RunsTwoWord 9 .put ∧
  ∀ s : State,
    exec (.put 1) s = .next (s.setOutput (s.output ++ [.int s.ac])) ∧
    (∃ b : BitVec 8, b.toNat = s.ac.toNat % 256 ∧
      exec (.put 2) s = .next (s.setOutput (s.output ++ [.char b]))) ∧
    (∀ q : Word, q ≠ 1 → q ≠ 2 → exec (.put q) s = .next (s.setOutput (s.output ++ [.invalidPort q])))

/-- R92, the spec's own decision D18: `Int(v)` prints in signed decimal with no leading zeros, and the
printed events follow one another in program order with nothing between them. -/
def Obligations.IntEventPrintsDecimal : Prop :=
  (∀ v : Word, ∃ ds : List Char, ds ≠ [] ∧ (∀ c ∈ ds, 48 ≤ c.toNat ∧ c.toNat ≤ 57) ∧
    (ds.head? = some '0' → ds = ['0']) ∧ readDigits ds 0 = v.toInt.natAbs ∧
    signedDecimal v = if v.toInt < 0 then '-' :: ds else ds) ∧
  (∀ (character : BitVec 8 → List Char) (notice : Word → List Char) (es fs : List OutEvent),
    printOutput character notice (es ++ fs) =
      printOutput character notice es ++ printOutput character notice fs) ∧
  (∀ (character : BitVec 8 → List Char) (notice : Word → List Char) (v : Word),
    printOutput character notice [.int v] = signedDecimal v)

/-! ### Arithmetic and transfers (spec/43_arith_transfer.md) -/

/-- R96 to R102: sums and differences wrap modulo `2^32`, read again as signed words (the width and the wrap
are the spec's own decision D2, log 7); nothing else changes and nothing faults. -/
def Obligations.ArithmeticWraps : Prop :=
  RunsOneWord 10 .addX ∧ RunsOneWord 11 .addY ∧ RunsOneWord 12 .subX ∧ RunsOneWord 13 .subY ∧
  RunsOneWord 25 .incX ∧ RunsOneWord 26 .decX ∧
  ∀ s : State,
    (∃ v : Word, v.toInt = (s.ac.toInt + s.x.toInt).bmod (2 ^ 32) ∧ exec .addX s = .next (s.setAc v)) ∧
    (∃ v : Word, v.toInt = (s.ac.toInt + s.y.toInt).bmod (2 ^ 32) ∧ exec .addY s = .next (s.setAc v)) ∧
    (∃ v : Word, v.toInt = (s.ac.toInt - s.x.toInt).bmod (2 ^ 32) ∧ exec .subX s = .next (s.setAc v)) ∧
    (∃ v : Word, v.toInt = (s.ac.toInt - s.y.toInt).bmod (2 ^ 32) ∧ exec .subY s = .next (s.setAc v)) ∧
    (∃ v : Word, v.toInt = (s.x.toInt + 1).bmod (2 ^ 32) ∧ exec .incX s = .next (s.setX v)) ∧
    (∃ v : Word, v.toInt = (s.x.toInt - 1).bmod (2 ^ 32) ∧ exec .decX s = .next (s.setX v))

/-- R104 to R109, whose direction the spec derives from the names (R103, log 20): CopyTo copies `AC` into
the register, CopyFrom the register into `AC`, unchecked. -/
def Obligations.TransfersCopy : Prop :=
  RunsOneWord 14 .copyToX ∧ RunsOneWord 15 .copyFromX ∧ RunsOneWord 16 .copyToY ∧
  RunsOneWord 17 .copyFromY ∧ RunsOneWord 18 .copyToSp ∧ RunsOneWord 19 .copyFromSp ∧
  ∀ s : State,
    exec .copyToX s = .next (s.setX s.ac) ∧ exec .copyFromX s = .next (s.setAc s.x) ∧
    exec .copyToY s = .next (s.setY s.ac) ∧ exec .copyFromY s = .next (s.setAc s.y) ∧
    exec .copyToSp s = .next (s.setSp s.ac) ∧ exec .copyFromSp s = .next (s.setAc s.sp)

/-! ### Control transfer and the stack (spec/44_control_stack.md) -/

/-- R111 to R113: the operand is read whether or not the branch is taken, and only the word 0 is equal. -/
def Obligations.JumpsSetPc : Prop :=
  RunsTwoWord 20 .jump ∧ RunsTwoWord 21 .jumpIfEqual ∧ RunsTwoWord 22 .jumpIfNotEqual ∧
  ∀ (s : State) (t : Word),
    exec (.jump t) s = .next (s.setPc t) ∧
    (s.ac.toInt = 0 → exec (.jumpIfEqual t) s = .next (s.setPc t) ∧ exec (.jumpIfNotEqual t) s = .next s) ∧
    (s.ac.toInt ≠ 0 → exec (.jumpIfEqual t) s = .next s ∧ exec (.jumpIfNotEqual t) s = .next (s.setPc t))

/-- R114, whose order of operand read and push is the spec's own decision D14: the pushed word is `PC` after
the operand read, `p + 2`. -/
def Obligations.CallPushesReturnAddress : Prop :=
  RunsTwoWord 23 .call ∧
  ∀ (s : State) (t : Word),
    (Linked s → Accessible s (s.sp - 1) → exec (.call t) s =
      .next ((stored (s.sp - 1) s.pc (s.setSp (s.sp - 1))).setPc t)) ∧
    (Protected s (s.sp - 1) → FaultsWith s (exec (.call t) s) (.accessViolation (s.sp - 1) .write s.pc)) ∧
    (OutOfRange s (s.sp - 1) → FaultsWith s (exec (.call t) s) (.addressRange (s.sp - 1) .write s.pc))

/-- R115: whatever word is on top of the stack is where it goes, and the mode is left alone. -/
def Obligations.RetPopsPc : Prop :=
  RunsOneWord 24 .ret ∧
  ∀ s : State, Linked s →
    (Accessible s s.sp → exec .ret s = .next ((s.setSp (s.sp + 1)).setPc (wordAt s s.sp))) ∧
    (Protected s s.sp → FaultsWith s (exec .ret s) (.accessViolation s.sp .read s.pc)) ∧
    (s.sp = Config.sentinel → exec .ret s = .next ((s.setMemUnit .stopped).setCpu .stuck)) ∧
    (OutOfRange s s.sp → s.sp ≠ Config.sentinel → FaultsWith s (exec .ret s) (.addressRange s.sp .read s.pc))

/-- R116, R79: decrement, then write. -/
def Obligations.PushWritesBelowSp : Prop :=
  RunsOneWord 27 .push ∧
  ∀ s : State,
    (Linked s → Accessible s (s.sp - 1) → exec .push s =
      .next (stored (s.sp - 1) s.ac (s.setSp (s.sp - 1)))) ∧
    (Protected s (s.sp - 1) → FaultsWith s (exec .push s) (.accessViolation (s.sp - 1) .write s.pc) ∧
      ∀ v, ∃ t, Sys2Proof.Machine.push v s = .fault (.accessViolation (s.sp - 1) .write s.pc) t ∧ t.sp = s.sp - 1) ∧
    (OutOfRange s (s.sp - 1) → FaultsWith s (exec .push s) (.addressRange (s.sp - 1) .write s.pc))

/-- R117, R80: read, then increment; a read that faults leaves `SP`. -/
def Obligations.PopReadsAtSp : Prop :=
  RunsOneWord 28 .pop ∧
  ∀ s : State,
    (Linked s → Accessible s s.sp → exec .pop s = .next ((s.setSp (s.sp + 1)).setAc (wordAt s s.sp))) ∧
    (Protected s s.sp → FaultsWith s (exec .pop s) (.accessViolation s.sp .read s.pc)) ∧
    (Linked s → s.sp = Config.sentinel → exec .pop s = .next ((s.setMemUnit .stopped).setCpu .stuck)) ∧
    (OutOfRange s s.sp → s.sp ≠ Config.sentinel → FaultsWith s (exec .pop s) (.addressRange s.sp .read s.pc)) ∧
    (∀ f t, Sys2Proof.Machine.pop s = .fault f t → t.sp = s.sp)

/-- R81, which the spec marks derived: a pop gives back what the push before it stored, with `SP` as before,
in every later state `h` that has the pushed `SP` and has not overwritten the stack word. -/
def Obligations.PushPopRoundTrip : Prop :=
  ∀ s : State, Linked s → s.mem.wf → Accessible s (s.sp - 1) →
    ∃ t, exec .push s = .next t ∧ t.ac = s.ac ∧
      ∀ h : State, Linked h → h.params = t.params → h.kernel = t.kernel → h.sp = t.sp →
        wordAt h h.sp = wordAt t t.sp →
        ∃ u, exec .pop h = .next u ∧ u.ac = s.ac ∧ u.sp = s.sp ∧ u.x = h.x ∧ u.y = h.y ∧ u.pc = h.pc ∧
          u.kernel = h.kernel

/-- R114, R115: a Ret after a Call resumes just past the call's operand, with `SP` as before, in every later
state `h` that has the call's `SP` and has not overwritten the return address. -/
def Obligations.CallRetRoundTrip : Prop :=
  ∀ (s : State) (a : Word), Linked s → s.mem.wf → Accessible s (s.sp - 1) →
    ∃ t, exec (.call a) s = .next t ∧ t.pc = a ∧
      ∀ h : State, Linked h → h.params = t.params → h.kernel = t.kernel → h.sp = t.sp →
        wordAt h h.sp = wordAt t t.sp →
        ∃ u, exec .ret h = .next u ∧ u.pc = s.pc ∧ u.sp = s.sp ∧ u.ac = h.ac ∧ u.x = h.x ∧ u.y = h.y

/-! ### Interrupts and system instructions (spec/45_system.md, spec/60_exceptions.md) -/

/-- R124, R130: what the interrupt sequence saves and changes, for both causes, and that it does nothing in
kernel mode. -/
def Obligations.InterruptSequence : Prop :=
  ∀ (s : State) (cause : Cause),
    (s.kernel = true → interrupt cause s = .ok () s) ∧
    (s.kernel = false → Linked s → s.params.WellFormed → interrupt cause s = .ok ()
      (((stored (s.params.sysStackBase - 2) s.pc (stored (s.params.sysStackBase - 1) s.sp
        ((s.setKernel true).setSp (s.params.sysStackBase - 2)))).setPc
        (match cause with | .manual => s.params.syscallVec | .timer => s.params.timerVec)).setTimerElapsed
        (match cause with | .manual => s.timerElapsed | .timer => false)))

/-- R119. -/
def Obligations.SoftwareInterruptEnters : Prop :=
  RunsOneWord 29 .softwareInterrupt ∧
  ∀ s : State,
    (s.kernel = true → exec .softwareInterrupt s = .next s) ∧
    (s.kernel = false → Linked s → s.params.WellFormed → exec .softwareInterrupt s = .next
      ((stored (s.params.sysStackBase - 2) s.pc (stored (s.params.sysStackBase - 1) s.sp
        ((s.setKernel true).setSp (s.params.sysStackBase - 2)))).setPc s.params.syscallVec))

/-- R120: the two pops in order, each checked with `kernel` as it was, then `kernel` is cleared. -/
def Obligations.ReturnFromInterruptRestores : Prop :=
  RunsOneWord 30 .returnFromInterrupt ∧
  ∀ s : State, Linked s →
    (Accessible s s.sp → Accessible s (s.sp + 1) → exec .returnFromInterrupt s =
      .next (((s.setPc (wordAt s s.sp)).setSp (wordAt s (s.sp + 1))).setKernel false)) ∧
    (Protected s s.sp → FaultsWith s (exec .returnFromInterrupt s) (.accessViolation s.sp .read s.pc)) ∧
    (s.sp = Config.sentinel → exec .returnFromInterrupt s = .next ((s.setMemUnit .stopped).setCpu .stuck)) ∧
    (OutOfRange s s.sp → s.sp ≠ Config.sentinel →
      FaultsWith s (exec .returnFromInterrupt s) (.addressRange s.sp .read s.pc)) ∧
    (Accessible s s.sp → Protected s (s.sp + 1) →
      FaultsWith s (exec .returnFromInterrupt s) (.accessViolation (s.sp + 1) .read (wordAt s s.sp))) ∧
    (Accessible s s.sp → OutOfRange s (s.sp + 1) →
      FaultsWith s (exec .returnFromInterrupt s) (.addressRange (s.sp + 1) .read (wordAt s s.sp)))

/-- R131: opcode 30 undoes an interrupt entry, whatever a handler that keeps the system stack has done to
the other registers. -/
def Obligations.InterruptReturnRoundTrip : Prop :=
  ∀ (s : State) (cause : Cause), s.kernel = false → Linked s → s.params.WellFormed → s.mem.wf →
    ∃ t, interrupt cause s = .ok () t ∧ t.kernel = true ∧
      ∀ h : State, Linked h → h.kernel = true → h.sp = t.sp → h.mem = t.mem → h.params = t.params →
        ∃ u, exec .returnFromInterrupt h = .next u ∧ u.pc = s.pc ∧ u.sp = s.sp ∧ u.kernel = false ∧
          u.ac = h.ac ∧ u.x = h.x ∧ u.y = h.y ∧ u.timerElapsed = h.timerElapsed

/-- R121: the sentinel, no operand, no check; the run ends well (R155), in either mode. -/
def Obligations.TerminateEndsRun : Prop :=
  (∀ s : State, AtOpcode s 50 →
    step s = .next ((((fetched s 50).setMemUnit .stopped).setCpu .halted).setTimerCount (s.timerCount - 1))) ∧
  (∀ s : State, Linked s → ∃ t, exec .terminate s = .next t ∧ EndedWell t ∧ t.mem = s.mem) ∧
  (∀ (s : State) (f : Fault),
    (s.params.channelFails = true → ∀ t, f ≠ .raised (.channelWriteError [Config.sentinel]) t) →
    exec .terminate s ≠ .fault f)

/-- R76, R124, R130: a timer interrupt that is due or pending in user mode is taken before the next
instruction, which is the handler's first. -/
def Obligations.TimerInterruptIsTaken : Prop :=
  ∀ s : State, s.cpu = .running → Linked s → s.params.WellFormed → TimerPeriodOk s.timerLimit.toInt →
    TimerTaken s →
    step s = step ((stored (s.params.sysStackBase - 2) s.pc (stored (s.params.sysStackBase - 1) s.sp
      ((((s.setKernel true).setTimerElapsed false).setTimerCount
        (if s.timerCount.toInt ≤ 0 then s.timerLimit else s.timerCount)).setSp
          (s.params.sysStackBase - 2)))).setPc s.params.timerVec)

/-- R126, which the spec marks derived: a timer interrupt due in kernel mode is held, at most one is, a
software interrupt there is lost, and only entry into the timer handler clears a pending one. -/
def Obligations.PendingAndLostInterrupts : Prop :=
  (∀ s : State, s.cpu = .running → s.kernel = true → TimerPeriodOk s.timerLimit.toInt →
    s.timerCount.toInt ≤ 0 → step s = step ((s.setTimerCount s.timerLimit).setTimerElapsed true)) ∧
  (∀ s t : State, step s = .next t → s.kernel = true → s.timerElapsed = true → t.timerElapsed = true) ∧
  (∀ s : State, s.kernel = true → exec .softwareInterrupt s = .next s) ∧
  (∀ s t : State, step s = .next t → s.timerElapsed = true → t.timerElapsed = false → TimerTaken s) ∧
  (∀ s t : State, step s = .next t → s.kernel = true → s.timerElapsed = true → t.kernel = false → TimerTaken t)

/-- R136 for the shortest handler (`H = L = 1`): a timer handler that is one opcode 30 is entered again at
every step, and the interrupted program makes no progress. -/
def Obligations.TimerReentryMakesNoProgress : Prop :=
  ∀ (s : State) (k : Nat), s.cpu = .running → Linked s → s.params.WellFormed → MemoryOk s →
    s.kernel = false → s.timerLimit = 1 → s.timerCount = 0 →
    wordAt s s.params.timerVec = 30 → s.params.timerVec ≠ s.params.sysStackBase - 1 →
    s.params.timerVec ≠ s.params.sysStackBase - 2 →
    ∃ t, Sys2Proof.core.run k s = .next t ∧ t.cpu = .running ∧ t.kernel = false ∧ t.pc = s.pc ∧
      t.sp = s.sp ∧ t.ac = s.ac ∧ t.x = s.x ∧ t.y = s.y ∧ t.timerCount = 0 ∧ t.output = s.output

/-! ### Whole-machine rules -/

/-- R132, which the spec marks derived: a step sets `kernel` only by a timer entry or by opcode 29, and
clears it only by opcode 30. -/
def Obligations.KernelChangesOnlyByEntryAndReturn : Prop :=
  ∀ s t : State, step s = .next t →
    (s.kernel = false → t.kernel = true → TimerTaken s ∨ t.ir = 29) ∧
    (s.kernel = true → t.kernel = false → t.ir = 30)

/-- R125, which the spec marks derived: what a step makes of the interrupt state machine's pending bit. -/
def Obligations.PendingBitTransitions : Prop :=
  ∀ s t : State, step s = .next t →
    (interruptState s = .user → t.timerElapsed = false) ∧
    (interruptState s = .userPending → t.timerElapsed = false) ∧
    (interruptState s = .kernelPending → t.timerElapsed = true) ∧
    (interruptState s = .kernel → (t.timerElapsed = true ↔ s.timerCount.toInt ≤ 0))

/-- R138, R139, R140, R142, R144: each fault that a step raises has the cause the spec gives it, and the state
it leaves has the run state `faulted` with its report. -/
def Obligations.FaultsHaveTheirCause : Prop :=
  ∀ (s : State) (f : Fault), step s = .fault f → ∃ r t, f = .raised r t ∧ t.cpu = .faulted r ∧
    ((∃ a kind pc, r = .accessViolation a kind pc ∧ s.kernel = false ∧ ¬ TimerTaken s ∧
        (s.params.sysBase : Int) ≤ a.toInt) ∨
     (∃ a kind pc, r = .addressRange a kind pc ∧ (a.toInt < 0 ∨ (s.params.memWords : Int) ≤ a.toInt) ∧
        (kind = .read → a ≠ Config.sentinel)) ∨
     (s.params.channelFails = true ∧ ((∃ a, r = .channelReadError a) ∨ ∃ m, r = .channelWriteError m)))

/-- R19, R21, which the spec marks derived: the register file's column "written by". -/
def Obligations.RegistersWrittenByTheirOpcodes : Prop :=
  ∀ (i : Instr) (s t : State), exec i s = .next t →
    (t.ac ≠ s.ac → opcodeOf i ∈ ([1, 2, 3, 4, 5, 6, 8, 10, 11, 12, 13, 15, 17, 19, 28] : List Word)) ∧
    (t.x ≠ s.x → opcodeOf i ∈ ([14, 25, 26] : List Word)) ∧
    (t.y ≠ s.y → opcodeOf i = 16) ∧
    (t.sp ≠ s.sp → opcodeOf i ∈ ([18, 23, 24, 27, 28, 29, 30] : List Word)) ∧
    (t.pc ≠ s.pc → opcodeOf i ∈ ([20, 21, 22, 23, 24, 29, 30] : List Word)) ∧
    (t.kernel ≠ s.kernel → opcodeOf i ∈ ([29, 30] : List Word)) ∧
    (t.output ≠ s.output → opcodeOf i = 9) ∧
    t.ir = s.ir ∧ t.timerElapsed = s.timerElapsed ∧ t.timerLimit = s.timerLimit ∧
    t.timerCount = s.timerCount ∧ t.params = s.params

/-- The frame of the instructions that store nothing, where no earlier message waits in the channel: memory,
and every register but the destination `AC` (and `SP` of a pop, `PC` of a jump or a return). -/
def Obligations.NonStoringFrame : Prop :=
  ∀ (i : Instr) (s t : State), Quiet s → exec i s = .next t →
    opcodeOf i ∉ ([7, 23, 27, 29] : List Word) →
    (∀ a : Nat, Memory.read t.mem a = Memory.read s.mem a) ∧ t.ir = s.ir ∧
    t.timerElapsed = s.timerElapsed ∧ t.timerLimit = s.timerLimit ∧ t.timerCount = s.timerCount ∧
    t.params = s.params ∧
    (opcodeOf i ∈ ([1, 2, 3, 4, 5, 6, 8, 10, 11, 12, 13, 15, 17, 19] : List Word) →
      t.pc = s.pc ∧ t.sp = s.sp ∧ t.x = s.x ∧ t.y = s.y ∧ t.kernel = s.kernel ∧ t.output = s.output) ∧
    (opcodeOf i ∈ ([20, 21, 22] : List Word) →
      t.sp = s.sp ∧ t.ac = s.ac ∧ t.x = s.x ∧ t.y = s.y ∧ t.kernel = s.kernel ∧ t.output = s.output) ∧
    (opcodeOf i = 28 → t.pc = s.pc ∧ t.x = s.x ∧ t.y = s.y ∧ t.kernel = s.kernel ∧ t.output = s.output) ∧
    (opcodeOf i = 24 → t.ac = s.ac ∧ t.x = s.x ∧ t.y = s.y ∧ t.kernel = s.kernel ∧ t.output = s.output) ∧
    (opcodeOf i = 30 → t.ac = s.ac ∧ t.x = s.x ∧ t.y = s.y ∧ t.output = s.output)

/-- The frame of the instructions that store one word: `Store n` at `n`, `Call` and `Push` at `SP - 1`. -/
def Obligations.StoringFrame : Prop :=
  ∀ (i : Instr) (s t : State) (addr : Word), Quiet s → exec i s = .next t →
    ((∃ n, i = .store n ∧ addr = absoluteAddr n s) ∨ (∃ a, i = .call a ∧ addr = s.sp - 1) ∨
      (i = .push ∧ addr = s.sp - 1)) →
    (∀ a : Nat, a ≠ addr.toNat → Memory.read t.mem a = Memory.read s.mem a) ∧
    t.ac = s.ac ∧ t.x = s.x ∧ t.y = s.y ∧ t.ir = s.ir ∧ t.kernel = s.kernel ∧
    t.timerElapsed = s.timerElapsed ∧ t.timerLimit = s.timerLimit ∧ t.timerCount = s.timerCount ∧
    t.output = s.output ∧ t.params = s.params ∧
    ((∃ n, i = .store n) → t.sp = s.sp ∧ t.pc = s.pc) ∧ (i = .push → t.pc = s.pc ∧ t.sp = s.sp - 1)

/-- A step keeps the invariant of the machine. -/
def Obligations.StepKeepsInv : Prop :=
  ∀ s t : State, Inv s → step s = .next t → Inv t

/-- The state after reset has the invariant (its timer period is the model's choice, log 5). -/
def Obligations.ResetHasInv : Prop := Inv State.reset

/-- A launch that is not refused leaves a state with the invariant. -/
def Obligations.LaunchHasInv : Prop :=
  ∀ (l : Launch) (s : State), launch l = .next s → Inv s

/-- R46, R146 (which the spec marks derived): a user-mode step that neither takes an interrupt nor makes a
system call leaves system space. -/
def Obligations.UserStepLeavesSystemMemory : Prop :=
  ∀ s t : State, Quiet s → s.kernel = false → ¬ TimerTaken s → step s = .next t → t.kernel = false →
    ∀ a : Nat, s.params.sysBase ≤ a → Memory.read t.mem a = Memory.read s.mem a

/-- R46, R146: what a user-mode step that takes no timer interrupt does is independent of the words of system
space. Two machines that differ only there fault alike or go on, in both cases to states that differ only there
(and in the system words that the model keeps beside each posted write, log 28). -/
def Obligations.UserStepIgnoresSystemMemory : Prop :=
  ∀ (s : State) (m : Memory), s.kernel = false → Linked s → ¬ TimerTaken s → s.params.WellFormed →
    s.mem.wf → m.wf → AlikeBelow s.params.sysBase m s.mem →
    (∀ r t, step s = .fault (.raised r t) → ∃ n p, step (s.setMem m) = .fault (.raised r ((t.setMem n).setPosted p)) ∧
      AlikeBelow s.params.sysBase n t.mem ∧ PostsAlike s.params.sysBase p t.posted) ∧
    (∀ t, step s = .next t → ∃ n p, step (s.setMem m) = .next ((t.setMem n).setPosted p) ∧
      AlikeBelow s.params.sysBase n t.mem ∧ PostsAlike s.params.sysBase p t.posted)

/-- R75, R150: a CPU that is not running takes no step. (That `step` says so by a refusal is the model's own
form, log 12.) -/
def Obligations.StoppedCpuTakesNoStep : Prop :=
  ∀ s : State, s.cpu ≠ .running → step s = .refused .notRunning

/-! ### Launch and reset (spec/70_reset_and_hazards.md) -/

/-- R151, R38, R152: when a launch is refused, and the state it leaves otherwise. (In which order the
refusals are tested is the model's choice, log 26; the reset values are the spec's own decisions D7 to D11.)
-/
def Obligations.LaunchLeavesResetState : Prop :=
  ∀ l : Launch,
    (¬ l.params.WellFormed → launch l = .refused .badParameters) ∧
    (l.params.WellFormed → ¬ TimerPeriodOk l.timerLimit → launch l = .refused .badTimerPeriod) ∧
    (l.params.WellFormed → TimerPeriodOk l.timerLimit → l.image = none → launch l = .fault .programImageError) ∧
    (∀ lines, l.params.WellFormed → TimerPeriodOk l.timerLimit → l.image = some lines →
      loadLines l.params lines 0 (drawnMemory l.params l.cell) = none → launch l = .fault .programImageError) ∧
    (∀ lines m, l.params.WellFormed → TimerPeriodOk l.timerLimit → l.image = some lines →
      loadLines l.params lines 0 (drawnMemory l.params l.cell) = some m →
      ∃ s, launch l = .next s ∧ s.pc = l.params.pcReset ∧ s.sp = l.params.userSpReset ∧ s.ir = l.ir ∧
        s.ac = l.ac ∧ s.x = l.x ∧ s.y = l.y ∧ s.kernel = false ∧ s.timerElapsed = false ∧
        s.timerLimit.toInt = l.timerLimit ∧ s.timerCount = s.timerLimit ∧ s.cpu = .running ∧ s.mem = m ∧
        s.memUnit = .serving ∧ s.requests = [] ∧ s.responses = [] ∧ s.posted = [] ∧ s.unanswered = none ∧ s.output = [] ∧
        s.params = l.params ∧
        ∀ a : Nat, a < l.params.memWords → a ∉ wordIndexes lines 0 → Memory.read s.mem a = l.cell a)

/-- `State.reset` is a launch of an empty image with the parameters of R10. Of those, `SP` = 1000, both handler
addresses and `SYS_STACK_BASE` are PRESUMED, the spec's own general knowledge (D4 to D7, log 4); the draws and
the timer period are the model's choices (logs 2, 3, 5, 14). -/
def Obligations.ResetIsALaunch : Prop :=
  launch ⟨some [], 100, Params.reference, 0, 0, 0, 0, fun _ => 0⟩ = .next State.reset ∧
  State.reset.pc = 0 ∧ State.reset.sp = 1000 ∧ State.reset.kernel = false ∧ State.reset.timerElapsed = false ∧
  State.reset.timerCount = State.reset.timerLimit

/-- R63: a `.` line sets the write index, a digit line stores its number there and the index rises, the rest
of a line is ignored, and so is every other line. -/
def Obligations.ImageLinesPlaceWords : Prop :=
  ∀ (p : Params) (ds rest : List Char) (lines : List (List Char)) (index : Nat) (m : Memory),
    (∀ c ∈ ds, (digitValue c).isSome = true) → ds ≠ [] → (∀ c, rest.head? = some c → digitValue c = none) →
    loadLines p (('.' :: (ds ++ rest)) :: lines) index m = loadLines p lines (readDigits ds 0) m ∧
    (index < p.memWords → (readDigits ds 0 : Int) ≤ Word.maxInt →
      loadLines p ((ds ++ rest) :: lines) index m =
        loadLines p lines (index + 1) (Memory.write m index (BitVec.ofNat 32 (readDigits ds 0)))) ∧
    (p.memWords ≤ index → loadLines p ((ds ++ rest) :: lines) index m = none) ∧
    (rest.head? ≠ some '.' → loadLines p (rest :: lines) index m = loadLines p lines index m)

/-- R64, which the spec marks derived: no image places a negative word. (A number too large for a word is a
`ProgramImageError` by the model's choice, log 18.) -/
def Obligations.ImageHoldsNoNegativeWord : Prop :=
  ∀ (p : Params) (lines : List (List Char)) (index : Nat) (m n : Memory), m.wf →
    (∀ a, 0 ≤ (Memory.read m a).toInt) → loadLines p lines index m = some n →
    ∀ a, 0 ≤ (Memory.read n a).toInt
end

