-- ==== Sys2Proof/Laws/Memory.lean ====
section
/-! SUPPORT. The laws of the memory unit's array: reading what was written, the canonical form, and that
equal contents are equal data. -/

namespace Sys2Proof.Machine

theorem Memory.read_nil (a : Nat) : Memory.read [] a = Config.unlistedWord := rfl

theorem Memory.read_cons (k : Nat) (w : Word) (m : Memory) (a : Nat) :
    Memory.read ((k, w) :: m) a = if k = a then w else Memory.read m a := rfl

/-- An address below every listed one is unlisted. -/
theorem Memory.read_of_below {m : Memory} {a : Nat} (h : ∀ p ∈ m, a < p.1) :
    Memory.read m a = Config.unlistedWord := by
  induction m with
  | nil => rfl
  | cons p m ih =>
    have hp : a < p.1 := h p (by simp)
    rw [Memory.read_cons, if_neg (by omega)]
    exact ih fun q hq => h q (by simp [hq])

/-- A write at `a` leaves every other address. -/
theorem Memory.read_write_other {a b : Nat} (h : b ≠ a) (m : Memory) (v : Word) :
    Memory.read (Memory.write m a v) b = Memory.read m b := by
  induction m with
  | nil => simp only [Memory.write]; split <;> simp [Memory.read, h.symm]
  | cons p m ih =>
    obtain ⟨k, w⟩ := p
    simp only [Memory.write]
    split
    · split <;> simp [Memory.read, h.symm]
    · split
      · subst_vars; split <;> simp [Memory.read, h.symm]
      · simp [Memory.read, ih]

theorem Memory.wf_tail {p : Nat × Word} {m : Memory} (h : Memory.wf (p :: m)) : Memory.wf m :=
  ⟨(List.pairwise_cons.mp h.1).2, fun q hq => h.2 q (by simp [hq])⟩

/-- A read after a write to the same address gives the word written. -/
theorem Memory.read_write_same {m : Memory} (h : m.wf) (a : Nat) (v : Word) :
    Memory.read (Memory.write m a v) a = v := by
  induction m with
  | nil => simp only [Memory.write]; split <;> simp_all [Memory.read]
  | cons p m ih =>
    obtain ⟨k, w⟩ := p
    have hlt : ∀ q ∈ m, k < q.1 := (List.pairwise_cons.mp h.1).1
    simp only [Memory.write]
    split
    · split
      · rw [Memory.read_of_below, ‹v = _›]
        intro q hq
        rcases List.mem_cons.mp hq with rfl | hq
        · assumption
        · have := hlt q hq; omega
      · simp [Memory.read]
    · split
      · subst_vars
        split
        · rw [Memory.read_of_below hlt, ‹v = _›]
        · simp [Memory.read]
      · rw [Memory.read_cons, if_neg (by omega)]
        exact ih (Memory.wf_tail h)

/-- What a write lists: the address written, and addresses listed before. -/
theorem Memory.mem_write {m : Memory} {a : Nat} {v : Word} {p : Nat × Word}
    (h : p ∈ Memory.write m a v) : p = (a, v) ∧ v ≠ Config.unlistedWord ∨ p ∈ m := by
  induction m with
  | nil => simp only [Memory.write] at h; split at h <;> simp_all
  | cons q m ih =>
    obtain ⟨k, w⟩ := q
    simp only [Memory.write] at h
    split at h
    · split at h <;> simp_all
    · split at h
      · split at h
        · exact .inr (List.mem_cons_of_mem _ h)
        · rcases List.mem_cons.mp h with rfl | h
          · exact .inl ⟨by simp_all, ‹_›⟩
          · exact .inr (List.mem_cons_of_mem _ h)
      · rcases List.mem_cons.mp h with rfl | h
        · simp
        · rcases ih h with h | h <;> simp [h]

/-- A write keeps the canonical form. -/
theorem Memory.write_wf {m : Memory} (h : m.wf) (a : Nat) (v : Word) : (Memory.write m a v).wf := by
  refine ⟨?_, fun p hp => ?_⟩
  · induction m with
    | nil => simp only [Memory.write]; split <;> simp
    | cons q m ih =>
      obtain ⟨k, w⟩ := q
      have hlt : ∀ q ∈ m, k < q.1 := (List.pairwise_cons.mp h.1).1
      have hm : m.Pairwise (fun p q => p.1 < q.1) := (List.pairwise_cons.mp h.1).2
      simp only [Memory.write]
      split
      · split
        · exact h.1
        · refine List.pairwise_cons.mpr ⟨fun q hq => ?_, h.1⟩
          rcases List.mem_cons.mp hq with rfl | hq
          · assumption
          · have := hlt q hq; dsimp; omega
      · split
        · subst_vars
          split
          · exact hm
          · exact List.pairwise_cons.mpr ⟨hlt, hm⟩
        · refine List.pairwise_cons.mpr ⟨fun q hq => ?_, ih (Memory.wf_tail h)⟩
          rcases Memory.mem_write hq with ⟨rfl, -⟩ | hq
          · dsimp; omega
          · exact hlt q hq
  · rcases Memory.mem_write hp with ⟨rfl, hv⟩ | hp
    · exact hv
    · exact h.2 p hp

/-- A write at an address below `n` lists no address from `n` on. -/
theorem Memory.write_below {m : Memory} {n a : Nat} (h : ∀ p ∈ m, p.1 < n) (ha : a < n) (v : Word) :
    ∀ p ∈ Memory.write m a v, p.1 < n := by
  intro p hp
  rcases Memory.mem_write hp with ⟨rfl, -⟩ | hp
  · exact ha
  · exact h p hp

/-! ### Addresses -/

theorem toNat_of_nonneg {a : Word} (h : 0 ≤ a.toInt) : (a.toNat : Int) = a.toInt := by
  have := BitVec.toInt_eq_toNat_cond a
  have := a.isLt
  split at * <;> omega

theorem toNat_lt_of_toInt_lt {a : Word} {n : Nat} (h : 0 ≤ a.toInt) (hn : a.toInt < n) : a.toNat < n := by
  have := toNat_of_nonneg h; omega

theorem eq_of_toNat_of_nonneg {a b : Word} (h : a.toNat = b.toNat) : a = b := BitVec.eq_of_toNat_eq h

theorem sentinel_toInt : Config.sentinel.toInt = -1 := by decide

/-- Only the sentinel reads as -1. -/
theorem eq_sentinel_of_toInt {a : Word} (h : a.toInt = -1) : a = Config.sentinel :=
  BitVec.eq_of_toInt_eq (h.trans sentinel_toInt.symm)

theorem toInt_bounds (a : Word) : -2147483648 ≤ a.toInt ∧ a.toInt < 2147483648 :=
  ⟨BitVec.le_toInt a, BitVec.toInt_lt⟩

/-- Decrementing an address above the least signed word does not wrap. -/
theorem toInt_sub_one {a : Word} (h : -2147483648 < a.toInt) : (a - 1).toInt = a.toInt - 1 := by
  have hb := toInt_bounds a
  have h1 : (1 : Word).toInt = 1 := by decide
  rw [BitVec.toInt_sub, h1]
  exact Int.bmod_eq_of_le (by omega) (by omega)

/-- Incrementing an address below the greatest signed word does not wrap. -/
theorem toInt_add_one {a : Word} (h : a.toInt < 2147483647) : (a + 1).toInt = a.toInt + 1 := by
  have hb := toInt_bounds a
  have h1 : (1 : Word).toInt = 1 := by decide
  rw [BitVec.toInt_add, h1]
  exact Int.bmod_eq_of_le (by omega) (by omega)

end Sys2Proof.Machine
end

