-- ==== Sys2Proof/Laws/State.lean ====
section
/-! SUPPORT. One lemma per field per update of `State`: what an update reads back, and what it leaves. -/

namespace Sys2Proof.Machine.State

section setPc
variable (s : State) (v : Word)
@[simp] theorem setPc_pc : (s.setPc v).pc = v := rfl
@[simp] theorem setPc_sp : (s.setPc v).sp = s.sp := rfl
@[simp] theorem setPc_ir : (s.setPc v).ir = s.ir := rfl
@[simp] theorem setPc_ac : (s.setPc v).ac = s.ac := rfl
@[simp] theorem setPc_x : (s.setPc v).x = s.x := rfl
@[simp] theorem setPc_y : (s.setPc v).y = s.y := rfl
@[simp] theorem setPc_kernel : (s.setPc v).kernel = s.kernel := rfl
@[simp] theorem setPc_timerElapsed : (s.setPc v).timerElapsed = s.timerElapsed := rfl
@[simp] theorem setPc_timerLimit : (s.setPc v).timerLimit = s.timerLimit := rfl
@[simp] theorem setPc_timerCount : (s.setPc v).timerCount = s.timerCount := rfl
@[simp] theorem setPc_cpu : (s.setPc v).cpu = s.cpu := rfl
@[simp] theorem setPc_mem : (s.setPc v).mem = s.mem := rfl
@[simp] theorem setPc_memUnit : (s.setPc v).memUnit = s.memUnit := rfl
@[simp] theorem setPc_requests : (s.setPc v).requests = s.requests := rfl
@[simp] theorem setPc_responses : (s.setPc v).responses = s.responses := rfl
@[simp] theorem setPc_posted : (s.setPc v).posted = s.posted := rfl
@[simp] theorem setPc_unanswered : (s.setPc v).unanswered = s.unanswered := rfl
@[simp] theorem setPc_output : (s.setPc v).output = s.output := rfl
@[simp] theorem setPc_params : (s.setPc v).params = s.params := rfl
@[simp] theorem setPc_draws : (s.setPc v).draws = s.draws := rfl
end setPc

section setSp
variable (s : State) (v : Word)
@[simp] theorem setSp_pc : (s.setSp v).pc = s.pc := rfl
@[simp] theorem setSp_sp : (s.setSp v).sp = v := rfl
@[simp] theorem setSp_ir : (s.setSp v).ir = s.ir := rfl
@[simp] theorem setSp_ac : (s.setSp v).ac = s.ac := rfl
@[simp] theorem setSp_x : (s.setSp v).x = s.x := rfl
@[simp] theorem setSp_y : (s.setSp v).y = s.y := rfl
@[simp] theorem setSp_kernel : (s.setSp v).kernel = s.kernel := rfl
@[simp] theorem setSp_timerElapsed : (s.setSp v).timerElapsed = s.timerElapsed := rfl
@[simp] theorem setSp_timerLimit : (s.setSp v).timerLimit = s.timerLimit := rfl
@[simp] theorem setSp_timerCount : (s.setSp v).timerCount = s.timerCount := rfl
@[simp] theorem setSp_cpu : (s.setSp v).cpu = s.cpu := rfl
@[simp] theorem setSp_mem : (s.setSp v).mem = s.mem := rfl
@[simp] theorem setSp_memUnit : (s.setSp v).memUnit = s.memUnit := rfl
@[simp] theorem setSp_requests : (s.setSp v).requests = s.requests := rfl
@[simp] theorem setSp_responses : (s.setSp v).responses = s.responses := rfl
@[simp] theorem setSp_posted : (s.setSp v).posted = s.posted := rfl
@[simp] theorem setSp_unanswered : (s.setSp v).unanswered = s.unanswered := rfl
@[simp] theorem setSp_output : (s.setSp v).output = s.output := rfl
@[simp] theorem setSp_params : (s.setSp v).params = s.params := rfl
@[simp] theorem setSp_draws : (s.setSp v).draws = s.draws := rfl
end setSp

section setIr
variable (s : State) (v : Word)
@[simp] theorem setIr_pc : (s.setIr v).pc = s.pc := rfl
@[simp] theorem setIr_sp : (s.setIr v).sp = s.sp := rfl
@[simp] theorem setIr_ir : (s.setIr v).ir = v := rfl
@[simp] theorem setIr_ac : (s.setIr v).ac = s.ac := rfl
@[simp] theorem setIr_x : (s.setIr v).x = s.x := rfl
@[simp] theorem setIr_y : (s.setIr v).y = s.y := rfl
@[simp] theorem setIr_kernel : (s.setIr v).kernel = s.kernel := rfl
@[simp] theorem setIr_timerElapsed : (s.setIr v).timerElapsed = s.timerElapsed := rfl
@[simp] theorem setIr_timerLimit : (s.setIr v).timerLimit = s.timerLimit := rfl
@[simp] theorem setIr_timerCount : (s.setIr v).timerCount = s.timerCount := rfl
@[simp] theorem setIr_cpu : (s.setIr v).cpu = s.cpu := rfl
@[simp] theorem setIr_mem : (s.setIr v).mem = s.mem := rfl
@[simp] theorem setIr_memUnit : (s.setIr v).memUnit = s.memUnit := rfl
@[simp] theorem setIr_requests : (s.setIr v).requests = s.requests := rfl
@[simp] theorem setIr_responses : (s.setIr v).responses = s.responses := rfl
@[simp] theorem setIr_posted : (s.setIr v).posted = s.posted := rfl
@[simp] theorem setIr_unanswered : (s.setIr v).unanswered = s.unanswered := rfl
@[simp] theorem setIr_output : (s.setIr v).output = s.output := rfl
@[simp] theorem setIr_params : (s.setIr v).params = s.params := rfl
@[simp] theorem setIr_draws : (s.setIr v).draws = s.draws := rfl
end setIr

section setAc
variable (s : State) (v : Word)
@[simp] theorem setAc_pc : (s.setAc v).pc = s.pc := rfl
@[simp] theorem setAc_sp : (s.setAc v).sp = s.sp := rfl
@[simp] theorem setAc_ir : (s.setAc v).ir = s.ir := rfl
@[simp] theorem setAc_ac : (s.setAc v).ac = v := rfl
@[simp] theorem setAc_x : (s.setAc v).x = s.x := rfl
@[simp] theorem setAc_y : (s.setAc v).y = s.y := rfl
@[simp] theorem setAc_kernel : (s.setAc v).kernel = s.kernel := rfl
@[simp] theorem setAc_timerElapsed : (s.setAc v).timerElapsed = s.timerElapsed := rfl
@[simp] theorem setAc_timerLimit : (s.setAc v).timerLimit = s.timerLimit := rfl
@[simp] theorem setAc_timerCount : (s.setAc v).timerCount = s.timerCount := rfl
@[simp] theorem setAc_cpu : (s.setAc v).cpu = s.cpu := rfl
@[simp] theorem setAc_mem : (s.setAc v).mem = s.mem := rfl
@[simp] theorem setAc_memUnit : (s.setAc v).memUnit = s.memUnit := rfl
@[simp] theorem setAc_requests : (s.setAc v).requests = s.requests := rfl
@[simp] theorem setAc_responses : (s.setAc v).responses = s.responses := rfl
@[simp] theorem setAc_posted : (s.setAc v).posted = s.posted := rfl
@[simp] theorem setAc_unanswered : (s.setAc v).unanswered = s.unanswered := rfl
@[simp] theorem setAc_output : (s.setAc v).output = s.output := rfl
@[simp] theorem setAc_params : (s.setAc v).params = s.params := rfl
@[simp] theorem setAc_draws : (s.setAc v).draws = s.draws := rfl
end setAc

section setX
variable (s : State) (v : Word)
@[simp] theorem setX_pc : (s.setX v).pc = s.pc := rfl
@[simp] theorem setX_sp : (s.setX v).sp = s.sp := rfl
@[simp] theorem setX_ir : (s.setX v).ir = s.ir := rfl
@[simp] theorem setX_ac : (s.setX v).ac = s.ac := rfl
@[simp] theorem setX_x : (s.setX v).x = v := rfl
@[simp] theorem setX_y : (s.setX v).y = s.y := rfl
@[simp] theorem setX_kernel : (s.setX v).kernel = s.kernel := rfl
@[simp] theorem setX_timerElapsed : (s.setX v).timerElapsed = s.timerElapsed := rfl
@[simp] theorem setX_timerLimit : (s.setX v).timerLimit = s.timerLimit := rfl
@[simp] theorem setX_timerCount : (s.setX v).timerCount = s.timerCount := rfl
@[simp] theorem setX_cpu : (s.setX v).cpu = s.cpu := rfl
@[simp] theorem setX_mem : (s.setX v).mem = s.mem := rfl
@[simp] theorem setX_memUnit : (s.setX v).memUnit = s.memUnit := rfl
@[simp] theorem setX_requests : (s.setX v).requests = s.requests := rfl
@[simp] theorem setX_responses : (s.setX v).responses = s.responses := rfl
@[simp] theorem setX_posted : (s.setX v).posted = s.posted := rfl
@[simp] theorem setX_unanswered : (s.setX v).unanswered = s.unanswered := rfl
@[simp] theorem setX_output : (s.setX v).output = s.output := rfl
@[simp] theorem setX_params : (s.setX v).params = s.params := rfl
@[simp] theorem setX_draws : (s.setX v).draws = s.draws := rfl
end setX

section setY
variable (s : State) (v : Word)
@[simp] theorem setY_pc : (s.setY v).pc = s.pc := rfl
@[simp] theorem setY_sp : (s.setY v).sp = s.sp := rfl
@[simp] theorem setY_ir : (s.setY v).ir = s.ir := rfl
@[simp] theorem setY_ac : (s.setY v).ac = s.ac := rfl
@[simp] theorem setY_x : (s.setY v).x = s.x := rfl
@[simp] theorem setY_y : (s.setY v).y = v := rfl
@[simp] theorem setY_kernel : (s.setY v).kernel = s.kernel := rfl
@[simp] theorem setY_timerElapsed : (s.setY v).timerElapsed = s.timerElapsed := rfl
@[simp] theorem setY_timerLimit : (s.setY v).timerLimit = s.timerLimit := rfl
@[simp] theorem setY_timerCount : (s.setY v).timerCount = s.timerCount := rfl
@[simp] theorem setY_cpu : (s.setY v).cpu = s.cpu := rfl
@[simp] theorem setY_mem : (s.setY v).mem = s.mem := rfl
@[simp] theorem setY_memUnit : (s.setY v).memUnit = s.memUnit := rfl
@[simp] theorem setY_requests : (s.setY v).requests = s.requests := rfl
@[simp] theorem setY_responses : (s.setY v).responses = s.responses := rfl
@[simp] theorem setY_posted : (s.setY v).posted = s.posted := rfl
@[simp] theorem setY_unanswered : (s.setY v).unanswered = s.unanswered := rfl
@[simp] theorem setY_output : (s.setY v).output = s.output := rfl
@[simp] theorem setY_params : (s.setY v).params = s.params := rfl
@[simp] theorem setY_draws : (s.setY v).draws = s.draws := rfl
end setY

section setKernel
variable (s : State) (v : Bool)
@[simp] theorem setKernel_pc : (s.setKernel v).pc = s.pc := rfl
@[simp] theorem setKernel_sp : (s.setKernel v).sp = s.sp := rfl
@[simp] theorem setKernel_ir : (s.setKernel v).ir = s.ir := rfl
@[simp] theorem setKernel_ac : (s.setKernel v).ac = s.ac := rfl
@[simp] theorem setKernel_x : (s.setKernel v).x = s.x := rfl
@[simp] theorem setKernel_y : (s.setKernel v).y = s.y := rfl
@[simp] theorem setKernel_kernel : (s.setKernel v).kernel = v := rfl
@[simp] theorem setKernel_timerElapsed : (s.setKernel v).timerElapsed = s.timerElapsed := rfl
@[simp] theorem setKernel_timerLimit : (s.setKernel v).timerLimit = s.timerLimit := rfl
@[simp] theorem setKernel_timerCount : (s.setKernel v).timerCount = s.timerCount := rfl
@[simp] theorem setKernel_cpu : (s.setKernel v).cpu = s.cpu := rfl
@[simp] theorem setKernel_mem : (s.setKernel v).mem = s.mem := rfl
@[simp] theorem setKernel_memUnit : (s.setKernel v).memUnit = s.memUnit := rfl
@[simp] theorem setKernel_requests : (s.setKernel v).requests = s.requests := rfl
@[simp] theorem setKernel_responses : (s.setKernel v).responses = s.responses := rfl
@[simp] theorem setKernel_posted : (s.setKernel v).posted = s.posted := rfl
@[simp] theorem setKernel_unanswered : (s.setKernel v).unanswered = s.unanswered := rfl
@[simp] theorem setKernel_output : (s.setKernel v).output = s.output := rfl
@[simp] theorem setKernel_params : (s.setKernel v).params = s.params := rfl
@[simp] theorem setKernel_draws : (s.setKernel v).draws = s.draws := rfl
end setKernel

section setTimerElapsed
variable (s : State) (v : Bool)
@[simp] theorem setTimerElapsed_pc : (s.setTimerElapsed v).pc = s.pc := rfl
@[simp] theorem setTimerElapsed_sp : (s.setTimerElapsed v).sp = s.sp := rfl
@[simp] theorem setTimerElapsed_ir : (s.setTimerElapsed v).ir = s.ir := rfl
@[simp] theorem setTimerElapsed_ac : (s.setTimerElapsed v).ac = s.ac := rfl
@[simp] theorem setTimerElapsed_x : (s.setTimerElapsed v).x = s.x := rfl
@[simp] theorem setTimerElapsed_y : (s.setTimerElapsed v).y = s.y := rfl
@[simp] theorem setTimerElapsed_kernel : (s.setTimerElapsed v).kernel = s.kernel := rfl
@[simp] theorem setTimerElapsed_timerElapsed : (s.setTimerElapsed v).timerElapsed = v := rfl
@[simp] theorem setTimerElapsed_timerLimit : (s.setTimerElapsed v).timerLimit = s.timerLimit := rfl
@[simp] theorem setTimerElapsed_timerCount : (s.setTimerElapsed v).timerCount = s.timerCount := rfl
@[simp] theorem setTimerElapsed_cpu : (s.setTimerElapsed v).cpu = s.cpu := rfl
@[simp] theorem setTimerElapsed_mem : (s.setTimerElapsed v).mem = s.mem := rfl
@[simp] theorem setTimerElapsed_memUnit : (s.setTimerElapsed v).memUnit = s.memUnit := rfl
@[simp] theorem setTimerElapsed_requests : (s.setTimerElapsed v).requests = s.requests := rfl
@[simp] theorem setTimerElapsed_responses : (s.setTimerElapsed v).responses = s.responses := rfl
@[simp] theorem setTimerElapsed_posted : (s.setTimerElapsed v).posted = s.posted := rfl
@[simp] theorem setTimerElapsed_unanswered : (s.setTimerElapsed v).unanswered = s.unanswered := rfl
@[simp] theorem setTimerElapsed_output : (s.setTimerElapsed v).output = s.output := rfl
@[simp] theorem setTimerElapsed_params : (s.setTimerElapsed v).params = s.params := rfl
@[simp] theorem setTimerElapsed_draws : (s.setTimerElapsed v).draws = s.draws := rfl
end setTimerElapsed

section setTimerCount
variable (s : State) (v : Word)
@[simp] theorem setTimerCount_pc : (s.setTimerCount v).pc = s.pc := rfl
@[simp] theorem setTimerCount_sp : (s.setTimerCount v).sp = s.sp := rfl
@[simp] theorem setTimerCount_ir : (s.setTimerCount v).ir = s.ir := rfl
@[simp] theorem setTimerCount_ac : (s.setTimerCount v).ac = s.ac := rfl
@[simp] theorem setTimerCount_x : (s.setTimerCount v).x = s.x := rfl
@[simp] theorem setTimerCount_y : (s.setTimerCount v).y = s.y := rfl
@[simp] theorem setTimerCount_kernel : (s.setTimerCount v).kernel = s.kernel := rfl
@[simp] theorem setTimerCount_timerElapsed : (s.setTimerCount v).timerElapsed = s.timerElapsed := rfl
@[simp] theorem setTimerCount_timerLimit : (s.setTimerCount v).timerLimit = s.timerLimit := rfl
@[simp] theorem setTimerCount_timerCount : (s.setTimerCount v).timerCount = v := rfl
@[simp] theorem setTimerCount_cpu : (s.setTimerCount v).cpu = s.cpu := rfl
@[simp] theorem setTimerCount_mem : (s.setTimerCount v).mem = s.mem := rfl
@[simp] theorem setTimerCount_memUnit : (s.setTimerCount v).memUnit = s.memUnit := rfl
@[simp] theorem setTimerCount_requests : (s.setTimerCount v).requests = s.requests := rfl
@[simp] theorem setTimerCount_responses : (s.setTimerCount v).responses = s.responses := rfl
@[simp] theorem setTimerCount_posted : (s.setTimerCount v).posted = s.posted := rfl
@[simp] theorem setTimerCount_unanswered : (s.setTimerCount v).unanswered = s.unanswered := rfl
@[simp] theorem setTimerCount_output : (s.setTimerCount v).output = s.output := rfl
@[simp] theorem setTimerCount_params : (s.setTimerCount v).params = s.params := rfl
@[simp] theorem setTimerCount_draws : (s.setTimerCount v).draws = s.draws := rfl
end setTimerCount

section setCpu
variable (s : State) (v : RunState)
@[simp] theorem setCpu_pc : (s.setCpu v).pc = s.pc := rfl
@[simp] theorem setCpu_sp : (s.setCpu v).sp = s.sp := rfl
@[simp] theorem setCpu_ir : (s.setCpu v).ir = s.ir := rfl
@[simp] theorem setCpu_ac : (s.setCpu v).ac = s.ac := rfl
@[simp] theorem setCpu_x : (s.setCpu v).x = s.x := rfl
@[simp] theorem setCpu_y : (s.setCpu v).y = s.y := rfl
@[simp] theorem setCpu_kernel : (s.setCpu v).kernel = s.kernel := rfl
@[simp] theorem setCpu_timerElapsed : (s.setCpu v).timerElapsed = s.timerElapsed := rfl
@[simp] theorem setCpu_timerLimit : (s.setCpu v).timerLimit = s.timerLimit := rfl
@[simp] theorem setCpu_timerCount : (s.setCpu v).timerCount = s.timerCount := rfl
@[simp] theorem setCpu_cpu : (s.setCpu v).cpu = v := rfl
@[simp] theorem setCpu_mem : (s.setCpu v).mem = s.mem := rfl
@[simp] theorem setCpu_memUnit : (s.setCpu v).memUnit = s.memUnit := rfl
@[simp] theorem setCpu_requests : (s.setCpu v).requests = s.requests := rfl
@[simp] theorem setCpu_responses : (s.setCpu v).responses = s.responses := rfl
@[simp] theorem setCpu_posted : (s.setCpu v).posted = s.posted := rfl
@[simp] theorem setCpu_unanswered : (s.setCpu v).unanswered = s.unanswered := rfl
@[simp] theorem setCpu_output : (s.setCpu v).output = s.output := rfl
@[simp] theorem setCpu_params : (s.setCpu v).params = s.params := rfl
@[simp] theorem setCpu_draws : (s.setCpu v).draws = s.draws := rfl
end setCpu

section setMem
variable (s : State) (v : Memory)
@[simp] theorem setMem_pc : (s.setMem v).pc = s.pc := rfl
@[simp] theorem setMem_sp : (s.setMem v).sp = s.sp := rfl
@[simp] theorem setMem_ir : (s.setMem v).ir = s.ir := rfl
@[simp] theorem setMem_ac : (s.setMem v).ac = s.ac := rfl
@[simp] theorem setMem_x : (s.setMem v).x = s.x := rfl
@[simp] theorem setMem_y : (s.setMem v).y = s.y := rfl
@[simp] theorem setMem_kernel : (s.setMem v).kernel = s.kernel := rfl
@[simp] theorem setMem_timerElapsed : (s.setMem v).timerElapsed = s.timerElapsed := rfl
@[simp] theorem setMem_timerLimit : (s.setMem v).timerLimit = s.timerLimit := rfl
@[simp] theorem setMem_timerCount : (s.setMem v).timerCount = s.timerCount := rfl
@[simp] theorem setMem_cpu : (s.setMem v).cpu = s.cpu := rfl
@[simp] theorem setMem_mem : (s.setMem v).mem = v := rfl
@[simp] theorem setMem_memUnit : (s.setMem v).memUnit = s.memUnit := rfl
@[simp] theorem setMem_requests : (s.setMem v).requests = s.requests := rfl
@[simp] theorem setMem_responses : (s.setMem v).responses = s.responses := rfl
@[simp] theorem setMem_posted : (s.setMem v).posted = s.posted := rfl
@[simp] theorem setMem_unanswered : (s.setMem v).unanswered = s.unanswered := rfl
@[simp] theorem setMem_output : (s.setMem v).output = s.output := rfl
@[simp] theorem setMem_params : (s.setMem v).params = s.params := rfl
@[simp] theorem setMem_draws : (s.setMem v).draws = s.draws := rfl
end setMem

section setMemUnit
variable (s : State) (v : UnitState)
@[simp] theorem setMemUnit_pc : (s.setMemUnit v).pc = s.pc := rfl
@[simp] theorem setMemUnit_sp : (s.setMemUnit v).sp = s.sp := rfl
@[simp] theorem setMemUnit_ir : (s.setMemUnit v).ir = s.ir := rfl
@[simp] theorem setMemUnit_ac : (s.setMemUnit v).ac = s.ac := rfl
@[simp] theorem setMemUnit_x : (s.setMemUnit v).x = s.x := rfl
@[simp] theorem setMemUnit_y : (s.setMemUnit v).y = s.y := rfl
@[simp] theorem setMemUnit_kernel : (s.setMemUnit v).kernel = s.kernel := rfl
@[simp] theorem setMemUnit_timerElapsed : (s.setMemUnit v).timerElapsed = s.timerElapsed := rfl
@[simp] theorem setMemUnit_timerLimit : (s.setMemUnit v).timerLimit = s.timerLimit := rfl
@[simp] theorem setMemUnit_timerCount : (s.setMemUnit v).timerCount = s.timerCount := rfl
@[simp] theorem setMemUnit_cpu : (s.setMemUnit v).cpu = s.cpu := rfl
@[simp] theorem setMemUnit_mem : (s.setMemUnit v).mem = s.mem := rfl
@[simp] theorem setMemUnit_memUnit : (s.setMemUnit v).memUnit = v := rfl
@[simp] theorem setMemUnit_requests : (s.setMemUnit v).requests = s.requests := rfl
@[simp] theorem setMemUnit_responses : (s.setMemUnit v).responses = s.responses := rfl
@[simp] theorem setMemUnit_posted : (s.setMemUnit v).posted = s.posted := rfl
@[simp] theorem setMemUnit_unanswered : (s.setMemUnit v).unanswered = s.unanswered := rfl
@[simp] theorem setMemUnit_output : (s.setMemUnit v).output = s.output := rfl
@[simp] theorem setMemUnit_params : (s.setMemUnit v).params = s.params := rfl
@[simp] theorem setMemUnit_draws : (s.setMemUnit v).draws = s.draws := rfl
end setMemUnit

section setRequests
variable (s : State) (v : List Message)
@[simp] theorem setRequests_pc : (s.setRequests v).pc = s.pc := rfl
@[simp] theorem setRequests_sp : (s.setRequests v).sp = s.sp := rfl
@[simp] theorem setRequests_ir : (s.setRequests v).ir = s.ir := rfl
@[simp] theorem setRequests_ac : (s.setRequests v).ac = s.ac := rfl
@[simp] theorem setRequests_x : (s.setRequests v).x = s.x := rfl
@[simp] theorem setRequests_y : (s.setRequests v).y = s.y := rfl
@[simp] theorem setRequests_kernel : (s.setRequests v).kernel = s.kernel := rfl
@[simp] theorem setRequests_timerElapsed : (s.setRequests v).timerElapsed = s.timerElapsed := rfl
@[simp] theorem setRequests_timerLimit : (s.setRequests v).timerLimit = s.timerLimit := rfl
@[simp] theorem setRequests_timerCount : (s.setRequests v).timerCount = s.timerCount := rfl
@[simp] theorem setRequests_cpu : (s.setRequests v).cpu = s.cpu := rfl
@[simp] theorem setRequests_mem : (s.setRequests v).mem = s.mem := rfl
@[simp] theorem setRequests_memUnit : (s.setRequests v).memUnit = s.memUnit := rfl
@[simp] theorem setRequests_requests : (s.setRequests v).requests = v := rfl
@[simp] theorem setRequests_responses : (s.setRequests v).responses = s.responses := rfl
@[simp] theorem setRequests_posted : (s.setRequests v).posted = s.posted := rfl
@[simp] theorem setRequests_unanswered : (s.setRequests v).unanswered = s.unanswered := rfl
@[simp] theorem setRequests_output : (s.setRequests v).output = s.output := rfl
@[simp] theorem setRequests_params : (s.setRequests v).params = s.params := rfl
@[simp] theorem setRequests_draws : (s.setRequests v).draws = s.draws := rfl
end setRequests

section setResponses
variable (s : State) (v : List Word)
@[simp] theorem setResponses_pc : (s.setResponses v).pc = s.pc := rfl
@[simp] theorem setResponses_sp : (s.setResponses v).sp = s.sp := rfl
@[simp] theorem setResponses_ir : (s.setResponses v).ir = s.ir := rfl
@[simp] theorem setResponses_ac : (s.setResponses v).ac = s.ac := rfl
@[simp] theorem setResponses_x : (s.setResponses v).x = s.x := rfl
@[simp] theorem setResponses_y : (s.setResponses v).y = s.y := rfl
@[simp] theorem setResponses_kernel : (s.setResponses v).kernel = s.kernel := rfl
@[simp] theorem setResponses_timerElapsed : (s.setResponses v).timerElapsed = s.timerElapsed := rfl
@[simp] theorem setResponses_timerLimit : (s.setResponses v).timerLimit = s.timerLimit := rfl
@[simp] theorem setResponses_timerCount : (s.setResponses v).timerCount = s.timerCount := rfl
@[simp] theorem setResponses_cpu : (s.setResponses v).cpu = s.cpu := rfl
@[simp] theorem setResponses_mem : (s.setResponses v).mem = s.mem := rfl
@[simp] theorem setResponses_memUnit : (s.setResponses v).memUnit = s.memUnit := rfl
@[simp] theorem setResponses_requests : (s.setResponses v).requests = s.requests := rfl
@[simp] theorem setResponses_responses : (s.setResponses v).responses = v := rfl
@[simp] theorem setResponses_posted : (s.setResponses v).posted = s.posted := rfl
@[simp] theorem setResponses_unanswered : (s.setResponses v).unanswered = s.unanswered := rfl
@[simp] theorem setResponses_output : (s.setResponses v).output = s.output := rfl
@[simp] theorem setResponses_params : (s.setResponses v).params = s.params := rfl
@[simp] theorem setResponses_draws : (s.setResponses v).draws = s.draws := rfl
end setResponses

section setPosted
variable (s : State) (v : List PostedWrite)
@[simp] theorem setPosted_pc : (s.setPosted v).pc = s.pc := rfl
@[simp] theorem setPosted_sp : (s.setPosted v).sp = s.sp := rfl
@[simp] theorem setPosted_ir : (s.setPosted v).ir = s.ir := rfl
@[simp] theorem setPosted_ac : (s.setPosted v).ac = s.ac := rfl
@[simp] theorem setPosted_x : (s.setPosted v).x = s.x := rfl
@[simp] theorem setPosted_y : (s.setPosted v).y = s.y := rfl
@[simp] theorem setPosted_kernel : (s.setPosted v).kernel = s.kernel := rfl
@[simp] theorem setPosted_timerElapsed : (s.setPosted v).timerElapsed = s.timerElapsed := rfl
@[simp] theorem setPosted_timerLimit : (s.setPosted v).timerLimit = s.timerLimit := rfl
@[simp] theorem setPosted_timerCount : (s.setPosted v).timerCount = s.timerCount := rfl
@[simp] theorem setPosted_cpu : (s.setPosted v).cpu = s.cpu := rfl
@[simp] theorem setPosted_mem : (s.setPosted v).mem = s.mem := rfl
@[simp] theorem setPosted_memUnit : (s.setPosted v).memUnit = s.memUnit := rfl
@[simp] theorem setPosted_requests : (s.setPosted v).requests = s.requests := rfl
@[simp] theorem setPosted_responses : (s.setPosted v).responses = s.responses := rfl
@[simp] theorem setPosted_posted : (s.setPosted v).posted = v := rfl
@[simp] theorem setPosted_unanswered : (s.setPosted v).unanswered = s.unanswered := rfl
@[simp] theorem setPosted_output : (s.setPosted v).output = s.output := rfl
@[simp] theorem setPosted_params : (s.setPosted v).params = s.params := rfl
@[simp] theorem setPosted_draws : (s.setPosted v).draws = s.draws := rfl
end setPosted

section setUnanswered
variable (s : State) (v : Option Word)
@[simp] theorem setUnanswered_pc : (s.setUnanswered v).pc = s.pc := rfl
@[simp] theorem setUnanswered_sp : (s.setUnanswered v).sp = s.sp := rfl
@[simp] theorem setUnanswered_ir : (s.setUnanswered v).ir = s.ir := rfl
@[simp] theorem setUnanswered_ac : (s.setUnanswered v).ac = s.ac := rfl
@[simp] theorem setUnanswered_x : (s.setUnanswered v).x = s.x := rfl
@[simp] theorem setUnanswered_y : (s.setUnanswered v).y = s.y := rfl
@[simp] theorem setUnanswered_kernel : (s.setUnanswered v).kernel = s.kernel := rfl
@[simp] theorem setUnanswered_timerElapsed : (s.setUnanswered v).timerElapsed = s.timerElapsed := rfl
@[simp] theorem setUnanswered_timerLimit : (s.setUnanswered v).timerLimit = s.timerLimit := rfl
@[simp] theorem setUnanswered_timerCount : (s.setUnanswered v).timerCount = s.timerCount := rfl
@[simp] theorem setUnanswered_cpu : (s.setUnanswered v).cpu = s.cpu := rfl
@[simp] theorem setUnanswered_mem : (s.setUnanswered v).mem = s.mem := rfl
@[simp] theorem setUnanswered_memUnit : (s.setUnanswered v).memUnit = s.memUnit := rfl
@[simp] theorem setUnanswered_requests : (s.setUnanswered v).requests = s.requests := rfl
@[simp] theorem setUnanswered_responses : (s.setUnanswered v).responses = s.responses := rfl
@[simp] theorem setUnanswered_posted : (s.setUnanswered v).posted = s.posted := rfl
@[simp] theorem setUnanswered_unanswered : (s.setUnanswered v).unanswered = v := rfl
@[simp] theorem setUnanswered_output : (s.setUnanswered v).output = s.output := rfl
@[simp] theorem setUnanswered_params : (s.setUnanswered v).params = s.params := rfl
@[simp] theorem setUnanswered_draws : (s.setUnanswered v).draws = s.draws := rfl
end setUnanswered

section setOutput
variable (s : State) (v : List OutEvent)
@[simp] theorem setOutput_pc : (s.setOutput v).pc = s.pc := rfl
@[simp] theorem setOutput_sp : (s.setOutput v).sp = s.sp := rfl
@[simp] theorem setOutput_ir : (s.setOutput v).ir = s.ir := rfl
@[simp] theorem setOutput_ac : (s.setOutput v).ac = s.ac := rfl
@[simp] theorem setOutput_x : (s.setOutput v).x = s.x := rfl
@[simp] theorem setOutput_y : (s.setOutput v).y = s.y := rfl
@[simp] theorem setOutput_kernel : (s.setOutput v).kernel = s.kernel := rfl
@[simp] theorem setOutput_timerElapsed : (s.setOutput v).timerElapsed = s.timerElapsed := rfl
@[simp] theorem setOutput_timerLimit : (s.setOutput v).timerLimit = s.timerLimit := rfl
@[simp] theorem setOutput_timerCount : (s.setOutput v).timerCount = s.timerCount := rfl
@[simp] theorem setOutput_cpu : (s.setOutput v).cpu = s.cpu := rfl
@[simp] theorem setOutput_mem : (s.setOutput v).mem = s.mem := rfl
@[simp] theorem setOutput_memUnit : (s.setOutput v).memUnit = s.memUnit := rfl
@[simp] theorem setOutput_requests : (s.setOutput v).requests = s.requests := rfl
@[simp] theorem setOutput_responses : (s.setOutput v).responses = s.responses := rfl
@[simp] theorem setOutput_posted : (s.setOutput v).posted = s.posted := rfl
@[simp] theorem setOutput_unanswered : (s.setOutput v).unanswered = s.unanswered := rfl
@[simp] theorem setOutput_output : (s.setOutput v).output = v := rfl
@[simp] theorem setOutput_params : (s.setOutput v).params = s.params := rfl
@[simp] theorem setOutput_draws : (s.setOutput v).draws = s.draws := rfl
end setOutput

section setDraws
variable (s : State) (v : Nat)
@[simp] theorem setDraws_pc : (s.setDraws v).pc = s.pc := rfl
@[simp] theorem setDraws_sp : (s.setDraws v).sp = s.sp := rfl
@[simp] theorem setDraws_ir : (s.setDraws v).ir = s.ir := rfl
@[simp] theorem setDraws_ac : (s.setDraws v).ac = s.ac := rfl
@[simp] theorem setDraws_x : (s.setDraws v).x = s.x := rfl
@[simp] theorem setDraws_y : (s.setDraws v).y = s.y := rfl
@[simp] theorem setDraws_kernel : (s.setDraws v).kernel = s.kernel := rfl
@[simp] theorem setDraws_timerElapsed : (s.setDraws v).timerElapsed = s.timerElapsed := rfl
@[simp] theorem setDraws_timerLimit : (s.setDraws v).timerLimit = s.timerLimit := rfl
@[simp] theorem setDraws_timerCount : (s.setDraws v).timerCount = s.timerCount := rfl
@[simp] theorem setDraws_cpu : (s.setDraws v).cpu = s.cpu := rfl
@[simp] theorem setDraws_mem : (s.setDraws v).mem = s.mem := rfl
@[simp] theorem setDraws_memUnit : (s.setDraws v).memUnit = s.memUnit := rfl
@[simp] theorem setDraws_requests : (s.setDraws v).requests = s.requests := rfl
@[simp] theorem setDraws_responses : (s.setDraws v).responses = s.responses := rfl
@[simp] theorem setDraws_posted : (s.setDraws v).posted = s.posted := rfl
@[simp] theorem setDraws_unanswered : (s.setDraws v).unanswered = s.unanswered := rfl
@[simp] theorem setDraws_output : (s.setDraws v).output = s.output := rfl
@[simp] theorem setDraws_params : (s.setDraws v).params = s.params := rfl
@[simp] theorem setDraws_draws : (s.setDraws v).draws = v := rfl
end setDraws

@[simp] theorem setPc_self (s : State) : s.setPc s.pc = s := rfl
@[simp] theorem setSp_self (s : State) : s.setSp s.sp = s := rfl
@[simp] theorem setIr_self (s : State) : s.setIr s.ir = s := rfl
@[simp] theorem setAc_self (s : State) : s.setAc s.ac = s := rfl
@[simp] theorem setX_self (s : State) : s.setX s.x = s := rfl
@[simp] theorem setY_self (s : State) : s.setY s.y = s := rfl
@[simp] theorem setKernel_self (s : State) : s.setKernel s.kernel = s := rfl
@[simp] theorem setTimerElapsed_self (s : State) : s.setTimerElapsed s.timerElapsed = s := rfl
@[simp] theorem setTimerCount_self (s : State) : s.setTimerCount s.timerCount = s := rfl
@[simp] theorem setCpu_self (s : State) : s.setCpu s.cpu = s := rfl
@[simp] theorem setMem_self (s : State) : s.setMem s.mem = s := rfl
@[simp] theorem setMemUnit_self (s : State) : s.setMemUnit s.memUnit = s := rfl
@[simp] theorem setRequests_self (s : State) : s.setRequests s.requests = s := rfl
@[simp] theorem setResponses_self (s : State) : s.setResponses s.responses = s := rfl
@[simp] theorem setPosted_self (s : State) : s.setPosted s.posted = s := rfl
@[simp] theorem setUnanswered_self (s : State) : s.setUnanswered s.unanswered = s := rfl
@[simp] theorem setOutput_self (s : State) : s.setOutput s.output = s := rfl
@[simp] theorem setDraws_self (s : State) : s.setDraws s.draws = s := rfl

@[simp] theorem setPc_setPc (s : State) (v w : Word) : (s.setPc v).setPc w = s.setPc w := rfl
@[simp] theorem setSp_setSp (s : State) (v w : Word) : (s.setSp v).setSp w = s.setSp w := rfl
@[simp] theorem setIr_setIr (s : State) (v w : Word) : (s.setIr v).setIr w = s.setIr w := rfl
@[simp] theorem setAc_setAc (s : State) (v w : Word) : (s.setAc v).setAc w = s.setAc w := rfl
@[simp] theorem setX_setX (s : State) (v w : Word) : (s.setX v).setX w = s.setX w := rfl
@[simp] theorem setY_setY (s : State) (v w : Word) : (s.setY v).setY w = s.setY w := rfl
@[simp] theorem setKernel_setKernel (s : State) (v w : Bool) : (s.setKernel v).setKernel w = s.setKernel w := rfl
@[simp] theorem setTimerElapsed_setTimerElapsed (s : State) (v w : Bool) : (s.setTimerElapsed v).setTimerElapsed w = s.setTimerElapsed w := rfl
@[simp] theorem setTimerCount_setTimerCount (s : State) (v w : Word) : (s.setTimerCount v).setTimerCount w = s.setTimerCount w := rfl
@[simp] theorem setCpu_setCpu (s : State) (v w : RunState) : (s.setCpu v).setCpu w = s.setCpu w := rfl
@[simp] theorem setMem_setMem (s : State) (v w : Memory) : (s.setMem v).setMem w = s.setMem w := rfl
@[simp] theorem setMemUnit_setMemUnit (s : State) (v w : UnitState) : (s.setMemUnit v).setMemUnit w = s.setMemUnit w := rfl
@[simp] theorem setRequests_setRequests (s : State) (v w : List Message) : (s.setRequests v).setRequests w = s.setRequests w := rfl
@[simp] theorem setResponses_setResponses (s : State) (v w : List Word) : (s.setResponses v).setResponses w = s.setResponses w := rfl
@[simp] theorem setPosted_setPosted (s : State) (v w : List PostedWrite) : (s.setPosted v).setPosted w = s.setPosted w := rfl
@[simp] theorem setUnanswered_setUnanswered (s : State) (v w : Option Word) : (s.setUnanswered v).setUnanswered w = s.setUnanswered w := rfl
@[simp] theorem setOutput_setOutput (s : State) (v w : List OutEvent) : (s.setOutput v).setOutput w = s.setOutput w := rfl
@[simp] theorem setDraws_setDraws (s : State) (v w : Nat) : (s.setDraws v).setDraws w = s.setDraws w := rfl

end Sys2Proof.Machine.State
end

