-- ==== Sys2Proof/Laws/Ops.lean ====
section
/-! SUPPORT. What each shared operation can do, said once: its exact result where the channel is at rest
(`Linked`), and for every state which registers it leaves (`SameRegs`) and why it faults. -/

namespace Sys2Proof.Machine

/-! ### Outcomes -/

section Outcomes
variable {α β : Type}

@[simp] theorem Res.bind_ok (v : α) (s : State) (k : α → State → Res β) : (Res.ok v s).bind k = k v s := rfl
@[simp] theorem Res.bind_fault (f : FaultReport) (s : State) (k : α → State → Res β) :
    (Res.fault f s : Res α).bind k = .fault f s := rfl
@[simp] theorem Res.bind_stuck (s : State) (k : α → State → Res β) :
    (Res.stuck s : Res α).bind k = .stuck s := rfl
@[simp] theorem Res.outcome_ok (u : Unit) (s : State) : (Res.ok u s).outcome = .next s := rfl
@[simp] theorem Res.outcome_fault (f : FaultReport) (s : State) : (Res.fault f s).outcome = .fault (.raised f (abandon s)) := rfl
@[simp] theorem Res.outcome_stuck (s : State) : (Res.stuck s).outcome = .next s := rfl

theorem Res.bind_eq_ok {r : Res α} {k : α → State → Res β} {w : β} {t : State} :
    r.bind k = .ok w t ↔ ∃ v u, r = .ok v u ∧ k v u = .ok w t := by
  cases r <;> simp

theorem Res.bind_eq_fault {r : Res α} {k : α → State → Res β} {f : FaultReport} {t : State} :
    r.bind k = .fault f t ↔ r = .fault f t ∨ ∃ v u, r = .ok v u ∧ k v u = .fault f t := by
  cases r <;> simp

theorem Res.bind_eq_stuck {r : Res α} {k : α → State → Res β} {t : State} :
    r.bind k = .stuck t ↔ r = .stuck t ∨ ∃ v u, r = .ok v u ∧ k v u = .stuck t := by
  cases r <;> simp

theorem Res.outcome_eq_next {r : Res Unit} {t : State} :
    r.outcome = .next t ↔ r = .ok () t ∨ r = .stuck t := by
  cases r <;> simp

/-- A fault of an operation is reported with what is left of the state it abandoned (R144). -/
theorem Res.outcome_eq_fault {r : Res Unit} {f : Fault} :
    r.outcome = .fault f ↔ ∃ x t, r = .fault x t ∧ f = .raised x (abandon t) := by
  cases r <;> simp [eq_comm]

theorem Res.outcome_ne_refused (r : Res Unit) (x : Refusal) : r.outcome ≠ .refused x := by
  cases r <;> simp [Res.outcome]

/-- An operation that raises `r` where everything outside the CPU is as in `s`. -/
theorem FaultsWith.of_raise {s u : State} {r : FaultReport} (h : SameOutside s u) :
    FaultsWith s (raise r u : Res Unit).outcome r :=
  ⟨abandon (u.setCpu (.faulted r)), rfl, rfl, h⟩

theorem SameOutside.refl (s : State) : SameOutside s s := ⟨rfl, rfl, rfl, rfl, rfl, rfl, rfl, rfl⟩

theorem raise_eq (f : FaultReport) (s : State) : (raise f s : Res α) = .fault f (s.setCpu (.faulted f)) := rfl
theorem block_eq (s : State) : (block s : Res α) = .stuck (s.setCpu .stuck) := rfl

end Outcomes

/-! ### A stored word, and what a fault leaves -/

section Stored
variable (a v : Word) (s : State)

@[simp] theorem stored_mem : (stored a v s).mem = Memory.write s.mem a.toNat v := rfl
@[simp] theorem stored_posted : (stored a v s).posted = s.posted ++ [⟨a, v, s.mem⟩] := rfl
@[simp] theorem stored_unanswered : (stored a v s).unanswered = s.unanswered := rfl
@[simp] theorem stored_pc : (stored a v s).pc = s.pc := rfl
@[simp] theorem stored_sp : (stored a v s).sp = s.sp := rfl
@[simp] theorem stored_ir : (stored a v s).ir = s.ir := rfl
@[simp] theorem stored_ac : (stored a v s).ac = s.ac := rfl
@[simp] theorem stored_x : (stored a v s).x = s.x := rfl
@[simp] theorem stored_y : (stored a v s).y = s.y := rfl
@[simp] theorem stored_kernel : (stored a v s).kernel = s.kernel := rfl
@[simp] theorem stored_timerElapsed : (stored a v s).timerElapsed = s.timerElapsed := rfl
@[simp] theorem stored_timerLimit : (stored a v s).timerLimit = s.timerLimit := rfl
@[simp] theorem stored_timerCount : (stored a v s).timerCount = s.timerCount := rfl
@[simp] theorem stored_cpu : (stored a v s).cpu = s.cpu := rfl
@[simp] theorem stored_memUnit : (stored a v s).memUnit = s.memUnit := rfl
@[simp] theorem stored_requests : (stored a v s).requests = s.requests := rfl
@[simp] theorem stored_responses : (stored a v s).responses = s.responses := rfl
@[simp] theorem stored_output : (stored a v s).output = s.output := rfl
@[simp] theorem stored_params : (stored a v s).params = s.params := rfl
@[simp] theorem stored_draws : (stored a v s).draws = s.draws := rfl

@[simp] theorem abandon_cpu : (abandon s).cpu = s.cpu := rfl
@[simp] theorem abandon_mem : (abandon s).mem = s.mem := rfl
@[simp] theorem abandon_memUnit : (abandon s).memUnit = s.memUnit := rfl
@[simp] theorem abandon_requests : (abandon s).requests = s.requests := rfl
@[simp] theorem abandon_responses : (abandon s).responses = s.responses := rfl
@[simp] theorem abandon_posted : (abandon s).posted = s.posted := rfl
@[simp] theorem abandon_unanswered : (abandon s).unanswered = s.unanswered := rfl
@[simp] theorem abandon_output : (abandon s).output = s.output := rfl
@[simp] theorem abandon_params : (abandon s).params = s.params := rfl

end Stored

/-! ### The state after an opcode read -/

section Fetched
variable (s : State) (op : Word)

@[simp] theorem fetched_pc : (fetched s op).pc = s.pc + 1 := rfl
@[simp] theorem fetched_ir : (fetched s op).ir = op := rfl
@[simp] theorem fetched_posted : (fetched s op).posted = [] := rfl
@[simp] theorem fetched_unanswered : (fetched s op).unanswered = s.unanswered := rfl
@[simp] theorem fetched_sp : (fetched s op).sp = s.sp := rfl
@[simp] theorem fetched_ac : (fetched s op).ac = s.ac := rfl
@[simp] theorem fetched_x : (fetched s op).x = s.x := rfl
@[simp] theorem fetched_y : (fetched s op).y = s.y := rfl
@[simp] theorem fetched_kernel : (fetched s op).kernel = s.kernel := rfl
@[simp] theorem fetched_timerElapsed : (fetched s op).timerElapsed = s.timerElapsed := rfl
@[simp] theorem fetched_timerLimit : (fetched s op).timerLimit = s.timerLimit := rfl
@[simp] theorem fetched_timerCount : (fetched s op).timerCount = s.timerCount := rfl
@[simp] theorem fetched_cpu : (fetched s op).cpu = s.cpu := rfl
@[simp] theorem fetched_mem : (fetched s op).mem = s.mem := rfl
@[simp] theorem fetched_memUnit : (fetched s op).memUnit = s.memUnit := rfl
@[simp] theorem fetched_requests : (fetched s op).requests = s.requests := rfl
@[simp] theorem fetched_responses : (fetched s op).responses = s.responses := rfl
@[simp] theorem fetched_output : (fetched s op).output = s.output := rfl
@[simp] theorem fetched_params : (fetched s op).params = s.params := rfl
@[simp] theorem fetched_draws : (fetched s op).draws = s.draws := rfl

end Fetched

/-! ### The checks -/

theorem privilegeRefuses_iff {a : Word} {s : State} : privilegeRefuses a s = true ↔ Protected s a := by
  simp [privilegeRefuses]

theorem inRange_iff {p : Params} {a : Word} :
    inRange p a = true ↔ 0 ≤ a.toInt ∧ a.toInt < p.memWords := by
  simp [inRange]

theorem Accessible.notProtected {s : State} {a : Word} (h : Accessible s a) : ¬ Protected s a := by
  rintro ⟨hk, hb⟩
  rcases h.2.2 with h | h
  · simp [hk] at h
  · omega

theorem Accessible.inRange {s : State} {a : Word} (h : Accessible s a) : inRange s.params a = true :=
  inRange_iff.mpr ⟨h.1, h.2.1⟩

theorem Accessible.ne_sentinel {s : State} {a : Word} (h : Accessible s a) : a ≠ Config.sentinel := by
  rintro rfl; have := h.1; rw [sentinel_toInt] at this; omega

theorem Accessible.toNat_lt {s : State} {a : Word} (h : Accessible s a) : a.toNat < s.params.memWords :=
  toNat_lt_of_toInt_lt h.1 h.2.1

/-- The word after an accessible address is not the sentinel. -/
theorem Accessible.succ_ne_sentinel {s : State} {a : Word} (h : Accessible s a) : a + 1 ≠ Config.sentinel := by
  intro he
  have h0 := h.1
  have hb := toInt_bounds a
  rcases Int.lt_or_le a.toInt 2147483647 with hm | hm
  · have := toInt_add_one hm
    rw [he, sentinel_toInt] at this; omega
  · have h5 : a.toInt = 2147483647 := by omega
    have h6 : a = BitVec.ofInt 32 2147483647 := by rw [← h5]; simp
    rw [h6] at he; revert he; decide

theorem sentinel_notProtected (s : State) : ¬ Protected s Config.sentinel := by
  rintro ⟨-, h⟩; rw [sentinel_toInt] at h; omega

theorem OutOfRange.not_inRange {s : State} {a : Word} (h : OutOfRange s a) :
    ¬ inRange s.params a = true := by
  rw [inRange_iff]; omega

/-- The four cases of an address are all there are. -/
theorem address_cases (s : State) (a : Word) : Accessible s a ∨ Protected s a ∨ OutOfRange s a := by
  by_cases hp : Protected s a
  · exact .inr (.inl hp)
  · by_cases hr : 0 ≤ a.toInt ∧ a.toInt < s.params.memWords
    · refine .inl ⟨hr.1, hr.2, ?_⟩
      cases hk : s.kernel
      · right
        by_contra hb
        exact hp ⟨hk, by omega⟩
      · exact .inl rfl
    · exact .inr (.inr ⟨hp, by omega⟩)

/-! ### Registers that an operation leaves -/

/-- `t` has the registers, the output and the parameters of `s`: it differs at most in the run state, the
memory unit, the channel and the draws. -/
structure SameRegs (s t : State) : Prop where
  pc : t.pc = s.pc
  sp : t.sp = s.sp
  ir : t.ir = s.ir
  ac : t.ac = s.ac
  x : t.x = s.x
  y : t.y = s.y
  kernel : t.kernel = s.kernel
  timerElapsed : t.timerElapsed = s.timerElapsed
  timerLimit : t.timerLimit = s.timerLimit
  timerCount : t.timerCount = s.timerCount
  output : t.output = s.output
  params : t.params = s.params

theorem SameRegs.trans {s t u : State} (h : SameRegs s t) (k : SameRegs t u) : SameRegs s u :=
  ⟨k.pc.trans h.pc, k.sp.trans h.sp, k.ir.trans h.ir, k.ac.trans h.ac, k.x.trans h.x, k.y.trans h.y,
    k.kernel.trans h.kernel, k.timerElapsed.trans h.timerElapsed, k.timerLimit.trans h.timerLimit,
    k.timerCount.trans h.timerCount, k.output.trans h.output, k.params.trans h.params⟩

/-- What a channel operation leaves: the registers and the run state. -/
abbrev ChannelFrame (s t : State) : Prop := SameRegs s t ∧ t.cpu = s.cpu

theorem ChannelFrame.trans {s t u : State} (h : ChannelFrame s t) (k : ChannelFrame t u) : ChannelFrame s u :=
  ⟨h.1.trans k.1, k.2.trans h.2⟩

/-! ### The channel and the memory unit -/

/-- A draw advances the counter, and only where the channel may fail. -/
theorem channelDraw_cases (s : State) :
    (channelDraw s = (false, s)) ∨
    (s.params.channelFails = true ∧ channelDraw s = (Config.channelFault s.draws, s.setDraws (s.draws + 1))) := by
  unfold channelDraw
  split
  · exact .inr ⟨‹_›, rfl⟩
  · exact .inl rfl

@[simp] theorem channelDraw_reliable {s : State} (h : s.params.channelFails = false) :
    channelDraw s = (false, s) := by
  simp [channelDraw, h]

/-- Every draw leaves all but the counter, and failing needs a channel that may fail. -/
theorem channelDraw_spec {s t : State} {b : Bool} (h : channelDraw s = (b, t)) :
    (∃ d, t = s.setDraws d) ∧ (b = true → s.params.channelFails = true) ∧
      (s.params.channelFails = false → t = s) := by
  rcases channelDraw_cases s with h' | ⟨hf, h'⟩ <;> rw [h'] at h <;> cases h
  · exact ⟨⟨s.draws, rfl⟩, by simp, fun _ => rfl⟩
  · exact ⟨⟨_, rfl⟩, fun _ => hf, by simp [hf]⟩

theorem reply_frame (v : Word) (s : State) : ChannelFrame s (reply v s) := by
  unfold reply
  split <;> (obtain ⟨⟨d, rfl⟩, -⟩ := channelDraw_spec ‹_›; exact ⟨(by constructor <;> rfl), rfl⟩)

theorem actOnMessage_frame (m : Message) (s : State) : ChannelFrame s (actOnMessage m s) := by
  unfold actOnMessage
  split
  · split
    · exact ⟨(by constructor <;> rfl), rfl⟩
    · split
      · exact reply_frame _ s
      · exact ⟨(by constructor <;> rfl), rfl⟩
  · split <;> exact ⟨(by constructor <;> rfl), rfl⟩
  · exact ⟨(by constructor <;> rfl), rfl⟩

theorem handleRequest_frame (m : Message) (s : State) : ChannelFrame s (handleRequest m s) := by
  unfold handleRequest
  split <;> (obtain ⟨⟨d, rfl⟩, -⟩ := channelDraw_spec ‹_›)
  · exact ⟨(by constructor <;> rfl), rfl⟩
  · exact ChannelFrame.trans (t := s.setDraws d) ⟨(by constructor <;> rfl), rfl⟩ (actOnMessage_frame m (s.setDraws d))

theorem serveAll_frame (ms : List Message) (s : State) : ChannelFrame s (serveAll ms s) := by
  induction ms generalizing s with
  | nil => exact ⟨(by constructor <;> rfl), rfl⟩
  | cons m ms ih =>
    simp only [serveAll]
    split
    · exact (handleRequest_frame m s).trans (ih _)
    · exact ⟨(by constructor <;> rfl), rfl⟩

theorem serve_frame (s : State) : ChannelFrame s (serve s) := serveAll_frame _ s

theorem serve_posted_frame (s : State) (d : Nat) (q : List Message) :
    ChannelFrame s (serve ((s.setDraws d).setRequests q)) :=
  ChannelFrame.trans (t := (s.setDraws d).setRequests q) ⟨(by constructor <;> rfl), rfl⟩ (serve_frame _)

/-- A stopped memory unit takes nothing (R33). -/
theorem serve_stopped {s : State} (h : s.memUnit = .stopped) : serve s = s := by
  unfold serve
  cases hr : s.requests with
  | nil => simp only [serveAll]; rw [← hr]; rfl
  | cons m ms => simp only [serveAll, h]; rw [← hr]; rfl

/-- A serving memory unit takes the one message in the channel. -/
theorem serve_single {s : State} {m : Message} (h : s.memUnit = .serving) (hr : s.requests = [m]) :
    serve s = (handleRequest m s).setRequests [] := by
  simp [serve, hr, serveAll, h]

/-! ### The memory keeps its form -/

theorem memoryOk_of_eq {s t : State} (h : MemoryOk s) (hm : t.mem = s.mem) (hq : t.posted = s.posted)
    (hp : t.params = s.params) : MemoryOk t := by
  unfold MemoryOk at *; rwa [hm, hq, hp]

/-- A write that joins the posted ones: they lead to the array it leaves. -/
theorem PostsLeadTo.concat {m : Memory} {ps : List PostedWrite} (h : PostsLeadTo m ps) (a v : Word) :
    PostsLeadTo (Memory.write m a.toNat v) (ps ++ [⟨a, v, m⟩]) := by
  cases ps with
  | nil => rfl
  | cons p ps =>
    simp only [PostsLeadTo, List.map_cons, List.cons_append, List.tail_cons, List.map_append, List.map_nil] at h ⊢
    rw [← h]; rfl

theorem Memory.Ok.write {p : Params} {m : Memory} (h : Memory.Ok p m) {a : Word}
    (ha : Sys2Proof.Machine.inRange p a = true) (v : Word) : Memory.Ok p (Memory.write m a.toNat v) :=
  have hr := inRange_iff.mp ha
  ⟨Memory.write_wf h.1 _ _, Memory.write_below h.2 (toNat_lt_of_toInt_lt hr.1 hr.2) _⟩

theorem stored_memoryOk {s : State} {a : Word} (h : MemoryOk s) (ha : inRange s.params a = true) (v : Word) :
    MemoryOk (stored a v s) := by
  refine ⟨h.1.write ha v, fun p hp => ?_, h.2.2.concat a v⟩
  rcases List.mem_append.mp hp with hp | hp
  · exact h.2.1 p hp
  · obtain rfl := List.mem_singleton.mp hp
    exact h.1

/-- After an opcode read no posted write is left ahead. -/
theorem fetched_memoryOk {s : State} (h : MemoryOk s) (op : Word) : MemoryOk (fetched s op) :=
  ⟨h.1, by simp, rfl⟩

theorem reply_mem (v : Word) (s : State) : (reply v s).mem = s.mem := by
  unfold reply
  split <;> (obtain ⟨⟨d, rfl⟩, -⟩ := channelDraw_spec ‹_›; rfl)

theorem reply_posted (v : Word) (s : State) : (reply v s).posted = s.posted := by
  unfold reply
  split <;> (obtain ⟨⟨d, rfl⟩, -⟩ := channelDraw_spec ‹_›; rfl)

theorem actOnMessage_memoryOk (m : Message) {s : State} (h : MemoryOk s) : MemoryOk (actOnMessage m s) := by
  unfold actOnMessage
  split
  · split
    · exact h
    · split
      · exact memoryOk_of_eq h (reply_mem _ s) (reply_posted _ s) (reply_frame _ s).1.params
      · exact h
  · split
    · exact stored_memoryOk h ‹_› _
    · exact h
  · exact h

theorem handleRequest_memoryOk (m : Message) {s : State} (h : MemoryOk s) : MemoryOk (handleRequest m s) := by
  unfold handleRequest
  split <;> (obtain ⟨⟨d, rfl⟩, -⟩ := channelDraw_spec ‹_›)
  · exact h
  · exact actOnMessage_memoryOk m h

theorem serveAll_memoryOk (ms : List Message) {s : State} (h : MemoryOk s) : MemoryOk (serveAll ms s) := by
  induction ms generalizing s with
  | nil => exact h
  | cons m ms ih =>
    simp only [serveAll]
    split
    · exact ih (handleRequest_memoryOk m h)
    · exact h

theorem serve_memoryOk {s : State} (h : MemoryOk s) : MemoryOk (serve s) := serveAll_memoryOk _ h

/-! ### Sending and receiving, in every state -/

/-- A send goes on with the message in the channel, or fails on a channel that may fail. -/
theorem send_cases (m : Message) (s : State) :
    (∃ d, send m s = .ok () ((s.setDraws d).setRequests (s.requests ++ [m])) ∧
      (s.params.channelFails = false → d = s.draws)) ∨
    (s.params.channelFails = true ∧ ∃ d, send m s = raise (.channelWriteError m) (s.setDraws d)) := by
  unfold send
  rcases channelDraw_cases s with h | ⟨hf, h⟩
  · exact .inl ⟨s.draws, by rw [h]; rfl, fun _ => rfl⟩
  · rw [h]
    cases Config.channelFault s.draws
    · exact .inl ⟨_, rfl, by simp [hf]⟩
    · exact .inr ⟨hf, _, rfl⟩

/-- A failed receive changes the channel alone: at most a response is lost and the read joins the messages in
flight. -/
theorem failReceive_cases (a : Word) (s : State) :
    (s.responses = [] ∧ failReceive a s = s) ∨
    ∃ v vs, s.responses = v :: vs ∧ failReceive a s = (s.setResponses vs).setUnanswered (some a) := by
  unfold failReceive
  cases s.responses with
  | nil => exact .inl ⟨rfl, rfl⟩
  | cons v vs => exact .inr ⟨v, vs, rfl, rfl⟩

theorem failReceive_frame (a : Word) (s : State) : ChannelFrame s (failReceive a s) := by
  rcases failReceive_cases a s with ⟨-, e⟩ | ⟨v, vs, -, e⟩ <;> rw [e] <;> exact ⟨(by constructor <;> rfl), rfl⟩

theorem failReceive_memoryOk (a : Word) {s : State} (h : MemoryOk s) : MemoryOk (failReceive a s) := by
  rcases failReceive_cases a s with ⟨-, e⟩ | ⟨v, vs, -, e⟩ <;> rw [e] <;> exact h

/-- A receive goes on with the oldest response, blocks for want of one, or fails on a channel that may
fail. -/
theorem receive_cases (a : Word) (s : State) :
    (∃ v vs d, s.responses = v :: vs ∧ receive a s = .ok v ((s.setDraws d).setResponses vs) ∧
      (s.params.channelFails = false → d = s.draws)) ∨
    (s.responses = [] ∧ ∃ d, receive a s = block (s.setDraws d) ∧
      (s.params.channelFails = false → d = s.draws)) ∨
    (s.params.channelFails = true ∧
      ∃ d, receive a s = raise (.channelReadError a) (failReceive a (s.setDraws d))) := by
  unfold receive
  rcases channelDraw_cases s with h | ⟨hf, h⟩
  · rw [h]
    cases hr : s.responses with
    | nil => exact .inr (.inl ⟨rfl, s.draws, by simp [hr], fun _ => rfl⟩)
    | cons v vs => exact .inl ⟨v, vs, s.draws, rfl, by simp [hr], fun _ => rfl⟩
  · rw [h]
    cases Config.channelFault s.draws
    · cases hr : s.responses with
      | nil => exact .inr (.inl ⟨rfl, _, by simp [hr]; rfl, by simp [hf]⟩)
      | cons v vs => exact .inl ⟨v, vs, _, rfl, by simp [hr]; rfl, by simp [hf]⟩
    · exact .inr (.inr ⟨hf, _, rfl⟩)

/-! ### What an access can do, in every state -/

theorem OutOfRange.of_checks {s : State} {a : Word} (h1 : ¬ privilegeRefuses a s = true)
    (h2 : (!inRange s.params a) = true) : OutOfRange s a := by
  refine ⟨fun h => h1 (privilegeRefuses_iff.mpr h), ?_⟩
  have h3 : ¬ inRange s.params a = true := by simpa using h2
  rw [inRange_iff] at h3; omega

/-- A read that goes on leaves the registers and the run state. -/
theorem memRead_ok {a v : Word} {s t : State} (h : memRead a s = .ok v t) :
    ChannelFrame s t ∧ Accessible s a ∧ (MemoryOk s → MemoryOk t) := by
  unfold memRead at h
  split at h
  · cases h
  · split at h
    · obtain ⟨_, _, -, h⟩ := Res.bind_eq_ok.mp h; cases h
    · split at h
      · cases h
      · obtain ⟨_, u, hs, hr⟩ := Res.bind_eq_ok.mp h
        have hu : ChannelFrame s u ∧ (MemoryOk s → MemoryOk u) := by
          rcases send_cases [a] s with ⟨d, hs', -⟩ | ⟨-, d, hs'⟩ <;> rw [hs'] at hs <;> cases hs
          exact ⟨⟨(by constructor <;> rfl), rfl⟩, fun h => h⟩
        refine ⟨?_, ?_, ?_⟩
        · rcases receive_cases a (serve u) with ⟨w, ws, d, -, hr', -⟩ | ⟨-, d, hr', -⟩ | ⟨-, d, hr'⟩ <;>
            rw [hr'] at hr <;> cases hr
          exact hu.1.trans ((serve_frame u).trans ⟨(by constructor <;> rfl), rfl⟩)
        · rename_i h1 _ h3 _
          rcases address_cases s a with ha | ha | ha
          · exact ha
          · exact absurd (privilegeRefuses_iff.mpr ha) h1
          · have := OutOfRange.not_inRange ha
            simp [this] at h3
        · intro hm
          rcases receive_cases a (serve u) with ⟨w, ws, d, -, hr', -⟩ | ⟨-, d, hr', -⟩ | ⟨-, d, hr'⟩ <;>
            rw [hr'] at hr <;> cases hr
          exact serve_memoryOk (hu.2 hm)

/-- A read that faults has a cause (R137), and the abandoned state has the registers as they were. -/
theorem memRead_fault {a : Word} {s t : State} {f : FaultReport} (h : memRead a s = .fault f t) :
    SameRegs s t ∧ t.cpu = .faulted f ∧ AccessFault s a .read f := by
  unfold memRead at h
  split at h
  · cases h; exact ⟨(by constructor <;> rfl), rfl, .inl ⟨rfl, privilegeRefuses_iff.mp ‹_›⟩⟩
  · split at h
    · rcases Res.bind_eq_fault.mp h with h | ⟨_, _, -, h⟩
      · rcases send_cases [Config.sentinel] s with ⟨d, hs', -⟩ | ⟨hf, d, hs'⟩ <;> rw [hs'] at h <;> cases h
        exact ⟨(by constructor <;> rfl), rfl, .inr (.inr ⟨hf, .inr ⟨_, rfl⟩⟩)⟩
      · cases h
    · split at h
      · cases h
        exact ⟨(by constructor <;> rfl), rfl, .inr (.inl ⟨rfl, .of_checks ‹_› ‹_›, fun _ => ‹_›⟩)⟩
      · rcases Res.bind_eq_fault.mp h with h | ⟨_, u, hs, h⟩
        · rcases send_cases [a] s with ⟨d, hs', -⟩ | ⟨hf, d, hs'⟩ <;> rw [hs'] at h <;> cases h
          exact ⟨(by constructor <;> rfl), rfl, .inr (.inr ⟨hf, .inr ⟨_, rfl⟩⟩)⟩
        · rcases send_cases [a] s with ⟨d, hs', -⟩ | ⟨hf, d, hs'⟩ <;> rw [hs'] at hs <;> cases hs
          have hfr := serve_posted_frame s d (s.requests ++ [a] :: [])
          rcases receive_cases a (serve ((s.setDraws d).setRequests (s.requests ++ [a] :: []))) with
            ⟨w, ws, e, -, hr', -⟩ | ⟨-, e, hr', -⟩ | ⟨hf, e, hr'⟩ <;> rw [hr'] at h <;> cases h
          have hfl := (failReceive_frame a
            ((serve ((s.setDraws d).setRequests (s.requests ++ [a] :: []))).setDraws e)).1
          refine ⟨(SameRegs.trans hfr.1 (by constructor <;> rfl)).trans (hfl.trans (by constructor <;> rfl)), rfl, .inr (.inr ⟨?_, .inl rfl⟩)⟩
          rw [hfr.1.params] at hf; exact hf

/-- A read that blocks leaves the registers, and the run state is `stuck`. -/
theorem memRead_stuck {a : Word} {s t : State} (h : memRead a s = .stuck t) :
    SameRegs s t ∧ t.cpu = .stuck ∧ (MemoryOk s → MemoryOk t) := by
  unfold memRead at h
  split at h
  · cases h
  · split at h
    · rcases Res.bind_eq_stuck.mp h with h | ⟨_, u, hs, h⟩
      · rcases send_cases [Config.sentinel] s with ⟨d, hs', -⟩ | ⟨hf, d, hs'⟩ <;> rw [hs'] at h <;> cases h
      · rcases send_cases [Config.sentinel] s with ⟨d, hs', -⟩ | ⟨hf, d, hs'⟩ <;> rw [hs'] at hs <;> cases hs
        cases h
        have hfr := serve_posted_frame s d (s.requests ++ [Config.sentinel] :: [])
        exact ⟨SameRegs.trans hfr.1 (by constructor <;> rfl), rfl,
          fun hm => serve_memoryOk (s := (s.setDraws d).setRequests (s.requests ++ [Config.sentinel] :: [])) hm⟩
    · split at h
      · cases h
      · rcases Res.bind_eq_stuck.mp h with h | ⟨_, u, hs, h⟩
        · rcases send_cases [a] s with ⟨d, hs', -⟩ | ⟨hf, d, hs'⟩ <;> rw [hs'] at h <;> cases h
        · rcases send_cases [a] s with ⟨d, hs', -⟩ | ⟨hf, d, hs'⟩ <;> rw [hs'] at hs <;> cases hs
          have hfr := serve_posted_frame s d (s.requests ++ [a] :: [])
          rcases receive_cases a (serve ((s.setDraws d).setRequests (s.requests ++ [a] :: []))) with
            ⟨w, ws, e, -, hr', -⟩ | ⟨-, e, hr', -⟩ | ⟨hf, e, hr'⟩ <;> rw [hr'] at h <;> cases h
          exact ⟨SameRegs.trans hfr.1 (by constructor <;> rfl), rfl,
            fun hm => serve_memoryOk (s := (s.setDraws d).setRequests (s.requests ++ [a] :: [])) hm⟩

/-- A write that goes on leaves the registers and the run state. -/
theorem memWrite_ok {a v : Word} {u : Unit} {s t : State} (h : memWrite a v s = .ok u t) :
    ChannelFrame s t ∧ Accessible s a ∧ (MemoryOk s → MemoryOk t) := by
  unfold memWrite at h
  split at h
  · cases h
  · split at h
    · cases h
    · obtain ⟨_, u, hs, hr⟩ := Res.bind_eq_ok.mp h
      rcases send_cases [a, v] s with ⟨d, hs', -⟩ | ⟨-, d, hs'⟩ <;> rw [hs'] at hs <;> cases hs
      cases hr
      have hfr := serve_posted_frame s d (s.requests ++ [a, v] :: [])
      refine ⟨⟨hfr.1, hfr.2⟩, ?_,
        fun hm => serve_memoryOk (s := (s.setDraws d).setRequests (s.requests ++ [a, v] :: [])) hm⟩
      rename_i h1 h2
      rcases address_cases s a with ha | ha | ha
      · exact ha
      · exact absurd (privilegeRefuses_iff.mpr ha) h1
      · have := OutOfRange.not_inRange ha
        simp [this] at h2

theorem memWrite_fault {a v : Word} {s t : State} {f : FaultReport} (h : memWrite a v s = .fault f t) :
    SameRegs s t ∧ t.cpu = .faulted f ∧ AccessFault s a .write f := by
  unfold memWrite at h
  split at h
  · cases h; exact ⟨(by constructor <;> rfl), rfl, .inl ⟨rfl, privilegeRefuses_iff.mp ‹_›⟩⟩
  · split at h
    · cases h
      exact ⟨(by constructor <;> rfl), rfl, .inr (.inl ⟨rfl, .of_checks ‹_› ‹_›, by simp⟩)⟩
    · rcases Res.bind_eq_fault.mp h with h | ⟨_, u, hs, h⟩
      · rcases send_cases [a, v] s with ⟨d, hs', -⟩ | ⟨hf, d, hs'⟩ <;> rw [hs'] at h <;> cases h
        exact ⟨(by constructor <;> rfl), rfl, .inr (.inr ⟨hf, .inr ⟨_, rfl⟩⟩)⟩
      · cases h

/-- A write never blocks: it is posted (R50). -/
theorem memWrite_not_stuck {a v : Word} {s t : State} : memWrite a v s ≠ .stuck t := by
  intro h
  unfold memWrite at h
  split at h
  · cases h
  · split at h
    · cases h
    · rcases Res.bind_eq_stuck.mp h with h | ⟨_, u, hs, h⟩
      · rcases send_cases [a, v] s with ⟨d, hs', -⟩ | ⟨hf, d, hs'⟩ <;> rw [hs'] at h <;> cases h
      · cases h

/-! ### The exact result of an access where the channel is at rest -/

theorem Linked.setRequests_nil {s : State} (h : Linked s) : s.setRequests [] = s := by
  rw [← h.2.2.1]; rfl

theorem Linked.setResponses_nil {s : State} (h : Linked s) : s.setResponses [] = s := by
  rw [← h.2.2.2]; rfl

theorem Linked.quiet {s : State} (h : Linked s) : Quiet s := ⟨h.2.2.2, fun _ => h.2.2.1⟩

theorem send_linked {s : State} (h : Linked s) (m : Message) : send m s = .ok () (s.setRequests [m]) := by
  simp [send, h.1, h.2.2.1]

/-- The privilege check comes first, in every state (R46): nothing is sent. -/
theorem memRead_protected {s : State} {a : Word} (h : Protected s a) :
    memRead a s = raise (.accessViolation a .read s.pc) s := by
  rw [memRead, if_pos (privilegeRefuses_iff.mpr h)]

theorem memWrite_protected {s : State} {a : Word} (h : Protected s a) (v : Word) :
    memWrite a v s = raise (.accessViolation a .write s.pc) s := by
  rw [memWrite, if_pos (privilegeRefuses_iff.mpr h)]

/-- The range check (R48), in every state: nothing is sent. -/
theorem memRead_outOfRange {s : State} {a : Word} (h : OutOfRange s a) (hs : a ≠ Config.sentinel) :
    memRead a s = raise (.addressRange a .read s.pc) s := by
  have h2 := OutOfRange.not_inRange h
  rw [memRead, if_neg (mt privilegeRefuses_iff.mp h.1), if_neg hs, if_pos (by simpa using h2)]

theorem memWrite_outOfRange {s : State} {a : Word} (h : OutOfRange s a) (v : Word) :
    memWrite a v s = raise (.addressRange a .write s.pc) s := by
  have h2 := OutOfRange.not_inRange h
  rw [memWrite, if_neg (mt privilegeRefuses_iff.mp h.1), if_pos (by simpa using h2)]

/-- An accessible read returns the word and leaves everything (R58). -/
theorem memRead_linked {s : State} {a : Word} (h : Linked s) (ha : Accessible s a) :
    memRead a s = .ok (wordAt s a) s := by
  have h3 := Accessible.inRange ha
  rw [memRead, if_neg (mt privilegeRefuses_iff.mp (Accessible.notProtected ha)), if_neg (Accessible.ne_sentinel ha),
    if_neg (by simp [h3]), send_linked h, Res.bind_ok, serve_single (s := s.setRequests [[a]]) (m := [a]) h.2.1 rfl]
  simp [handleRequest, h.1, actOnMessage, Accessible.ne_sentinel ha, h3, reply, receive, h.2.2.2,
    State.setRequests, State.setResponses, wordAt]
  rw [← h.2.2.1, ← h.2.2.2]

/-- An accessible write stores the word as a posted write and leaves everything else (R58). -/
theorem memWrite_linked {s : State} {a : Word} (h : Linked s) (ha : Accessible s a) (v : Word) :
    memWrite a v s = .ok () (stored a v s) := by
  have h3 := Accessible.inRange ha
  rw [memWrite, if_neg (mt privilegeRefuses_iff.mp (Accessible.notProtected ha)), if_neg (by simp [h3]),
    send_linked h, Res.bind_ok, serve_single (s := s.setRequests [[a, v]]) (m := [a, v]) h.2.1 rfl]
  simp [handleRequest, h.1, actOnMessage, h3, State.setRequests, stored, State.setMem, State.setPosted]
  exact h.2.2.1

/-- A read of -1 stops the memory unit and sticks the CPU (R52). -/
theorem memRead_sentinel {s : State} (h : Linked s) :
    memRead Config.sentinel s = .stuck ((s.setMemUnit .stopped).setCpu .stuck) := by
  rw [memRead, if_neg (mt privilegeRefuses_iff.mp (sentinel_notProtected s)), if_pos rfl, send_linked h,
    Res.bind_ok, serve_single (s := s.setRequests [[Config.sentinel]]) (m := [Config.sentinel]) h.2.1 rfl]
  simp [handleRequest, h.1, actOnMessage, block, State.setRequests, State.setMemUnit, State.setCpu]
  exact h.2.2.1

/-- `Terminate` stops the memory unit (R51, R55). -/
theorem sendTerminate_linked {s : State} (h : Linked s) : sendTerminate s = .ok () (s.setMemUnit .stopped) := by
  rw [sendTerminate, send_linked h, Res.bind_ok, serve_single (s := s.setRequests [[Config.sentinel]]) (m := [Config.sentinel]) h.2.1 rfl]
  simp [handleRequest, h.1, actOnMessage, State.setRequests, State.setMemUnit]
  exact h.2.2.1

end Sys2Proof.Machine
end

