-- ==== Sys2Proof/Laws/Quiet.lean ====
section
/-! SUPPORT. What an access can do where the channel is quiet (`Quiet`): it may fail, and the memory unit may
have stopped, but no earlier message waits. -/

namespace Sys2Proof.Machine

/-- The memory unit on one read it takes: it replies and changes nothing else, or it stops. -/
theorem handleRequest_read {s : State} {a : Word} (ha : inRange s.params a = true) (hs : a ≠ Config.sentinel) :
    ∃ d, (handleRequest [a] s = (s.setDraws d).setResponses (s.responses ++ [wordAt s a]) ∧
        (s.params.channelFails = false → d = s.draws)) ∨
      (s.params.channelFails = true ∧ handleRequest [a] s = (s.setDraws d).setMemUnit .stopped) := by
  unfold handleRequest
  rcases channelDraw_cases s with h | ⟨hf, h⟩
  · rw [h]
    simp only [actOnMessage, if_neg hs, if_pos ha, reply]
    rcases channelDraw_cases s with h | ⟨hf, h⟩
    · rw [h]; exact ⟨s.draws, .inl ⟨rfl, fun _ => rfl⟩⟩
    · rw [h]
      cases Config.channelFault s.draws
      · exact ⟨_, .inl ⟨rfl, by simp [hf]⟩⟩
      · exact ⟨_, .inr ⟨hf, rfl⟩⟩
  · rw [h]
    cases Config.channelFault s.draws
    · have ha' : inRange (s.setDraws (s.draws + 1)).params a = true := ha
      simp only [actOnMessage, if_neg hs, if_pos ha', reply]
      rcases channelDraw_cases (s.setDraws (s.draws + 1)) with h | ⟨hf, h⟩
      · rw [h]; exact ⟨_, .inl ⟨rfl, by simp_all⟩⟩
      · rw [h]
        cases Config.channelFault (s.setDraws (s.draws + 1)).draws
        · exact ⟨_, .inl ⟨rfl, by simp_all⟩⟩
        · exact ⟨_, .inr ⟨hf, rfl⟩⟩
    · exact ⟨_, .inr ⟨hf, rfl⟩⟩

/-- The memory unit on one write it takes: it stores the word and changes nothing else, or it stops. -/
theorem handleRequest_write {s : State} {a v : Word} (ha : inRange s.params a = true) :
    ∃ d, (handleRequest [a, v] s = stored a v (s.setDraws d)) ∨
      (s.params.channelFails = true ∧ handleRequest [a, v] s = (s.setDraws d).setMemUnit .stopped) := by
  unfold handleRequest
  rcases channelDraw_cases s with h | ⟨hf, h⟩
  · rw [h]
    simp only [actOnMessage, if_pos ha]
    exact ⟨s.draws, .inl rfl⟩
  · rw [h]
    cases Config.channelFault s.draws
    · have ha' : inRange (s.setDraws (s.draws + 1)).params a = true := ha
      simp only [actOnMessage, if_pos ha']
      exact ⟨_, .inl rfl⟩
    · exact ⟨_, .inr ⟨hf, rfl⟩⟩

/-- The memory unit never changes its array on a message of one word. -/
theorem handleRequest_one_mem (a : Word) (s : State) : (handleRequest [a] s).mem = s.mem := by
  unfold handleRequest
  split <;> (obtain ⟨⟨d, rfl⟩, -⟩ := channelDraw_spec ‹_›)
  · rfl
  · simp only [actOnMessage]
    split
    · rfl
    · split
      · exact reply_mem _ _
      · rfl

theorem serve_one_mem {s : State} (h : Quiet s) (a : Word) (d : Nat) :
    (serve ((s.setDraws d).setRequests (s.requests ++ [a] :: []))).mem = s.mem := by
  cases hu : s.memUnit with
  | stopped => rw [serve_stopped (by exact hu)]; rfl
  | serving =>
    rw [h.2 hu, serve_single (m := [a]) (by exact hu) rfl]
    exact handleRequest_one_mem a _

/-- A read that goes on answers the word of the array and changes nothing but the draws. -/
theorem memRead_quiet {s t : State} {a v : Word} (q : Quiet s) (h : memRead a s = .ok v t) :
    v = wordAt s a ∧ s.memUnit = .serving ∧
      ∃ d, t = s.setDraws d ∧ (s.params.channelFails = false → d = s.draws) := by
  have ha := (memRead_ok h).2.1
  have hr := Accessible.inRange ha
  have hs := Accessible.ne_sentinel ha
  rw [memRead, if_neg (mt privilegeRefuses_iff.mp (Accessible.notProtected ha)), if_neg hs,
    if_neg (by simp [hr])] at h
  obtain ⟨_, u, hsend, h⟩ := Res.bind_eq_ok.mp h
  rcases send_cases [a] s with ⟨d, hs', hd⟩ | ⟨-, d, hs'⟩ <;> rw [hs'] at hsend <;> cases hsend
  cases hu : s.memUnit with
  | stopped =>
    rw [serve_stopped (by exact hu)] at h
    rcases receive_cases a ((s.setDraws d).setRequests (s.requests ++ [a] :: [])) with
      ⟨w, ws, e, hc, -⟩ | ⟨-, e, hc, -⟩ | ⟨-, e, hc⟩
    · simp [q.1] at hc
    · rw [hc] at h; cases h
    · rw [hc] at h; cases h
  | serving =>
    rw [q.2 hu, serve_single (m := [a]) (by exact hu) rfl] at h
    obtain ⟨e, ⟨he, hed⟩ | ⟨hf, he⟩⟩ :=
      handleRequest_read (s := (s.setDraws d).setRequests ([] ++ [a] :: [])) hr hs
    · rw [he] at h
      rcases receive_cases a (((((s.setDraws d).setRequests ([] ++ [a] :: [])).setDraws e).setResponses
        (((s.setDraws d).setRequests ([] ++ [a] :: [])).responses ++
          [wordAt ((s.setDraws d).setRequests ([] ++ [a] :: [])) a])).setRequests []) with
        ⟨w, ws, g, hc, hg, hgd⟩ | ⟨hc, -⟩ | ⟨-, g, hc⟩
      · rw [hg] at h
        cases h
        simp [q.1] at hc
        refine ⟨hc.1.symm, rfl, g, ?_, fun hf => ?_⟩
        · rw [hc.2]
          have h1 := q.1
          have h2 := q.2 hu
          cases s
          simp only [State.setDraws, State.setRequests, State.setResponses] at *
          simp [h1, h2]
        · have h1 := hgd hf
          have h2 := hed hf
          have h3 := hd hf
          simp at h1 h2
          omega
      · simp at hc
      · rw [hc] at h; cases h
    · rw [he] at h
      rcases receive_cases a (((((s.setDraws d).setRequests ([] ++ [a] :: [])).setDraws e).setMemUnit
        .stopped).setRequests []) with ⟨w, ws, g, hc, -⟩ | ⟨-, g, hc, -⟩ | ⟨-, g, hc⟩
      · simp [q.1] at hc
      · rw [hc] at h; cases h
      · rw [hc] at h; cases h

/-- A read whose response the CPU fails to receive, where no earlier message waits and the memory unit serves on: the
response is lost, and the read is the one in flight (log 27, log 28). -/
theorem failReceive_onlyInFlight {s : State} {a : Word} (q : AtRest s) (d e : Nat)
    (ha : inRange s.params a = true) (hs : a ≠ Config.sentinel) :
    OnlyInFlight (.channelReadError a)
      ((failReceive a ((serve ((s.setDraws d).setRequests (s.requests ++ [a] :: []))).setDraws e)).setCpu
        (.faulted (.channelReadError a))) := by
  cases hu : s.memUnit with
  | stopped =>
    rw [serve_stopped (by exact hu)]
    rcases failReceive_cases a (((s.setDraws d).setRequests (s.requests ++ [a] :: [])).setDraws e) with
      ⟨-, h⟩ | ⟨v, vs, h, -⟩
    · rw [h]; intro h'; simp [hu] at h'
    · simp [q.1.1] at h
  | serving =>
    rw [q.1.2 hu, serve_single (m := [a]) (by exact hu) rfl]
    obtain ⟨g, ⟨hg, -⟩ | ⟨-, hg⟩⟩ :=
      handleRequest_read (s := (s.setDraws d).setRequests ([] ++ [a] :: [])) ha hs
    · rw [hg]
      intro _
      simp [failReceive, q.1.1, FaultReport.unanswered]
    · rw [hg]
      intro h'
      simp [failReceive, q.1.1] at h'

/-- A read that goes on leaves the array, and the channel quiet. -/
theorem memRead_quiet_keeps {s t : State} {a v : Word} (q : Quiet s) (h : memRead a s = .ok v t) :
    t.mem = s.mem ∧ Quiet t := by
  obtain ⟨-, -, d, rfl, -⟩ := memRead_quiet q h
  exact ⟨rfl, q⟩

/-- A read that blocks leaves the array. -/
theorem memRead_quiet_stuck {s t : State} {a : Word} (q : Quiet s) (h : memRead a s = .stuck t) :
    t.mem = s.mem := by
  unfold memRead at h
  split at h
  · cases h
  · split at h
    · rcases Res.bind_eq_stuck.mp h with h | ⟨_, u, hs, h⟩
      · rcases send_cases [Config.sentinel] s with ⟨d, hs', -⟩ | ⟨hf, d, hs'⟩ <;> rw [hs'] at h <;> cases h
      · rcases send_cases [Config.sentinel] s with ⟨d, hs', -⟩ | ⟨hf, d, hs'⟩ <;> rw [hs'] at hs <;> cases hs
        cases h
        exact serve_one_mem q _ d
    · split at h
      · cases h
      · rcases Res.bind_eq_stuck.mp h with h | ⟨_, u, hs, h⟩
        · rcases send_cases [a] s with ⟨d, hs', -⟩ | ⟨hf, d, hs'⟩ <;> rw [hs'] at h <;> cases h
        · rcases send_cases [a] s with ⟨d, hs', -⟩ | ⟨hf, d, hs'⟩ <;> rw [hs'] at hs <;> cases hs
          have hm := serve_one_mem q a d
          rcases receive_cases a (serve ((s.setDraws d).setRequests (s.requests ++ [a] :: []))) with
            ⟨w, ws, e, -, hr', -⟩ | ⟨-, e, hr', -⟩ | ⟨hf, e, hr'⟩ <;> rw [hr'] at h <;> cases h
          exact hm

/-- A write that goes on stores its word, or its message is lost on a memory unit that stopped. -/
theorem memWrite_quiet {s t : State} {a v : Word} {u : Unit} (q : Quiet s) (h : memWrite a v s = .ok u t) :
    ∃ m n r p d, t = ((((s.setMem m).setMemUnit n).setRequests r).setPosted p).setDraws d ∧
      (m = Memory.write s.mem a.toNat v ∧ n = .serving ∧ r = [] ∧ p = s.posted ++ [⟨a, v, s.mem⟩] ∨
        m = s.mem ∧ n = .stopped ∧ p = s.posted) ∧
      (s.params.channelFails = false → n = s.memUnit) := by
  have ha := (memWrite_ok h).2.1
  have hr := Accessible.inRange ha
  rw [memWrite, if_neg (mt privilegeRefuses_iff.mp (Accessible.notProtected ha)), if_neg (by simp [hr])] at h
  obtain ⟨_, u, hsend, h⟩ := Res.bind_eq_ok.mp h
  rcases send_cases [a, v] s with ⟨d, hs', hd⟩ | ⟨-, d, hs'⟩ <;> rw [hs'] at hsend <;> cases hsend
  cases h
  cases hu : s.memUnit with
  | stopped =>
    rw [serve_stopped (by exact hu)]
    exact ⟨s.mem, .stopped, s.requests ++ [[a, v]], s.posted, d, by rw [← hu]; rfl, .inr ⟨rfl, rfl, rfl⟩, fun _ => rfl⟩
  | serving =>
    rw [q.2 hu, serve_single (m := [a, v]) (by exact hu) rfl]
    obtain ⟨e, he | ⟨hf, he⟩⟩ :=
      handleRequest_write (v := v) (s := (s.setDraws d).setRequests ([] ++ [a, v] :: [])) hr
    · rw [he]
      exact ⟨_, .serving, [], _, e, by rw [← hu]; rfl, .inl ⟨rfl, rfl, rfl, rfl⟩, fun _ => rfl⟩
    · rw [he]
      refine ⟨s.mem, .stopped, [], s.posted, e, rfl, .inr ⟨rfl, rfl, rfl⟩, fun h => ?_⟩
      exact absurd (h.symm.trans hf) (by simp)

/-- A write leaves the channel quiet. -/
theorem memWrite_quiet_keeps {s t : State} {a v : Word} {u : Unit} (q : Quiet s)
    (h : memWrite a v s = .ok u t) : Quiet t := by
  obtain ⟨m, n, r, p, d, rfl, hc, -⟩ := memWrite_quiet q h
  refine ⟨q.1, fun hn => ?_⟩
  rcases hc with ⟨-, -, rfl, -⟩ | ⟨-, rfl, -⟩
  · rfl
  · simp at hn

/-- A write leaves every other word. -/
theorem memWrite_quiet_other {s t : State} {a v : Word} {u : Unit} (q : Quiet s)
    (h : memWrite a v s = .ok u t) {b : Nat} (hb : b ≠ a.toNat) :
    Memory.read t.mem b = Memory.read s.mem b := by
  obtain ⟨m, n, r, p, d, rfl, ⟨rfl, -⟩ | ⟨rfl, -⟩, -⟩ := memWrite_quiet q h
  · exact Memory.read_write_other hb _ _
  · rfl

end Sys2Proof.Machine
end

