-- ==== Sys2Proof/Laws/Stack.lean ====
section
/-! SUPPORT. What the stack operations, the interrupt sequence and the return from a handler do: their exact
results where the channel is at rest, and what they can do in every state. -/

namespace Sys2Proof.Machine

/-! ### Updates that keep the channel -/

theorem Linked.of_eq {s t : State} (h : Linked s) (hp : t.params = s.params) (hu : t.memUnit = s.memUnit)
    (hq : t.requests = s.requests) (hr : t.responses = s.responses) : Linked t := by
  unfold Linked at *; rwa [hp, hu, hq, hr]

theorem Quiet.of_eq {s t : State} (h : Quiet s) (hu : t.memUnit = s.memUnit)
    (hq : t.requests = s.requests) (hr : t.responses = s.responses) : Quiet t := by
  unfold Quiet at *; rwa [hu, hq, hr]

theorem Accessible.of_eq {s t : State} {a : Word} (h : Accessible s a) (hp : t.params = s.params)
    (hk : t.kernel = s.kernel) : Accessible t a := by
  unfold Accessible at *; rwa [hp, hk]

/-! ### Where the channel is at rest -/

theorem push_linked {s : State} (h : Linked s) (v : Word) (ha : Accessible s (s.sp - 1)) :
    push v s = .ok () (stored (s.sp - 1) v (s.setSp (s.sp - 1))) :=
  memWrite_linked (s := s.setSp (s.sp - 1)) h ha v

theorem pop_linked {s : State} (h : Linked s) (ha : Accessible s s.sp) :
    pop s = .ok (wordAt s s.sp) (s.setSp (s.sp + 1)) := by
  rw [pop, memRead_linked h ha]; rfl

/-- A push that a check refuses: `SP` has been decremented (R79). -/
theorem push_protected {s : State} (v : Word) (h : Protected s (s.sp - 1)) :
    push v s = raise (.accessViolation (s.sp - 1) .write s.pc) (s.setSp (s.sp - 1)) :=
  memWrite_protected (s := s.setSp (s.sp - 1)) h v

theorem push_outOfRange {s : State} (v : Word) (h : OutOfRange s (s.sp - 1)) :
    push v s = raise (.addressRange (s.sp - 1) .write s.pc) (s.setSp (s.sp - 1)) :=
  memWrite_outOfRange (s := s.setSp (s.sp - 1)) h v

/-- A pop that a check refuses: `SP` is unchanged (R80). -/
theorem pop_protected {s : State} (h : Protected s s.sp) :
    pop s = raise (.accessViolation s.sp .read s.pc) s := by
  rw [pop, memRead_protected h]; rfl

theorem pop_outOfRange {s : State} (h : OutOfRange s s.sp) (hs : s.sp ≠ Config.sentinel) :
    pop s = raise (.addressRange s.sp .read s.pc) s := by
  rw [pop, memRead_outOfRange h hs]; rfl

theorem pop_sentinel {s : State} (hl : Linked s) (hs : s.sp = Config.sentinel) :
    pop s = .stuck ((s.setMemUnit .stopped).setCpu .stuck) := by
  rw [pop, hs, memRead_sentinel hl]; rfl

/-- The state in which the interrupt sequence entered from `s` leaves the machine (R124, R130). -/
def entered (cause : Cause) (s : State) : State :=
  enterHandler cause (stored (s.params.sysStackBase - 1 - 1) s.pc (stored (s.params.sysStackBase - 1) s.sp
    ((s.setKernel true).setSp (s.params.sysStackBase - 1 - 1))))

section Entry
variable {p : Params}

/-- R11 (c): the two words below the system stack base lie in system space. -/
theorem stack_slots (h : p.WellFormed) :
    (p.sysStackBase - 1).toInt = p.sysStackBase.toInt - 1 ∧
      (p.sysStackBase - 1 - 1).toInt = p.sysStackBase.toInt - 2 ∧
      (p.sysBase : Int) ≤ p.sysStackBase.toInt - 2 ∧ p.sysStackBase.toInt ≤ p.memWords := by
  obtain ⟨-, -, h1, h2⟩ := h
  have e1 : (p.sysStackBase - 1).toInt = p.sysStackBase.toInt - 1 := toInt_sub_one (by omega)
  have e2 : (p.sysStackBase - 1 - 1).toInt = (p.sysStackBase - 1).toInt - 1 := toInt_sub_one (by omega)
  omega

/-- In kernel mode both stack slots of an interrupt entry are accessible. -/
theorem stack_slots_accessible {s : State} (h : s.params.WellFormed) (hk : s.kernel = true) :
    Accessible s (s.params.sysStackBase - 1) ∧ Accessible s (s.params.sysStackBase - 1 - 1) := by
  have := stack_slots h
  exact ⟨⟨by omega, by omega, .inl hk⟩, ⟨by omega, by omega, .inl hk⟩⟩

end Entry

/-- The interrupt sequence in user mode (R124). -/
theorem interrupt_linked {s : State} (h : Linked s) (hw : s.params.WellFormed) (hk : s.kernel = false)
    (cause : Cause) : interrupt cause s = .ok () (entered cause s) := by
  have hk' : ((s.setKernel true).setSp s.params.sysStackBase).kernel = true := rfl
  obtain ⟨a1, a2⟩ := stack_slots_accessible (s := (s.setKernel true).setSp s.params.sysStackBase) hw hk'
  unfold interrupt
  rw [if_neg (by simp [hk]), push_linked (s := (s.setKernel true).setSp s.params.sysStackBase) h _ a1,
    Res.bind_ok]
  have h2 := push_linked (s := stored (s.params.sysStackBase - 1) s.sp
    (((s.setKernel true).setSp s.params.sysStackBase).setSp (s.params.sysStackBase - 1))) h s.pc a2
  exact (congrArg (fun r => Res.bind r fun _ u => Res.ok () (enterHandler cause u)) h2).trans rfl

/-- The interrupt sequence in kernel mode does nothing (R124), in every state. -/
theorem interrupt_kernel {s : State} (hk : s.kernel = true) (cause : Cause) : interrupt cause s = .ok () s := by
  rw [interrupt, if_pos hk]

/-! ### In every state -/

theorem push_ok {s t : State} {v : Word} {u : Unit} (h : push v s = .ok u t) :
    ChannelFrame (s.setSp (s.sp - 1)) t ∧ Accessible s (s.sp - 1) ∧ (MemoryOk s → MemoryOk t) :=
  memWrite_ok (s := s.setSp (s.sp - 1)) h

theorem push_fault {s t : State} {v : Word} {f : FaultReport} (h : push v s = .fault f t) :
    AccessFault s (s.sp - 1) .write f := (memWrite_fault (s := s.setSp (s.sp - 1)) h).2.2

theorem push_not_stuck {s t : State} {v : Word} : push v s ≠ .stuck t := memWrite_not_stuck

theorem pop_ok {s t : State} {v : Word} (h : pop s = .ok v t) :
    ChannelFrame (s.setSp (s.sp + 1)) t ∧ Accessible s s.sp ∧ (MemoryOk s → MemoryOk t) := by
  obtain ⟨w, u, hr, h⟩ := Res.bind_eq_ok.mp h
  cases h
  obtain ⟨⟨hf, hc⟩, ha, hm⟩ := memRead_ok hr
  refine ⟨⟨⟨hf.pc, ?_, hf.ir, hf.ac, hf.x, hf.y, hf.kernel, hf.timerElapsed, hf.timerLimit, hf.timerCount,
    hf.output, hf.params⟩, hc⟩, ha, hm⟩
  simp [hf.sp]

theorem pop_fault {s t : State} {f : FaultReport} (h : pop s = .fault f t) : AccessFault s s.sp .read f := by
  rcases Res.bind_eq_fault.mp h with h | ⟨_, _, -, h⟩
  · exact (memRead_fault h).2.2
  · cases h

theorem pop_stuck {s t : State} (h : pop s = .stuck t) :
    SameRegs s t ∧ t.cpu = .stuck ∧ (MemoryOk s → MemoryOk t) := by
  rcases Res.bind_eq_stuck.mp h with h | ⟨_, _, -, h⟩
  · exact memRead_stuck h
  · cases h

/-- The interrupt sequence that goes on: nothing in kernel mode, else the entry (R124). -/
theorem interrupt_ok {cause : Cause} {s t : State} {u : Unit} (h : interrupt cause s = .ok u t) :
    (s.kernel = true ∧ t = s) ∨
    (s.kernel = false ∧ ChannelFrame (enterHandler cause ((s.setKernel true).setSp
      (s.params.sysStackBase - 1 - 1))) t ∧ (MemoryOk s → MemoryOk t)) := by
  unfold interrupt at h
  split at h
  · cases h; exact .inl ⟨‹_›, rfl⟩
  · obtain ⟨_, a, h1, h⟩ := Res.bind_eq_ok.mp h
    obtain ⟨_, b, h2, h⟩ := Res.bind_eq_ok.mp h
    cases h
    obtain ⟨⟨f1, c1⟩, -, m1⟩ := push_ok h1
    obtain ⟨⟨f2, c2⟩, -, m2⟩ := push_ok h2
    have hp : b.params = s.params := by rw [f2.params]; exact f1.params
    refine .inr ⟨by simpa using ‹¬ s.kernel = true›, ⟨?_, ?_⟩, fun hm => ?_⟩
    · cases cause <;> constructor <;>
        simp [enterHandler, f2.sp, f2.ir, f2.ac, f2.x, f2.y, f2.kernel, f2.timerElapsed, f2.timerLimit,
          f2.timerCount, f2.output, f2.params, f1.sp, f1.ir, f1.ac, f1.x, f1.y, f1.kernel,
          f1.timerElapsed, f1.timerLimit, f1.timerCount, f1.output, f1.params]
    · have : b.cpu = s.cpu := by rw [c2]; exact c1
      cases cause <;> simp [enterHandler, this]
    · have := m2 (m1 hm)
      cases cause <;> exact this

/-- A fault of the interrupt sequence comes from one of its two pushes, made in kernel mode. -/
theorem interrupt_fault {cause : Cause} {s t : State} {f : FaultReport} (h : interrupt cause s = .fault f t) :
    ∃ u a, u.kernel = true ∧ u.params = s.params ∧ AccessFault u a .write f ∧
      (a = s.params.sysStackBase - 1 ∨ a = s.params.sysStackBase - 1 - 1) := by
  unfold interrupt at h
  split at h
  · cases h
  · rcases Res.bind_eq_fault.mp h with h | ⟨_, b, h1, h⟩
    · exact ⟨(s.setKernel true).setSp s.params.sysStackBase, _, rfl, rfl, push_fault h, .inl rfl⟩
    · rcases Res.bind_eq_fault.mp h with h | ⟨_, _, -, h⟩
      · obtain ⟨⟨f1, -⟩, -⟩ := push_ok h1
        refine ⟨b, _, ?_, ?_, push_fault h, .inr ?_⟩
        · rw [f1.kernel]; rfl
        · rw [f1.params]; rfl
        · rw [f1.sp]; rfl
      · cases h

theorem interrupt_not_stuck {cause : Cause} {s t : State} : interrupt cause s ≠ .stuck t := by
  intro h
  unfold interrupt at h
  split at h
  · cases h
  · rcases Res.bind_eq_stuck.mp h with h | ⟨_, b, -, h⟩
    · exact push_not_stuck h
    · rcases Res.bind_eq_stuck.mp h with h | ⟨_, _, -, h⟩
      · exact push_not_stuck h
      · cases h

/-- The return from a handler that goes on (R120). -/
theorem returnFromHandler_ok {s t : State} {u : Unit} (h : returnFromHandler s = .ok u t) :
    ∃ pc sp, ChannelFrame (((s.setPc pc).setSp sp).setKernel false) t ∧ (MemoryOk s → MemoryOk t) := by
  obtain ⟨v, a, h1, h⟩ := Res.bind_eq_ok.mp h
  obtain ⟨w, b, h2, h⟩ := Res.bind_eq_ok.mp h
  cases h
  obtain ⟨⟨f1, c1⟩, -, m1⟩ := pop_ok h1
  obtain ⟨⟨f2, c2⟩, -, m2⟩ := pop_ok h2
  refine ⟨v, w, ⟨?_, by rw [State.setKernel_cpu, State.setSp_cpu, c2]; exact c1⟩, fun hm => m2 (m1 hm)⟩
  constructor <;> simp [f2.pc, f2.ir, f2.ac, f2.x, f2.y, f2.timerElapsed, f2.timerLimit,
    f2.timerCount, f2.output, f2.params, f1.ir, f1.ac, f1.x, f1.y, f1.timerElapsed, f1.timerLimit, f1.timerCount,
    f1.output, f1.params]

/-- A fault of the return comes from one of its two pops, in the mode the return was run in. -/
theorem returnFromHandler_fault {s t : State} {f : FaultReport} (h : returnFromHandler s = .fault f t) :
    ∃ u a, u.kernel = s.kernel ∧ u.params = s.params ∧ AccessFault u a .read f := by
  rcases Res.bind_eq_fault.mp h with h | ⟨v, a, h1, h⟩
  · exact ⟨s, _, rfl, rfl, pop_fault h⟩
  · rcases Res.bind_eq_fault.mp h with h | ⟨_, _, -, h⟩
    · obtain ⟨⟨f1, -⟩, -⟩ := pop_ok h1
      exact ⟨a.setPc v, _, f1.kernel, f1.params, pop_fault h⟩
    · cases h

/-- A return that blocks has written at most `PC` and `SP`. -/
theorem returnFromHandler_stuck {s t : State} (h : returnFromHandler s = .stuck t) :
    (∃ pc sp, SameRegs ((s.setPc pc).setSp sp) t) ∧ t.cpu = .stuck ∧ (MemoryOk s → MemoryOk t) := by
  rcases Res.bind_eq_stuck.mp h with h | ⟨v, a, h1, h⟩
  · obtain ⟨hf, hc, hm⟩ := pop_stuck h
    exact ⟨⟨s.pc, s.sp, by simpa using hf⟩, hc, hm⟩
  · rcases Res.bind_eq_stuck.mp h with h | ⟨_, _, -, h⟩
    · obtain ⟨⟨f1, -⟩, -, m1⟩ := pop_ok h1
      obtain ⟨f2, hc, m2⟩ := pop_stuck h
      refine ⟨⟨v, s.sp + 1, ?_⟩, hc, fun hm => m2 (m1 hm)⟩
      constructor <;> simp [f2.pc, f2.sp, f2.ir, f2.ac, f2.x, f2.y, f2.kernel, f2.timerElapsed, f2.timerLimit,
        f2.timerCount, f2.output, f2.params, f1.sp, f1.ir, f1.ac, f1.x, f1.y, f1.kernel, f1.timerElapsed,
        f1.timerLimit, f1.timerCount, f1.output, f1.params]
    · cases h

end Sys2Proof.Machine
end

