-- ==== Sys2Proof/Laws/Cycle.lean ====
section
/-! SUPPORT. What an instruction and a step can do, in every state: the inversion lemmas that the invariants
cite instead of unfolding `exec` and `step`. -/

namespace Sys2Proof.Machine

/-! ### One instruction -/

/-- What no instruction changes: `IR`, the timer, the parameters, the form of the memory. -/
structure ExecFrame (s t : State) : Prop where
  ir : t.ir = s.ir
  timerElapsed : t.timerElapsed = s.timerElapsed
  timerLimit : t.timerLimit = s.timerLimit
  timerCount : t.timerCount = s.timerCount
  params : t.params = s.params
  memoryOk : MemoryOk s → MemoryOk t

theorem ExecFrame.of_sameRegs {s r t : State} (h : SameRegs r t) (hm : MemoryOk s → MemoryOk t)
    (hir : r.ir = s.ir := by rfl) (hte : r.timerElapsed = s.timerElapsed := by rfl)
    (htl : r.timerLimit = s.timerLimit := by rfl) (htc : r.timerCount = s.timerCount := by rfl)
    (hp : r.params = s.params := by rfl) : ExecFrame s t :=
  ⟨h.ir.trans hir, h.timerElapsed.trans hte, h.timerLimit.trans htl, h.timerCount.trans htc,
    h.params.trans hp, hm⟩

theorem loadAc_ok {a : Word} {s t : State} {u : Unit} (h : loadAc a s = .ok u t) :
    (∃ v, memRead a s = .ok v (t.setAc s.ac) ∧ ChannelFrame (s.setAc v) t) ∧ Accessible s a ∧
      (MemoryOk s → MemoryOk t) := by
  obtain ⟨v, w, hr, h⟩ := Res.bind_eq_ok.mp h
  cases h
  obtain ⟨⟨f, c⟩, ha, hm⟩ := memRead_ok hr
  refine ⟨⟨v, ?_, ?_, by rw [State.setAc_cpu, c]; rfl⟩, ha, hm⟩
  · rw [State.setAc_setAc, ← f.ac, State.setAc_self, hr]
  · constructor <;> simp [f.pc, f.sp, f.ir, f.x, f.y, f.kernel, f.timerElapsed, f.timerLimit, f.timerCount,
      f.output, f.params]

theorem loadAc_fault {a : Word} {s t : State} {f : FaultReport} (h : loadAc a s = .fault f t) :
    AccessFault s a .read f := by
  rcases Res.bind_eq_fault.mp h with h | ⟨_, _, -, h⟩
  · exact (memRead_fault h).2.2
  · cases h

theorem loadAc_stuck {a : Word} {s t : State} (h : loadAc a s = .stuck t) :
    SameRegs s t ∧ t.cpu = .stuck ∧ (MemoryOk s → MemoryOk t) := by
  rcases Res.bind_eq_stuck.mp h with h | ⟨_, _, -, h⟩
  · exact memRead_stuck h
  · cases h

theorem sendTerminate_ok {s t : State} {u : Unit} (h : sendTerminate s = .ok u t) :
    ChannelFrame s t ∧ (MemoryOk s → MemoryOk t) := by
  obtain ⟨_, w, hs, h⟩ := Res.bind_eq_ok.mp h
  rcases send_cases [Config.sentinel] s with ⟨d, hs', -⟩ | ⟨-, d, hs'⟩ <;> rw [hs'] at hs <;> cases hs
  cases h
  exact ⟨serve_posted_frame s d _,
    fun hm => serve_memoryOk (s := (s.setDraws d).setRequests (s.requests ++ [Config.sentinel] :: [])) hm⟩

theorem sendTerminate_not_stuck {s t : State} : sendTerminate s ≠ .stuck t := by
  intro h
  rcases Res.bind_eq_stuck.mp h with h | ⟨_, _, -, h⟩
  · rcases send_cases [Config.sentinel] s with ⟨d, hs', -⟩ | ⟨-, d, hs'⟩ <;> rw [hs'] at h <;> cases h
  · cases h

/-- The run state after an instruction that answers a next state: as it was, `stuck`, or `halted` by opcode
50. -/
def ExecRun (i : Instr) (s t : State) : Prop :=
  t.cpu = .stuck ∨ (i ≠ .terminate ∧ t.cpu = s.cpu) ∨ (i = .terminate ∧ t.cpu = .halted)

theorem exec_load {i : Instr} {a : Word} {s r t : State} (hi : i ≠ .terminate) (hr : ChannelFrame s r)
    (hrm : MemoryOk s → MemoryOk r) (h : (loadAc a r).outcome = .next t) :
    ExecFrame s t ∧ ExecRun i s t := by
  have e : ExecFrame s r := .of_sameRegs hr.1 hrm
  rcases Res.outcome_eq_next.mp h with h | h
  · obtain ⟨⟨v, -, f, c⟩, -, m⟩ := loadAc_ok h
    exact ⟨⟨f.ir.trans e.ir, f.timerElapsed.trans e.timerElapsed, f.timerLimit.trans e.timerLimit,
      f.timerCount.trans e.timerCount, f.params.trans e.params, fun hm => m (hrm hm)⟩,
      .inr (.inl ⟨hi, c.trans hr.2⟩)⟩
  · obtain ⟨f, c, m⟩ := loadAc_stuck h
    exact ⟨.of_sameRegs (hr.1.trans f) fun hm => m (hrm hm), .inl c⟩

/-- What an instruction that answers a next state keeps, and the run state it leaves. -/
theorem exec_next {i : Instr} {s t : State} (h : exec i s = .next t) : ExecFrame s t ∧ ExecRun i s t := by
  cases i with
  | loadValue n => cases h; exact ⟨⟨rfl, rfl, rfl, rfl, rfl, id⟩, .inr (.inl ⟨by simp, rfl⟩)⟩
  | loadAddr n => exact exec_load (by simp) ⟨by constructor <;> rfl, rfl⟩ id h
  | loadInd n =>
    simp only [exec, execLoadInd, indirectAddr] at h
    rcases Res.outcome_eq_next.mp h with h | h
    · obtain ⟨b, r, h1, h2⟩ := Res.bind_eq_ok.mp h
      obtain ⟨hf, -, hm⟩ := memRead_ok h1
      exact exec_load (by simp) hf hm (by rw [h2]; rfl)
    · rcases Res.bind_eq_stuck.mp h with h | ⟨b, r, h1, h2⟩
      · obtain ⟨f, c, m⟩ := memRead_stuck h
        exact ⟨.of_sameRegs f m, .inl c⟩
      · obtain ⟨hf, -, hm⟩ := memRead_ok h1
        exact exec_load (by simp) hf hm (by rw [h2]; rfl)
  | loadIdxX n => exact exec_load (by simp) ⟨by constructor <;> rfl, rfl⟩ id h
  | loadIdxY n => exact exec_load (by simp) ⟨by constructor <;> rfl, rfl⟩ id h
  | loadSpX => exact exec_load (by simp) ⟨by constructor <;> rfl, rfl⟩ id h
  | store n =>
    rcases Res.outcome_eq_next.mp h with h | h
    · obtain ⟨⟨f, c⟩, -, m⟩ := memWrite_ok h
      exact ⟨.of_sameRegs f m, .inr (.inl ⟨by simp, c⟩)⟩
    · exact absurd h memWrite_not_stuck
  | get => cases h; exact ⟨⟨rfl, rfl, rfl, rfl, rfl, id⟩, .inr (.inl ⟨by simp, rfl⟩)⟩
  | put q =>
    simp only [exec, execPut] at h
    split at h
    · cases h; exact ⟨⟨rfl, rfl, rfl, rfl, rfl, id⟩, .inr (.inl ⟨by simp, rfl⟩)⟩
    · split at h <;> cases h <;> exact ⟨⟨rfl, rfl, rfl, rfl, rfl, id⟩, .inr (.inl ⟨by simp, rfl⟩)⟩
  | addX => cases h; exact ⟨⟨rfl, rfl, rfl, rfl, rfl, id⟩, .inr (.inl ⟨by simp, rfl⟩)⟩
  | addY => cases h; exact ⟨⟨rfl, rfl, rfl, rfl, rfl, id⟩, .inr (.inl ⟨by simp, rfl⟩)⟩
  | subX => cases h; exact ⟨⟨rfl, rfl, rfl, rfl, rfl, id⟩, .inr (.inl ⟨by simp, rfl⟩)⟩
  | subY => cases h; exact ⟨⟨rfl, rfl, rfl, rfl, rfl, id⟩, .inr (.inl ⟨by simp, rfl⟩)⟩
  | copyToX => cases h; exact ⟨⟨rfl, rfl, rfl, rfl, rfl, id⟩, .inr (.inl ⟨by simp, rfl⟩)⟩
  | copyFromX => cases h; exact ⟨⟨rfl, rfl, rfl, rfl, rfl, id⟩, .inr (.inl ⟨by simp, rfl⟩)⟩
  | copyToY => cases h; exact ⟨⟨rfl, rfl, rfl, rfl, rfl, id⟩, .inr (.inl ⟨by simp, rfl⟩)⟩
  | copyFromY => cases h; exact ⟨⟨rfl, rfl, rfl, rfl, rfl, id⟩, .inr (.inl ⟨by simp, rfl⟩)⟩
  | copyToSp => cases h; exact ⟨⟨rfl, rfl, rfl, rfl, rfl, id⟩, .inr (.inl ⟨by simp, rfl⟩)⟩
  | copyFromSp => cases h; exact ⟨⟨rfl, rfl, rfl, rfl, rfl, id⟩, .inr (.inl ⟨by simp, rfl⟩)⟩
  | jump a => cases h; exact ⟨⟨rfl, rfl, rfl, rfl, rfl, id⟩, .inr (.inl ⟨by simp, rfl⟩)⟩
  | jumpIfEqual a =>
    simp only [exec, execJumpIfEqual] at h
    split at h <;> cases h <;> exact ⟨⟨rfl, rfl, rfl, rfl, rfl, id⟩, .inr (.inl ⟨by simp, rfl⟩)⟩
  | jumpIfNotEqual a =>
    simp only [exec, execJumpIfNotEqual] at h
    split at h <;> cases h <;> exact ⟨⟨rfl, rfl, rfl, rfl, rfl, id⟩, .inr (.inl ⟨by simp, rfl⟩)⟩
  | call a =>
    rcases Res.outcome_eq_next.mp h with h | h
    · obtain ⟨_, r, h1, h⟩ := Res.bind_eq_ok.mp h
      cases h
      obtain ⟨⟨f, c⟩, -, m⟩ := push_ok h1
      exact ⟨⟨f.ir, f.timerElapsed, f.timerLimit, f.timerCount, f.params, m⟩, .inr (.inl ⟨by simp, c⟩)⟩
    · rcases Res.bind_eq_stuck.mp h with h | ⟨_, _, -, h⟩
      · exact absurd h push_not_stuck
      · cases h
  | ret =>
    rcases Res.outcome_eq_next.mp h with h | h
    · obtain ⟨_, r, h1, h⟩ := Res.bind_eq_ok.mp h
      cases h
      obtain ⟨⟨f, c⟩, -, m⟩ := pop_ok h1
      exact ⟨⟨f.ir, f.timerElapsed, f.timerLimit, f.timerCount, f.params, m⟩, .inr (.inl ⟨by simp, c⟩)⟩
    · rcases Res.bind_eq_stuck.mp h with h | ⟨_, _, -, h⟩
      · obtain ⟨f, c, m⟩ := pop_stuck h
        exact ⟨.of_sameRegs f m, .inl c⟩
      · cases h
  | incX => cases h; exact ⟨⟨rfl, rfl, rfl, rfl, rfl, id⟩, .inr (.inl ⟨by simp, rfl⟩)⟩
  | decX => cases h; exact ⟨⟨rfl, rfl, rfl, rfl, rfl, id⟩, .inr (.inl ⟨by simp, rfl⟩)⟩
  | push =>
    rcases Res.outcome_eq_next.mp h with h | h
    · obtain ⟨⟨f, c⟩, -, m⟩ := push_ok h
      exact ⟨⟨f.ir, f.timerElapsed, f.timerLimit, f.timerCount, f.params, m⟩, .inr (.inl ⟨by simp, c⟩)⟩
    · exact absurd h push_not_stuck
  | pop =>
    rcases Res.outcome_eq_next.mp h with h | h
    · obtain ⟨_, r, h1, h⟩ := Res.bind_eq_ok.mp h
      cases h
      obtain ⟨⟨f, c⟩, -, m⟩ := pop_ok h1
      exact ⟨⟨f.ir, f.timerElapsed, f.timerLimit, f.timerCount, f.params, m⟩, .inr (.inl ⟨by simp, c⟩)⟩
    · rcases Res.bind_eq_stuck.mp h with h | ⟨_, _, -, h⟩
      · obtain ⟨f, c, m⟩ := pop_stuck h
        exact ⟨.of_sameRegs f m, .inl c⟩
      · cases h
  | softwareInterrupt =>
    rcases Res.outcome_eq_next.mp h with h | h
    · rcases interrupt_ok h with ⟨-, rfl⟩ | ⟨-, ⟨f, c⟩, m⟩
      · exact ⟨⟨rfl, rfl, rfl, rfl, rfl, id⟩, .inr (.inl ⟨by simp, rfl⟩)⟩
      · exact ⟨⟨f.ir, f.timerElapsed, f.timerLimit, f.timerCount, f.params, m⟩, .inr (.inl ⟨by simp, c⟩)⟩
    · exact absurd h interrupt_not_stuck
  | returnFromInterrupt =>
    rcases Res.outcome_eq_next.mp h with h | h
    · obtain ⟨_, _, ⟨f, c⟩, m⟩ := returnFromHandler_ok h
      exact ⟨⟨f.ir, f.timerElapsed, f.timerLimit, f.timerCount, f.params, m⟩, .inr (.inl ⟨by simp, c⟩)⟩
    · obtain ⟨⟨_, _, f⟩, c, m⟩ := returnFromHandler_stuck h
      exact ⟨⟨f.ir, f.timerElapsed, f.timerLimit, f.timerCount, f.params, m⟩, .inl c⟩
  | terminate =>
    rcases Res.outcome_eq_next.mp h with h | h
    · obtain ⟨_, r, h1, h⟩ := Res.bind_eq_ok.mp h
      cases h
      obtain ⟨⟨f, -⟩, m⟩ := sendTerminate_ok h1
      exact ⟨⟨f.ir, f.timerElapsed, f.timerLimit, f.timerCount, f.params, m⟩, .inr (.inr ⟨rfl, rfl⟩)⟩
    · rcases Res.bind_eq_stuck.mp h with h | ⟨_, _, -, h⟩
      · exact absurd h sendTerminate_not_stuck
      · cases h

/-- No instruction is refused: each has its meaning in every state. -/
theorem exec_not_refused (i : Instr) (s : State) (x : Refusal) : exec i s ≠ .refused x := by
  cases i <;> simp only [exec] <;> try exact Res.outcome_ne_refused _ _
  all_goals first
    | (intro h; cases h)
    | (simp only [execPut, execJumpIfEqual, execJumpIfNotEqual]; repeat' split) <;> (intro h; cases h)

/-! ### The timer phase and the fetch -/

theorem reloadTimer_expired {s : State} (h : s.timerCount.toInt ≤ 0) :
    reloadTimer s = (s.setTimerCount s.timerLimit).setTimerElapsed true := by
  simp [reloadTimer, timerExpired, h]

theorem reloadTimer_running {s : State} (h : 0 < s.timerCount.toInt) : reloadTimer s = s := by
  simp [reloadTimer, timerExpired]; omega

theorem reloadTimer_cases (s : State) :
    (s.timerCount.toInt ≤ 0 ∧ reloadTimer s = (s.setTimerCount s.timerLimit).setTimerElapsed true) ∨
    (0 < s.timerCount.toInt ∧ reloadTimer s = s) := by
  rcases Int.lt_or_le 0 s.timerCount.toInt with h | h
  · exact .inr ⟨h, reloadTimer_running h⟩
  · exact .inl ⟨h, reloadTimer_expired h⟩

/-- What the timer phase leaves, its effect on `kernel`, `PC` and `SP` apart. -/
structure TimerFrame (s t : State) : Prop where
  ir : t.ir = s.ir
  ac : t.ac = s.ac
  x : t.x = s.x
  y : t.y = s.y
  timerLimit : t.timerLimit = s.timerLimit
  timerCount : t.timerCount = if s.timerCount.toInt ≤ 0 then s.timerLimit else s.timerCount
  output : t.output = s.output
  params : t.params = s.params
  cpu : t.cpu = s.cpu
  memoryOk : MemoryOk s → MemoryOk t

theorem reloadTimer_frame (s : State) : TimerFrame s (reloadTimer s) := by
  rcases reloadTimer_cases s with ⟨h, e⟩ | ⟨h, e⟩ <;> rw [e]
  · exact ⟨rfl, rfl, rfl, rfl, rfl, by simp [h], rfl, rfl, rfl, id⟩
  · exact ⟨rfl, rfl, rfl, rfl, rfl, by rw [if_neg (by omega)], rfl, rfl, rfl, id⟩

/-- The timer phase that goes on: it enters the timer handler from user mode with the timer due or pending,
and in every other state it changes at most the timer. -/
theorem timerPhase_ok {s t : State} {u : Unit} (h : timerPhase s = .ok u t) :
    TimerFrame s t ∧
    ((TimerTaken s ∧ t.kernel = true ∧ t.timerElapsed = false ∧ t.pc = s.params.timerVec) ∨
     (¬ TimerTaken s ∧ t = reloadTimer s ∧ t.kernel = s.kernel ∧ t.pc = s.pc ∧ t.sp = s.sp ∧ t.mem = s.mem)) := by
  have hf := reloadTimer_frame s
  have htaken : (reloadTimer s).timerElapsed = true ↔ s.timerCount.toInt ≤ 0 ∨ s.timerElapsed = true := by
    rcases reloadTimer_cases s with ⟨h, e⟩ | ⟨h, e⟩ <;> rw [e]
    · simp [h]
    · constructor
      · exact .inr
      · rintro (h' | h')
        · omega
        · exact h'
  have hk : (reloadTimer s).kernel = s.kernel := by
    rcases reloadTimer_cases s with ⟨_, e⟩ | ⟨_, e⟩ <;> rw [e] <;> rfl
  have hsame : (reloadTimer s).pc = s.pc ∧ (reloadTimer s).sp = s.sp ∧ (reloadTimer s).mem = s.mem := by
    rcases reloadTimer_cases s with ⟨_, e⟩ | ⟨_, e⟩ <;> rw [e] <;> exact ⟨rfl, rfl, rfl⟩
  unfold timerPhase at h
  split at h
  · rename_i he
    rcases interrupt_ok h with ⟨h1, rfl⟩ | ⟨h1, ⟨f, c⟩, m⟩
    · refine ⟨hf, .inr ⟨fun ht => ?_, rfl, hk, hsame⟩⟩
      rw [hk, ht.1] at h1; cases h1
    · refine ⟨⟨f.ir.trans hf.ir, f.ac.trans hf.ac, f.x.trans hf.x, f.y.trans hf.y, f.timerLimit.trans hf.timerLimit,
        f.timerCount.trans hf.timerCount, f.output.trans hf.output, f.params.trans hf.params, c.trans hf.cpu,
        fun hm => m (hf.memoryOk hm)⟩, .inl ⟨⟨by rw [← hk]; exact h1, htaken.mp he⟩, f.kernel, f.timerElapsed, ?_⟩⟩
      rw [f.pc]; exact congrArg Params.timerVec hf.params
  · rename_i he
    cases h
    exact ⟨hf, .inr ⟨fun ht => he (htaken.mpr ht.2), rfl, hk, hsame⟩⟩

theorem timerPhase_fault {s t : State} {f : FaultReport} (h : timerPhase s = .fault f t) :
    ∃ u a, u.kernel = true ∧ u.params = s.params ∧ AccessFault u a .write f ∧
      (a = s.params.sysStackBase - 1 ∨ a = s.params.sysStackBase - 1 - 1) := by
  unfold timerPhase at h
  split at h
  · have := interrupt_fault h
    rwa [(reloadTimer_frame s).params] at this
  · cases h

theorem timerPhase_not_stuck {s t : State} : timerPhase s ≠ .stuck t := by
  unfold timerPhase
  split
  · exact interrupt_not_stuck
  · simp

/-- With no timer event the timer phase does nothing. -/
theorem timerPhase_none {s : State} (h : NoTimerEvent s) : timerPhase s = .ok () s := by
  unfold timerPhase
  rw [reloadTimer_running h.1]
  split
  · exact interrupt_kernel (h.2.resolve_right (by simp_all)) _
  · rfl

/-- The fetch of an accessible word with no timer event and the channel at rest (R76). -/
theorem fetch_linked {s : State} (h : Linked s) (hn : NoTimerEvent s) (ha : Accessible s s.pc) :
    fetch s = .ok () (fetched s (wordAt s s.pc)) := by
  rw [fetch, timerPhase_none hn, Res.bind_ok, readOpcode, memRead_linked h ha]
  rfl

/-- The operand read of a two-word opcode with the channel at rest (R78). -/
theorem decodeIr_two {s : State} (h : Linked s) (h2 : isTwoWord s.ir = true) (ha : Accessible s s.pc) :
    decodeIr s = .ok (decodeInstr s.ir (wordAt s s.pc)) (s.setPc (s.pc + 1)) := by
  rw [decodeIr, if_pos h2, getArgument, memRead_linked h ha]
  rfl

theorem decodeIr_one {s : State} (h1 : isTwoWord s.ir = false) :
    decodeIr s = .ok (decodeInstr s.ir 0) s := by
  rw [decodeIr, if_neg (by simp [h1])]

theorem readOpcode_ok {s t : State} {u : Unit} (h : readOpcode s = .ok u t) :
    ∃ w r, memRead s.pc s = .ok w r ∧ t = fetched r w := by
  obtain ⟨w, r, h1, h⟩ := Res.bind_eq_ok.mp h
  cases h
  exact ⟨w, r, h1, rfl⟩

theorem decodeIr_ok {s t : State} {d : Option Instr} (h : decodeIr s = .ok d t) :
    (isTwoWord s.ir = false ∧ d = decodeInstr s.ir 0 ∧ t = s) ∨
    (isTwoWord s.ir = true ∧ ∃ v r, memRead s.pc s = .ok v r ∧ d = decodeInstr s.ir v ∧ t = r.setPc (r.pc + 1)) := by
  unfold decodeIr at h
  split at h
  · obtain ⟨v, r, h1, h⟩ := Res.bind_eq_ok.mp h
    cases h
    obtain ⟨w, r', h2, h⟩ := Res.bind_eq_ok.mp h1
    cases h
    exact .inr ⟨‹_›, _, _, h2, rfl, rfl⟩
  · cases h; exact .inl ⟨by simpa using ‹¬ isTwoWord s.ir = true›, rfl, rfl⟩

theorem decodeIr_fault {s t : State} {f : FaultReport} (h : decodeIr s = .fault f t) : AccessFault s s.pc .read f := by
  unfold decodeIr at h
  split at h
  · rcases Res.bind_eq_fault.mp h with h | ⟨_, _, -, h⟩
    · rcases Res.bind_eq_fault.mp h with h | ⟨_, _, -, h⟩
      · exact (memRead_fault h).2.2
      · cases h
    · cases h
  · cases h

theorem decodeIr_stuck {s t : State} (h : decodeIr s = .stuck t) : memRead s.pc s = .stuck t := by
  unfold decodeIr at h
  split at h
  · rcases Res.bind_eq_stuck.mp h with h | ⟨_, _, -, h⟩
    · rcases Res.bind_eq_stuck.mp h with h | ⟨_, _, -, h⟩
      · exact h
      · cases h
    · cases h
  · cases h

/-! ### One step -/

/-- `perform(IR)` (R77): the instruction decoded, or the no-op of an unlisted opcode. -/
def perform (d : Option Instr) (s : State) : Host.Outcome State Fault Refusal :=
  match d with
  | some i => exec i s
  | none => execUnlisted s

theorem perform_next {d : Option Instr} {s t : State} (h : perform d s = .next t) :
    ExecFrame s t ∧ (t.cpu = .stuck ∨ t.cpu = s.cpu ∨ (d = some .terminate ∧ t.cpu = .halted)) := by
  cases d with
  | none => cases h; exact ⟨⟨rfl, rfl, rfl, rfl, rfl, id⟩, .inr (.inl rfl)⟩
  | some i =>
    obtain ⟨e, r⟩ := exec_next h
    refine ⟨e, ?_⟩
    rcases r with r | ⟨-, r⟩ | ⟨rfl, r⟩
    · exact .inl r
    · exact .inr (.inl r)
    · exact .inr (.inr ⟨rfl, r⟩)

theorem perform_not_refused (d : Option Instr) (s : State) (x : Refusal) : perform d s ≠ .refused x := by
  cases d with
  | none => simp [perform, execUnlisted]
  | some i => exact exec_not_refused i s x

/-- A step is the timer phase, the opcode read, the operand read and `perform`, in this order; the first that
faults or blocks ends it (R75). -/
theorem step_running {s : State} (h : s.cpu = .running) :
    step s = match ((timerPhase s).bind fun _ t => readOpcode t).bind fun _ t => decodeIr t with
      | .ok d t => finish (perform d t)
      | .fault r t => .fault (.raised r (abandon t))
      | .stuck t => .next t := by
  simp only [step, oneStep, h, cycle, fetch]
  cases timerPhase s with
  | fault f t => rfl
  | stuck t => rfl
  | ok u t =>
    simp only [Res.bind_ok]
    cases readOpcode t with
    | fault f t => rfl
    | stuck t => rfl
    | ok u t =>
      simp only [Res.bind_ok, execute]
      cases decodeIr t with
      | fault f t => rfl
      | stuck t => rfl
      | ok d t => cases d <;> rfl

/-- The three ways a step answers a next state: the opcode read blocks, the operand read blocks, or the
instruction is performed and `timerCount` ticks. -/
theorem step_next {s t : State} (h : step s = .next t) :
    s.cpu = .running ∧ ∃ a, timerPhase s = .ok () a ∧
      (memRead a.pc a = .stuck t ∨
       ∃ w b, memRead a.pc a = .ok w b ∧
        (memRead (b.pc + 1) (fetched b w) = .stuck t ∨
         ∃ d c r, decodeIr (fetched b w) = .ok d c ∧ perform d c = .next r ∧ t = tick r)) := by
  have hr : s.cpu = .running := by
    unfold step oneStep at h
    split at h
    · assumption
    all_goals cases h
  refine ⟨hr, ?_⟩
  rw [step_running hr] at h
  cases hp : timerPhase s with
  | fault f a => rw [hp] at h; cases h
  | stuck a => exact absurd hp timerPhase_not_stuck
  | ok u a =>
    refine ⟨a, rfl, ?_⟩
    rw [hp, Res.bind_ok] at h
    unfold readOpcode at h
    cases hm : memRead a.pc a with
    | fault f b => rw [hm] at h; cases h
    | stuck b => rw [hm] at h; cases h; exact .inl rfl
    | ok w b =>
      rw [hm, Res.bind_ok, Res.bind_ok] at h
      refine .inr ⟨w, b, rfl, ?_⟩
      cases hd : decodeIr (fetched b w) with
      | fault f c => rw [hd] at h; cases h
      | stuck c => rw [hd] at h; cases h; exact .inl (decodeIr_stuck hd)
      | ok d c =>
        rw [hd] at h
        change finish (perform d c) = .next t at h
        cases hx : perform d c with
        | next r => rw [hx] at h; cases h; exact .inr ⟨d, c, r, rfl, hx, rfl⟩
        | fault f => rw [hx] at h; cases h
        | refused x => rw [hx] at h; cases h

/-- The step of a one-word opcode, listed or not, with no timer event and the channel at rest. -/
theorem step_oneWord {s : State} {op : Word} (hop : isTwoWord op = false) (h : AtOpcode s op) :
    step s = finish (perform (decodeInstr op 0) (fetched s op)) := by
  obtain ⟨hr, hl, hn, ha, rfl⟩ := h
  rw [step_running hr, timerPhase_none hn, Res.bind_ok, readOpcode, memRead_linked hl ha, Res.bind_ok,
    Res.bind_ok, decodeIr_one (by exact hop)]
  rfl

/-- The step of a two-word opcode whose operand is accessible. -/
theorem step_twoWord {s : State} {op : Word} (hop : isTwoWord op = true) (h : AtOpcode s op)
    (h2 : Accessible s (s.pc + 1)) :
    step s = finish (perform (decodeInstr op (wordAt s (s.pc + 1))) ((fetched s op).setPc (s.pc + 2))) := by
  obtain ⟨hr, hl, hn, ha, rfl⟩ := h
  have e : s.pc + 1 + 1 = s.pc + 2 := by rw [BitVec.add_assoc]; rfl
  rw [step_running hr, timerPhase_none hn, Res.bind_ok, readOpcode, memRead_linked hl ha, Res.bind_ok,
    Res.bind_ok, decodeIr_two (s := fetched s (wordAt s s.pc)) hl (by exact hop) (by exact h2)]
  simp only [fetched_pc, e]
  rfl

end Sys2Proof.Machine
end

