-- ==== Sys2Proof/Laws/Fault.lean ====
section
/-! SUPPORT. What a fault leaves (R144, R59), and what the host's stop of the memory unit makes of it. -/

namespace Sys2Proof.Machine

/-! ### What is kept outside the registers, on the way and at a fault -/

/-- `t` has the output and the parameters of `s`, its array and posted writes in order if `s` has, and its channel
as that of a linked or of a running CPU if `s` has. -/
structure Keeps (s t : State) : Prop where
  output : t.output = s.output
  params : t.params = s.params
  memoryOk : MemoryOk s → MemoryOk t
  linked : Linked s → Linked t
  atRest : AtRest s → AtRest t

/-- What a fault reported as `r` leaves of an operation begun in `s` (R144). -/
structure FaultKeeps (s : State) (r : FaultReport) (t : State) : Prop where
  cpu : t.cpu = .faulted r
  output : t.output = s.output
  params : t.params = s.params
  memoryOk : MemoryOk s → MemoryOk t
  linked : Linked s → Linked t
  onlyInFlight : AtRest s → OnlyInFlight r t

theorem Keeps.refl (s : State) : Keeps s s := ⟨rfl, rfl, id, id, id⟩

theorem Keeps.trans {s t u : State} (h : Keeps s t) (k : Keeps t u) : Keeps s u :=
  ⟨k.output.trans h.output, k.params.trans h.params, fun hm => k.memoryOk (h.memoryOk hm),
    fun hl => k.linked (h.linked hl), fun hq => k.atRest (h.atRest hq)⟩

theorem Keeps.thenFault {s t u : State} {r : FaultReport} (h : Keeps s t) (k : FaultKeeps t r u) : FaultKeeps s r u :=
  ⟨k.cpu, k.output.trans h.output, k.params.trans h.params, fun hm => k.memoryOk (h.memoryOk hm),
    fun hl => k.linked (h.linked hl), fun hq => k.onlyInFlight (h.atRest hq)⟩

/-- The registers are free in the state left, and nothing else of it changes. -/
theorem FaultKeeps.abandon {s t : State} {r : FaultReport} (h : FaultKeeps s r t) :
    FaultKeeps s r (Machine.abandon t) :=
  ⟨h.cpu, h.output, h.params, h.memoryOk, h.linked, h.onlyInFlight⟩

/-- An operation begun in `s` that goes on keeps what `Keeps` says, and one that faults what `FaultKeeps` says. -/
def Res.Keeps {α : Type} (s : State) : Res α → Prop
  | .ok _ t => Machine.Keeps s t
  | .fault r t => FaultKeeps s r t
  | .stuck _ => True

theorem Res.Keeps.bind {α β : Type} {s : State} {r : Res α} {k : α → State → Res β} (h : r.Keeps s)
    (hk : ∀ v t, (k v t).Keeps t) : (r.bind k).Keeps s := by
  cases r with
  | fault x t => exact h
  | stuck t => trivial
  | ok v t =>
    have h' := hk v t
    simp only [Res.bind_ok]
    cases hr : k v t with
    | stuck u => trivial
    | ok w u => rw [hr] at h'; exact Machine.Keeps.trans h h'
    | fault x u => rw [hr] at h'; exact Machine.Keeps.thenFault h h'

/-- Begin from a state that differs at most in what `Keeps` does not speak of. -/
theorem Res.Keeps.of {α : Type} {s u : State} {r : Res α} (h : r.Keeps u) (hs : Machine.Keeps s u) : r.Keeps s := by
  cases r with
  | stuck t => trivial
  | ok v t => exact hs.trans h
  | fault x t => exact hs.thenFault h

/-- Nothing was sent: the channel at rest holds the posted writes alone. -/
theorem AtRest.onlyInFlight {s t : State} {r : FaultReport} (h : AtRest s) (hr : r.unanswered = none)
    (hu : t.memUnit = s.memUnit := by rfl) (hq : t.requests = s.requests := by rfl)
    (hp : t.responses = s.responses := by rfl) (ha : t.unanswered = s.unanswered := by rfl) : OnlyInFlight r t := by
  unfold OnlyInFlight
  rw [hu, hq, hp, ha, hr]
  exact fun hs => ⟨h.1.2 hs, h.1.1, h.2⟩

/-- A read that faults: what it leaves (R53, R139, R144). -/
theorem memRead_faultKeeps {a : Word} {s t : State} {r : FaultReport} (h : memRead a s = .fault r t) :
    FaultKeeps s r t := by
  obtain ⟨f, hc, -⟩ := memRead_fault h
  refine ⟨hc, f.output, f.params, ?_, fun hl => ?_, ?_⟩
  rotate_left
  · rcases address_cases s a with ha | ha | ha
    · rw [memRead_linked hl ha] at h; cases h
    · rw [memRead_protected ha] at h; cases h; exact hl
    · by_cases hs : a = Config.sentinel
      · rw [hs, memRead_sentinel hl] at h; cases h
      · rw [memRead_outOfRange ha hs] at h; cases h; exact hl
  all_goals
    intro hm
    unfold memRead at h
    split at h
    · cases h
      first | exact hm | exact hm.onlyInFlight rfl
    · split at h
      · rcases Res.bind_eq_fault.mp h with h | ⟨_, _, -, h⟩
        · rcases send_cases [Config.sentinel] s with ⟨d, hs', -⟩ | ⟨-, d, hs'⟩ <;> rw [hs'] at h <;> cases h
          first | exact hm | exact hm.onlyInFlight rfl
        · cases h
      · split at h
        · cases h
          first | exact hm | exact hm.onlyInFlight rfl
        · rcases Res.bind_eq_fault.mp h with h | ⟨_, u, hs, h⟩
          · rcases send_cases [a] s with ⟨d, hs', -⟩ | ⟨-, d, hs'⟩ <;> rw [hs'] at h <;> cases h
            first | exact hm | exact hm.onlyInFlight rfl
          · rcases send_cases [a] s with ⟨d, hs', -⟩ | ⟨-, d, hs'⟩ <;> rw [hs'] at hs <;> cases hs
            rcases receive_cases a (serve ((s.setDraws d).setRequests (s.requests ++ [a] :: []))) with
              ⟨w, ws, e, -, hr', -⟩ | ⟨-, e, hr', -⟩ | ⟨-, e, hr'⟩ <;> rw [hr'] at h <;> cases h
            first
            | exact failReceive_memoryOk a (s := (serve ((s.setDraws d).setRequests (s.requests ++ [a] :: []))).setDraws e)
                (serve_memoryOk (s := (s.setDraws d).setRequests (s.requests ++ [a] :: [])) hm)
            | exact failReceive_onlyInFlight hm d e (by simpa using ‹¬ (!inRange s.params a) = true›) ‹_›

theorem memWrite_faultKeeps {a v : Word} {s t : State} {r : FaultReport} (h : memWrite a v s = .fault r t) :
    FaultKeeps s r t := by
  obtain ⟨f, hc, -⟩ := memWrite_fault h
  refine ⟨hc, f.output, f.params, ?_, fun hl => ?_, ?_⟩
  rotate_left
  · rcases address_cases s a with ha | ha | ha
    · rw [memWrite_linked hl ha] at h; cases h
    · rw [memWrite_protected ha] at h; cases h; exact hl
    · rw [memWrite_outOfRange ha] at h; cases h; exact hl
  all_goals
    intro hm
    unfold memWrite at h
    split at h
    · cases h
      first | exact hm | exact hm.onlyInFlight rfl
    · split at h
      · cases h
        first | exact hm | exact hm.onlyInFlight rfl
      · rcases Res.bind_eq_fault.mp h with h | ⟨_, u, hs, h⟩
        · rcases send_cases [a, v] s with ⟨d, hs', -⟩ | ⟨-, d, hs'⟩ <;> rw [hs'] at h <;> cases h
          first | exact hm | exact hm.onlyInFlight rfl
        · cases h

theorem memRead_keeps (a : Word) (s : State) : (memRead a s).Keeps s := by
  cases h : memRead a s with
  | stuck t => trivial
  | fault r t => exact memRead_faultKeeps h
  | ok v t =>
    obtain ⟨⟨f, -⟩, ha, hm⟩ := memRead_ok h
    refine ⟨f.output, f.params, hm, fun hl => ?_, fun hq => ?_⟩
    · rw [memRead_linked hl ha] at h; cases h; exact hl
    · obtain ⟨-, -, d, rfl, -⟩ := memRead_quiet hq.1 h; exact hq

theorem memWrite_keeps (a v : Word) (s : State) : (memWrite a v s).Keeps s := by
  cases h : memWrite a v s with
  | stuck t => trivial
  | fault r t => exact memWrite_faultKeeps h
  | ok u t =>
    obtain ⟨⟨f, -⟩, ha, hm⟩ := memWrite_ok h
    refine ⟨f.output, f.params, hm, fun hl => ?_, fun hq => ⟨memWrite_quiet_keeps hq.1 h, ?_⟩⟩
    · rw [memWrite_linked hl ha] at h; cases h; exact hl
    · obtain ⟨m, n, r, p, d, rfl, -⟩ := memWrite_quiet hq.1 h; exact hq.2

theorem push_keeps (v : Word) (s : State) : (push v s).Keeps s :=
  (memWrite_keeps _ v (s.setSp (s.sp - 1))).of ⟨rfl, rfl, id, id, id⟩

theorem pop_keeps (s : State) : (pop s).Keeps s :=
  (memRead_keeps _ s).bind fun _ _ => ⟨rfl, rfl, id, id, id⟩

theorem interrupt_keeps (cause : Cause) (s : State) : (interrupt cause s).Keeps s := by
  unfold interrupt
  split
  · exact Keeps.refl s
  · refine Res.Keeps.of (Res.Keeps.bind (push_keeps _ _) fun _ t => Res.Keeps.bind (push_keeps _ t) fun _ u => ?_)
      ⟨rfl, rfl, id, id, id⟩
    cases cause <;> exact ⟨rfl, rfl, id, id, id⟩

theorem returnFromHandler_keeps (s : State) : (returnFromHandler s).Keeps s :=
  (pop_keeps s).bind fun v t => Res.Keeps.of (s := t) (Res.Keeps.bind (pop_keeps (t.setPc v)) fun _ _ =>
    ⟨rfl, rfl, id, id, id⟩) ⟨rfl, rfl, id, id, id⟩

theorem loadAc_keeps (a : Word) (s : State) : (loadAc a s).Keeps s :=
  (memRead_keeps a s).bind fun _ _ => ⟨rfl, rfl, id, id, id⟩

/-- What an operation that faults leaves (R144). -/
theorem Res.Keeps.outcome_fault {s : State} {r : Res Unit} {f : Fault} (h : r.Keeps s) (hf : r.outcome = .fault f) :
    ∃ x t, f = .raised x t ∧ FaultKeeps s x t := by
  obtain ⟨x, t, rfl, rfl⟩ := Res.outcome_eq_fault.mp hf
  exact ⟨x, abandon t, rfl, FaultKeeps.abandon h⟩

/-- What an instruction that faults leaves. -/
theorem exec_fault_keeps {i : Instr} {s : State} {f : Fault} (h : exec i s = .fault f) :
    ∃ r t, f = .raised r t ∧ FaultKeeps s r t := by
  cases i with
  | loadAddr n => exact (loadAc_keeps _ s).outcome_fault h
  | loadInd n => exact ((memRead_keeps n s).bind fun b t => loadAc_keeps b t).outcome_fault h
  | loadIdxX n => exact (loadAc_keeps _ s).outcome_fault h
  | loadIdxY n => exact (loadAc_keeps _ s).outcome_fault h
  | loadSpX => exact (loadAc_keeps _ s).outcome_fault h
  | store n => exact (memWrite_keeps _ _ s).outcome_fault h
  | call a =>
    exact ((push_keeps s.pc s).bind (k := fun _ u => .ok () (u.setPc a)) fun _ _ => ⟨rfl, rfl, id, id, id⟩).outcome_fault h
  | ret =>
    exact ((pop_keeps s).bind (k := fun v t => .ok () (t.setPc v)) fun _ _ => ⟨rfl, rfl, id, id, id⟩).outcome_fault h
  | push => exact (push_keeps _ s).outcome_fault h
  | pop =>
    exact ((pop_keeps s).bind (k := fun v t => .ok () (t.setAc v)) fun _ _ => ⟨rfl, rfl, id, id, id⟩).outcome_fault h
  | softwareInterrupt => exact (interrupt_keeps _ s).outcome_fault h
  | returnFromInterrupt => exact (returnFromHandler_keeps s).outcome_fault h
  | terminate =>
    obtain ⟨r, t, h', rfl⟩ := Res.outcome_eq_fault.mp h
    rcases Res.bind_eq_fault.mp h' with h' | ⟨_, _, -, h'⟩
    · rcases Res.bind_eq_fault.mp h' with h' | ⟨_, _, -, h'⟩
      · rcases send_cases [Config.sentinel] s with ⟨d, hs', -⟩ | ⟨hf, d, hs'⟩ <;> rw [hs'] at h' <;> cases h'
        exact ⟨_, _, rfl, rfl, rfl, rfl, id, id, fun hq => hq.onlyInFlight rfl⟩
      · cases h'
    · cases h'
  | put x =>
    simp only [exec, execPut] at h
    split at h
    · cases h
    · split at h <;> cases h
  | jumpIfEqual a =>
    simp only [exec, execJumpIfEqual] at h
    split at h <;> cases h
  | jumpIfNotEqual a =>
    simp only [exec, execJumpIfNotEqual] at h
    split at h <;> cases h
  | _ => cases h

theorem timerPhase_keeps (s : State) : (timerPhase s).Keeps s := by
  have h : Keeps s (reloadTimer s) := by
    rcases reloadTimer_cases s with ⟨-, e⟩ | ⟨-, e⟩ <;> rw [e] <;> exact ⟨rfl, rfl, id, id, id⟩
  unfold timerPhase
  split
  · exact (interrupt_keeps .timer _).of h
  · exact h

theorem readOpcode_keeps (s : State) : (readOpcode s).Keeps s :=
  (memRead_keeps _ s).bind fun w _ => ⟨rfl, rfl, fun h => fetched_memoryOk h w, id, id⟩

theorem decodeIr_keeps (s : State) : (decodeIr s).Keeps s := by
  unfold decodeIr
  split
  · exact Res.Keeps.bind (Res.Keeps.bind (memRead_keeps _ s) fun _ _ => ⟨rfl, rfl, id, id, id⟩) fun _ t => Keeps.refl t
  · exact Keeps.refl s

/-- What a step that faults leaves (R144). -/
theorem step_fault_keeps {s : State} {f : Fault} (h : step s = .fault f) :
    ∃ r t, f = .raised r t ∧ FaultKeeps s r t := by
  have hr : s.cpu = .running := by
    unfold step oneStep at h
    split at h
    · assumption
    all_goals cases h
  rw [step_running hr] at h
  have hk : (((timerPhase s).bind fun _ t => readOpcode t).bind fun _ t => decodeIr t).Keeps s :=
    ((timerPhase_keeps s).bind fun _ t => readOpcode_keeps t).bind fun _ t => decodeIr_keeps t
  cases hx : ((timerPhase s).bind fun _ t => readOpcode t).bind fun _ t => decodeIr t with
  | stuck t => rw [hx] at h; cases h
  | fault r t =>
    rw [hx] at h hk
    cases h
    exact ⟨r, abandon t, rfl, FaultKeeps.abandon hk⟩
  | ok d t =>
    rw [hx] at h hk
    cases hp : perform d t with
    | next u => simp only [hp, finish] at h; cases h
    | refused x => simp only [hp, finish] at h; cases h
    | fault g =>
      simp only [hp, finish] at h
      cases h
      cases d with
      | none => cases hp
      | some i =>
        obtain ⟨r, u, rfl, hu⟩ := exec_fault_keeps hp
        exact ⟨r, u, rfl, Keeps.thenFault hk hu⟩

/-! ### The posted writes and the host's stop -/

theorem applyWrites_cons (m : Memory) (p : PostedWrite) (ps : List PostedWrite) :
    applyWrites m (p :: ps) = applyWrites (Memory.write m p.address.toNat p.value) ps := rfl

/-- All the posted writes lead from the array before the first of them to `m`. -/
theorem PostsLeadTo.applyAll {m : Memory} {p : PostedWrite} {ps : List PostedWrite} (h : PostsLeadTo m (p :: ps)) :
    applyWrites p.before (p :: ps) = m := by
  induction ps generalizing p with
  | nil => simpa [PostsLeadTo, applyWrites, PostedWrite.after] using h
  | cons q ps ih =>
    simp only [PostsLeadTo, List.map_cons, List.cons_append, List.tail_cons, List.cons.injEq] at h
    have hq : PostsLeadTo m (q :: ps) := by
      simp only [PostsLeadTo, List.map_cons, List.cons_append, List.tail_cons]; exact h.2
    rw [applyWrites_cons, show Memory.write p.before p.address.toNat p.value = q.before from h.1]
    exact ih hq

/-- The first `k` posted writes lead to the array before the next one. -/
theorem PostsLeadTo.applyTake {m : Memory} {p q : PostedWrite} {ps rest : List PostedWrite} {k : Nat}
    (h : PostsLeadTo m (p :: ps)) (hk : (p :: ps).drop k = q :: rest) :
    applyWrites p.before ((p :: ps).take k) = q.before := by
  induction k generalizing p ps with
  | zero => cases hk; rfl
  | succ k ih =>
    cases ps with
    | nil => simp at hk
    | cons r ps =>
      simp only [PostsLeadTo, List.map_cons, List.cons_append, List.tail_cons, List.cons.injEq] at h
      have hq : PostsLeadTo m (r :: ps) := by
        simp only [PostsLeadTo, List.map_cons, List.cons_append, List.tail_cons]; exact h.2
      rw [List.take_succ_cons, applyWrites_cons, show Memory.write p.before p.address.toNat p.value = r.before from h.1]
      exact ih hq (by simpa using hk)

theorem applyWrites_posted {s : State} (h : PostsLeadTo s.mem s.posted) :
    applyWrites (memBeforePosts s) s.posted = s.mem := by
  unfold memBeforePosts
  cases hp : s.posted with
  | nil => rfl
  | cons p ps => rw [hp] at h; exact h.applyAll

/-- A stop of the memory unit leaves the registers, the responses and the parameters. -/
theorem stopUnitAfter_frame (k : Nat) (s : State) :
    SameRegs s (stopUnitAfter k s) ∧ (stopUnitAfter k s).responses = s.responses ∧
      (stopUnitAfter k s).memUnit = .stopped := by
  unfold stopUnitAfter
  exact ⟨by constructor <;> simp, by simp, by simp⟩

/-- The array after the memory unit took `k` messages in flight is what the writes among them left. -/
theorem memAfterTaking_eq (k : Nat) {s : State} (h : PostsLeadTo s.mem s.posted) :
    memAfterTaking k s = applyWrites (memBeforePosts s) (s.posted.take k) := by
  unfold memAfterTaking
  cases hd : s.posted.drop k with
  | nil => rw [List.take_of_length_le (List.drop_eq_nil_iff.mp hd), applyWrites_posted h]
  | cons q rest =>
    unfold memBeforePosts
    cases hp : s.posted with
    | nil => rw [hp] at hd; simp at hd
    | cons p ps => rw [hp] at h hd; exact (h.applyTake hd).symm

theorem memAfterTaking_ok (k : Nat) {s : State} (h : MemoryOk s) : Memory.Ok s.params (memAfterTaking k s) := by
  unfold memAfterTaking
  cases hd : s.posted.drop k with
  | nil => exact h.1
  | cons q rest => exact h.2.1 q (List.mem_of_mem_drop (hd ▸ List.mem_cons_self))

/-- What the memory unit stopped after `k` messages in flight leaves (R57, R59). -/
theorem stopUnitAfter_spec (k : Nat) {s : State} (h : MemoryOk s) :
    (stopUnitAfter k s).mem = applyWrites (memBeforePosts s) (s.posted.take k) ∧
    (stopUnitAfter k s).requests = (inFlight s).drop k ++ s.requests ∧
    (stopUnitAfter k s).memUnit = .stopped ∧ (stopUnitAfter k s).cpu = s.cpu ∧ MemoryOk (stopUnitAfter k s) := by
  unfold stopUnitAfter
  refine ⟨by simpa using memAfterTaking_eq k h.2.2, by simp, by simp, by simp, ?_⟩
  simpa [MemoryOk, PostsLeadTo] using memAfterTaking_ok k h

theorem hostStopsUnit_serving {s : State} (h : s.memUnit = .serving) :
    ∃ k ≤ (inFlight s).length, hostStopsUnit s = stopUnitAfter k (s.setDraws (s.draws + 1)) :=
  ⟨_, Nat.le_of_lt_succ (Nat.mod_lt _ (Nat.succ_pos _)), by rw [hostStopsUnit, h]⟩

end Sys2Proof.Machine
end

