-- ==== Sys2Proof/Laws/PerInstr.lean ====
section
/-! SUPPORT. Statements made of every instruction as syntax, one lemma per constructor. -/

namespace Sys2Proof.Laws.EncodedShape

/-- R67, R69: an instruction's encoding is one word, or two words when its opcode word takes an operand. -/
def Statement (i : Instr) : Prop :=
  i.wellFormed = true ∧ ∃ op : Word,
    isTwoWord op = false ∧ encode i = [op] ∨ isTwoWord op = true ∧ ∃ v : Word, encode i = [op, v]

theorem loadValue (imm : Word) : Statement (.loadValue imm) := ⟨rfl, _, .inr ⟨rfl, _, rfl⟩⟩
theorem loadAddr (addr : Word) : Statement (.loadAddr addr) := ⟨rfl, _, .inr ⟨rfl, _, rfl⟩⟩
theorem loadInd (addr : Word) : Statement (.loadInd addr) := ⟨rfl, _, .inr ⟨rfl, _, rfl⟩⟩
theorem loadIdxX (addr : Word) : Statement (.loadIdxX addr) := ⟨rfl, _, .inr ⟨rfl, _, rfl⟩⟩
theorem loadIdxY (addr : Word) : Statement (.loadIdxY addr) := ⟨rfl, _, .inr ⟨rfl, _, rfl⟩⟩
theorem loadSpX : Statement .loadSpX := ⟨rfl, _, .inl ⟨rfl, rfl⟩⟩
theorem store (addr : Word) : Statement (.store addr) := ⟨rfl, _, .inr ⟨rfl, _, rfl⟩⟩
theorem get : Statement .get := ⟨rfl, _, .inl ⟨rfl, rfl⟩⟩
theorem put (port : Word) : Statement (.put port) := ⟨rfl, _, .inr ⟨rfl, _, rfl⟩⟩
theorem addX : Statement .addX := ⟨rfl, _, .inl ⟨rfl, rfl⟩⟩
theorem addY : Statement .addY := ⟨rfl, _, .inl ⟨rfl, rfl⟩⟩
theorem subX : Statement .subX := ⟨rfl, _, .inl ⟨rfl, rfl⟩⟩
theorem subY : Statement .subY := ⟨rfl, _, .inl ⟨rfl, rfl⟩⟩
theorem copyToX : Statement .copyToX := ⟨rfl, _, .inl ⟨rfl, rfl⟩⟩
theorem copyFromX : Statement .copyFromX := ⟨rfl, _, .inl ⟨rfl, rfl⟩⟩
theorem copyToY : Statement .copyToY := ⟨rfl, _, .inl ⟨rfl, rfl⟩⟩
theorem copyFromY : Statement .copyFromY := ⟨rfl, _, .inl ⟨rfl, rfl⟩⟩
theorem copyToSp : Statement .copyToSp := ⟨rfl, _, .inl ⟨rfl, rfl⟩⟩
theorem copyFromSp : Statement .copyFromSp := ⟨rfl, _, .inl ⟨rfl, rfl⟩⟩
theorem jump (addr : Word) : Statement (.jump addr) := ⟨rfl, _, .inr ⟨rfl, _, rfl⟩⟩
theorem jumpIfEqual (addr : Word) : Statement (.jumpIfEqual addr) := ⟨rfl, _, .inr ⟨rfl, _, rfl⟩⟩
theorem jumpIfNotEqual (addr : Word) : Statement (.jumpIfNotEqual addr) := ⟨rfl, _, .inr ⟨rfl, _, rfl⟩⟩
theorem call (addr : Word) : Statement (.call addr) := ⟨rfl, _, .inr ⟨rfl, _, rfl⟩⟩
theorem ret : Statement .ret := ⟨rfl, _, .inl ⟨rfl, rfl⟩⟩
theorem incX : Statement .incX := ⟨rfl, _, .inl ⟨rfl, rfl⟩⟩
theorem decX : Statement .decX := ⟨rfl, _, .inl ⟨rfl, rfl⟩⟩
theorem push : Statement .push := ⟨rfl, _, .inl ⟨rfl, rfl⟩⟩
theorem pop : Statement .pop := ⟨rfl, _, .inl ⟨rfl, rfl⟩⟩
theorem softwareInterrupt : Statement .softwareInterrupt := ⟨rfl, _, .inl ⟨rfl, rfl⟩⟩
theorem returnFromInterrupt : Statement .returnFromInterrupt := ⟨rfl, _, .inl ⟨rfl, rfl⟩⟩
theorem terminate : Statement .terminate := ⟨rfl, _, .inl ⟨rfl, rfl⟩⟩

end Sys2Proof.Laws.EncodedShape
end

