-- ==== Sys2Proof/Tests/Slice0.lean ====
section
/-! SUPPORT. The model's own tests: ill-formed parameters that the checks refuse, words written out from the
spec's encodings, the vectors of spec/95_test_vectors.md (each test names its vector), the step of a stored
word right after reset, and, for every obligation with hypotheses, states and operands that meet them. -/

namespace Sys2Proof.Tests

open Sys2Proof Sys2Proof.Machine

/-! ### Well-formedness: each check refuses an ill-formed term -/

theorem test_reference_is_wellFormed : Params.reference.WellFormed := by decide

theorem test_ill_formed_zero_sysBase :
    ¬ Params.WellFormed { Params.reference with sysBase := 0 } := by decide

theorem test_ill_formed_memWords_not_above_sysBase :
    ¬ Params.SizesOk { Params.reference with memWords := 1000 } := by decide

theorem test_ill_formed_memWords_no_word :
    ¬ Params.SizesOk { Params.reference with memWords := 2147483648 } := by decide

theorem test_ill_formed_timerVec_in_user_space :
    ¬ Params.VectorsOk { Params.reference with timerVec := 999 } := by decide

theorem test_ill_formed_syscallVec_past_the_end :
    ¬ Params.VectorsOk { Params.reference with syscallVec := 2000 } := by decide

theorem test_ill_formed_stack_base_too_low :
    ¬ Params.StackOk { Params.reference with sysStackBase := 1001 } := by decide

theorem test_ill_formed_stack_base_too_high :
    ¬ Params.StackOk { Params.reference with sysStackBase := 2001 } := by decide

theorem test_ill_formed_timer_period_zero : ¬ TimerPeriodOk 0 := by decide

theorem test_ill_formed_timer_period_no_word : ¬ TimerPeriodOk 2147483648 := by decide

/-- No instruction has an ill-formed operand (R68): the least word is admitted. -/
theorem test_every_operand_is_wellFormed : (Instr.loadAddr (BitVec.ofInt 32 (-2147483648))).wellFormed = true := by
  decide

/-! ### Decoding: words written out from R67 and R70 -/

theorem test_decode_loadValue : decodeTableWord 64 0x0000000500000001 = some (.loadValue 5) := by decide
theorem test_decode_loadAddr : decodeTableWord 64 0x000003E800000002 = some (.loadAddr 1000) := by decide
theorem test_decode_loadInd : decodeTableWord 64 0x000001F400000003 = some (.loadInd 500) := by decide
theorem test_decode_loadIdxX : decodeTableWord 64 0x000001F400000004 = some (.loadIdxX 500) := by decide
theorem test_decode_loadIdxY : decodeTableWord 64 0x000000C800000005 = some (.loadIdxY 200) := by decide
theorem test_decode_loadSpX : decodeTableWord 32 0x00000006 = some .loadSpX := by decide
theorem test_decode_store : decodeTableWord 64 0x0000006400000007 = some (.store 100) := by decide
theorem test_decode_get : decodeTableWord 32 0x00000008 = some .get := by decide
theorem test_decode_put : decodeTableWord 64 0x0000000100000009 = some (.put 1) := by decide
theorem test_decode_addX : decodeTableWord 32 0x0000000A = some .addX := by decide
theorem test_decode_addY : decodeTableWord 32 0x0000000B = some .addY := by decide
theorem test_decode_subX : decodeTableWord 32 0x0000000C = some .subX := by decide
theorem test_decode_subY : decodeTableWord 32 0x0000000D = some .subY := by decide
theorem test_decode_copyToX : decodeTableWord 32 0x0000000E = some .copyToX := by decide
theorem test_decode_copyFromX : decodeTableWord 32 0x0000000F = some .copyFromX := by decide
theorem test_decode_copyToY : decodeTableWord 32 0x00000010 = some .copyToY := by decide
theorem test_decode_copyFromY : decodeTableWord 32 0x00000011 = some .copyFromY := by decide
theorem test_decode_copyToSp : decodeTableWord 32 0x00000012 = some .copyToSp := by decide
theorem test_decode_copyFromSp : decodeTableWord 32 0x00000013 = some .copyFromSp := by decide
theorem test_decode_jump : decodeTableWord 64 0x0000000700000014 = some (.jump 7) := by decide
theorem test_decode_jumpIfEqual : decodeTableWord 64 0x0000002800000015 = some (.jumpIfEqual 40) := by decide
theorem test_decode_jumpIfNotEqual : decodeTableWord 64 0x0000000300000016 = some (.jumpIfNotEqual 3) := by decide
theorem test_decode_call : decodeTableWord 64 0x0000000A00000017 = some (.call 10) := by decide
theorem test_decode_ret : decodeTableWord 32 0x00000018 = some .ret := by decide
theorem test_decode_incX : decodeTableWord 32 0x00000019 = some .incX := by decide
theorem test_decode_decX : decodeTableWord 32 0x0000001A = some .decX := by decide
theorem test_decode_push : decodeTableWord 32 0x0000001B = some .push := by decide
theorem test_decode_pop : decodeTableWord 32 0x0000001C = some .pop := by decide
theorem test_decode_softwareInterrupt : decodeTableWord 32 0x0000001D = some .softwareInterrupt := by decide
theorem test_decode_returnFromInterrupt :
    decodeTableWord 32 0x0000001E = some .returnFromInterrupt := by decide
theorem test_decode_terminate : decodeTableWord 32 0x00000032 = some .terminate := by decide

/-- An opcode is compared as a whole word (R67): no bit of it is ignored. -/
theorem test_decode_high_bit_is_not_ignored : decodeTableWord 32 0x8000000A = none := by decide

/-- A word that needs an operand and has none is no instruction (R69). -/
theorem test_decode_no_operand : decodeWords [7] = .error (.noOperand 7) := rfl

/-! ### States and answers -/

/-- The reset state with `PC` and the memory given. -/
def user (pc : Word) (mem : Memory) : State := (State.reset.setPc pc).setMem mem

/-- The same in kernel mode. -/
def kern (pc : Word) (mem : Memory) : State := (user pc mem).setKernel true

/-- The next state, if there is one. -/
def after : Host.Outcome State Fault Refusal → Option State
  | .next s => some s
  | _ => none

/-- The report of the fault, if there is one. -/
def faultOf : Host.Outcome State Fault Refusal → Option FaultReport
  | .fault (.raised r _) => some r
  | _ => none

/-- The state a fault leaves, if there is one. -/
def leftOf : Host.Outcome State Fault Refusal → Option State
  | .fault (.raised _ t) => some t
  | _ => none

/-! ### The host's question: a stored word runs as the first instruction after reset -/

theorem test_withFetchWord_runs_two_words :
    (after (step (State.reset.withFetchWord 64 0x0000000500000001))).map (fun t => (t.ac, t.pc, t.ir)) =
      some (5, 2, 1) := by decide

theorem test_withFetchWord_runs_one_word :
    (after (step (State.reset.withFetchWord 32 0x00000032))).map (fun t => (t.cpu, t.pc)) =
      some (.halted, 1) := by decide

theorem test_withFetchWord_shorter_than_the_instruction :
    (after (step (State.reset.withFetchWord 32 0x00000009))).map (fun t => t.output) =
      some [.invalidPort 0] := by decide

/-- Where the timer interrupt is due, the word is stored at the handler's entry. -/
theorem test_withFetchWord_at_a_timer_entry :
    (after (step ((State.reset.setTimerCount 0).withFetchWord 32 0x00000019))).map (fun t => (t.x, t.pc)) =
      some (1, 1001) := by decide

/-! ### Vectors of spec/95_test_vectors.md -/

/-- T-FET-1. -/
theorem test_fetch : (after (step ((user 0 [(0, 25)]).setTimerCount 5))).map
    (fun t => (t.ir, t.pc, t.x, t.timerCount)) = some (25, 1, 1, 4) := by decide
/-- T-FET-2. -/
theorem test_fetch_operand_violation : faultOf (step (user 999 [(999, 1)])) =
    some (.accessViolation 1000 .read 1000) := by decide
/-- T-FET-4. -/
theorem test_fetch_range : faultOf (step (kern 2000 [])) = some (.addressRange 2000 .read 2000) := by decide
/-- T-FET-5. -/
theorem test_fetch_sentinel : (after (step (user (-1) []))).map (fun t => (t.cpu, t.memUnit)) =
    some (.stuck, .stopped) := by decide
/-- T-TIM-1. -/
theorem test_timer_entry : (after (step (((user 7 [(1000, 30)]).setTimerCount 0)))).map
    (fun t => (t.pc, t.sp, t.kernel, t.timerElapsed, Memory.read t.mem 1999, Memory.read t.mem 1998)) =
      some (7, 1000, false, false, 1000, 7) := by decide
/-- T-TIM-2. -/
theorem test_timer_pending : (after (step (((kern 1005 [(1005, 25)]).setTimerCount 0).setX 4))).map
    (fun t => (t.pc, t.x, t.timerElapsed, t.kernel, t.timerCount)) = some (1006, 5, true, true, 99) := by decide
/-- T-LD-2. -/
theorem test_loadValue : (after (step (user 0 [(0, 1), (1, -3)]))).map (fun t => (t.ac, t.pc)) =
    some (-3, 2) := by decide
/-- T-LD-3. -/
theorem test_loadAddr : (after (step (user 0 [(0, 2), (1, 100), (100, 42)]))).map (fun t => (t.ac, t.pc)) =
    some (42, 2) := by decide
/-- T-LD-5. -/
theorem test_loadAddr_privilege_before_range : faultOf (step (user 0 [(0, 2), (1, 5000)])) =
    some (.accessViolation 5000 .read 2) := by decide
/-- T-LD-8. -/
theorem test_loadInd : (after (step (user 0 [(0, 3), (1, 500), (100, 7), (500, 100)]))).map (fun t => t.ac) =
    some 7 := by decide
/-- T-LD-9. -/
theorem test_loadInd_second_read : faultOf (step (user 0 [(0, 3), (1, 500), (500, 1200)])) =
    some (.accessViolation 1200 .read 2) := by decide
/-- T-LD-10. -/
theorem test_loadIdxX : (after (step ((user 0 [(0, 4), (1, 500), (510, 3)]).setX 10))).map
    (fun t => (t.ac, t.x)) = some (3, 10) := by decide
/-- T-LD-12. -/
theorem test_loadIdxX_sentinel : (after (step ((user 0 [(0, 4)]).setX (-1)))).map (fun t => t.cpu) =
    some .stuck := by decide
/-- T-LD-13. -/
theorem test_loadIdxY : (after (step ((user 0 [(0, 5), (1, 200), (205, 9)]).setY 5))).map (fun t => t.ac) =
    some 9 := by decide
/-- T-LD-14. -/
theorem test_loadIdxY_below_zero : faultOf (step ((user 0 [(0, 5), (1, 10)]).setY (-20))) =
    some (.addressRange (-10) .read 2) := by decide
/-- T-LD-15. -/
theorem test_loadSpX : (after (step (((user 0 [(0, 6), (991, 8)]).setSp 990).setX 1))).map
    (fun t => (t.ac, t.sp, t.pc)) = some (8, 990, 1) := by decide
/-- T-ST-1. -/
theorem test_store : (after (step ((user 0 [(0, 7), (1, 100)]).setAc 6))).map
    (fun t => (t.mem, t.ac)) = some ([(0, 7), (1, 100), (100, 6)], 6) := by decide
/-- T-ST-3. -/
theorem test_store_sentinel : faultOf (step (kern 0 [(0, 7), (1, -1)])) =
    some (.addressRange (-1) .write 2) := by decide
/-- T-IO-1. The draw is free: only what the vector fixes is tested. -/
theorem test_get : (after (step (user 0 [(0, 8)]))).map (fun t => t.pc) = some 1 := by decide
/-- T-IO-2. -/
theorem test_put_int : (after (step ((user 0 [(0, 9), (1, 1)]).setAc 5))).map (fun t => (t.output, t.pc)) =
    some ([.int 5], 2) := by decide
/-- T-IO-5. -/
theorem test_put_char : (after (step ((user 0 [(0, 9), (1, 2)]).setAc 321))).map (fun t => t.output) =
    some [.char 65] := by decide
/-- T-IO-3: the printed form. -/
theorem test_print_negative : signedDecimal (-7) = ['-', '7'] := by decide
/-- R92: the least word has ten digits. -/
theorem test_print_least : signedDecimal (BitVec.ofInt 32 (-2147483648)) =
    ['-', '2', '1', '4', '7', '4', '8', '3', '6', '4', '8'] := by decide
/-- T-AR-2. -/
theorem test_addX_wraps : (after (step (((user 0 [(0, 10)]).setAc 2147483647).setX 1))).map
    (fun t => t.ac.toInt) = some (-2147483648) := by decide
/-- T-AR-4. -/
theorem test_addY : (after (step (((user 0 [(0, 11)]).setAc 7).setY 7))).map (fun t => t.ac) = some 14 := by decide
/-- T-AR-5. -/
theorem test_subX : (after (step (((user 0 [(0, 12)]).setAc 0).setX 3))).map (fun t => t.ac.toInt) =
    some (-3) := by decide
/-- T-AR-7. -/
theorem test_subY : (after (step (((user 0 [(0, 13)]).setAc 10).setY 4))).map (fun t => t.ac) = some 6 := by decide
/-- T-TR-1. -/
theorem test_copyToX : (after (step ((user 0 [(0, 14)]).setAc 3))).map (fun t => (t.x, t.ac)) =
    some (3, 3) := by decide
/-- T-TR-2. -/
theorem test_copyFromX : (after (step ((user 0 [(0, 15)]).setX (-2)))).map (fun t => (t.ac, t.x)) =
    some (-2, -2) := by decide
/-- T-TR-3. -/
theorem test_copyToY : (after (step ((user 0 [(0, 16)]).setAc 7))).map (fun t => (t.y, t.x)) =
    some (7, 0) := by decide
/-- T-TR-4. -/
theorem test_copyFromY : (after (step ((user 0 [(0, 17)]).setY 9))).map (fun t => t.ac) = some 9 := by decide
/-- T-TR-5. -/
theorem test_copyToSp : (after (step ((user 0 [(0, 18)]).setAc 1500))).map (fun t => t.sp) =
    some 1500 := by decide
/-- T-TR-6. -/
theorem test_copyFromSp : (after (step (user 0 [(0, 19)]))).map (fun t => t.ac) = some 1000 := by decide
/-- T-CT-1. -/
theorem test_jump : (after (step (user 0 [(0, 20), (1, 7)]))).map (fun t => t.pc) = some 7 := by decide
/-- T-CT-4. -/
theorem test_jumpIfEqual_not_taken : (after (step ((user 10 [(10, 21), (11, 40)]).setAc 1))).map
    (fun t => t.pc) = some 12 := by decide
/-- T-CT-3. -/
theorem test_jumpIfEqual_taken : (after (step (user 10 [(10, 21), (11, 40)]))).map (fun t => t.pc) =
    some 40 := by decide
/-- T-CT-5. -/
theorem test_jumpIfNotEqual_taken : (after (step ((user 10 [(10, 22), (11, 3)]).setAc (-3)))).map
    (fun t => t.pc) = some 3 := by decide
/-- T-CT-6. -/
theorem test_jumpIfNotEqual_not_taken : (after (step (user 10 [(10, 22), (11, 3)]))).map (fun t => t.pc) =
    some 12 := by decide
/-- T-CT-7. -/
theorem test_call : (after (step ((user 3 [(3, 23), (4, 10)]).setSp 999))).map
    (fun t => (t.pc, t.sp, Memory.read t.mem 998)) = some (10, 998, 5) := by decide
/-- T-CT-8. -/
theorem test_call_violation : faultOf (step ((user 3 [(3, 23), (4, 10)]).setSp 1001)) =
    some (.accessViolation 1000 .write 5) := by decide
/-- T-CT-9. -/
theorem test_ret : (after (step ((user 0 [(0, 24), (998, 5)]).setSp 998))).map (fun t => (t.pc, t.sp)) =
    some (5, 999) := by decide
/-- T-AR-10. -/
theorem test_incX_wraps : (after (step ((user 0 [(0, 25)]).setX 2147483647))).map (fun t => t.x.toInt) =
    some (-2147483648) := by decide
/-- T-AR-11. -/
theorem test_decX : (after (step (user 0 [(0, 26)]))).map (fun t => t.x.toInt) = some (-1) := by decide
/-- T-SK-1. -/
theorem test_push : (after (step ((user 0 [(0, 27)]).setAc 7))).map
    (fun t => (t.sp, Memory.read t.mem 999)) = some (999, 7) := by decide
/-- T-SK-4. -/
theorem test_push_below_zero : faultOf (step ((user 0 [(0, 27)]).setSp 0)) =
    some (.addressRange (-1) .write 1) := by decide
/-- T-SK-2. -/
theorem test_pop : (after (step ((user 0 [(0, 28), (999, 7)]).setSp 999))).map (fun t => (t.ac, t.sp)) =
    some (7, 1000) := by decide
/-- T-SK-3. -/
theorem test_pop_underflow : faultOf (step (user 0 [(0, 28)])) = some (.accessViolation 1000 .read 1) := by decide
/-- T-SY-1. -/
theorem test_softwareInterrupt : (after (step (user 2 [(2, 29)]))).map
    (fun t => (t.kernel, Memory.read t.mem 1999, Memory.read t.mem 1998, t.sp, t.pc, t.timerCount)) =
      some (true, 1000, 3, 1998, 1500, 99) := by decide
/-- T-SY-2. -/
theorem test_softwareInterrupt_lost : (after (step (kern 1510 [(1510, 29)]))).map
    (fun t => (t.pc, t.kernel, t.sp)) = some (1511, true, 1000) := by decide
/-- T-SY-3. -/
theorem test_returnFromInterrupt :
    (after (step ((kern 1000 [(1000, 30), (1998, 3), (1999, 1000)]).setSp 1998))).map
      (fun t => (t.pc, t.sp, t.kernel)) = some (3, 1000, false) := by decide
/-- T-SY-5. -/
theorem test_returnFromInterrupt_user : faultOf (step ((user 0 [(0, 30), (999, 20)]).setSp 999)) =
    some (.accessViolation 1000 .read 20) := by decide
/-- T-SY-6. -/
theorem test_terminate : (after (step (user 4 [(4, 50)]))).map
    (fun t => (t.cpu, t.memUnit, t.pc, t.timerCount)) = some (.halted, .stopped, 5, 99) := by decide
/-- T-SY-7 and T-SY-8. -/
theorem test_unlisted : (([0, 31, 49, 51, -5] : List Word).all fun w =>
    (after (step (user 0 (Memory.write [] 0 w)))).map (fun t => (t.pc, t.ac, t.ir)) == some (1, 0, w)) = true := by
  decide
/-- T-MEM-1, its first two steps: the store changes the word the next fetch reads. -/
theorem test_selfModifying_store : (after (step ((user 2 [(0, 1), (1, 25), (2, 7), (3, 4), (5, 50)]).setAc 25))).map
    (fun t => (Memory.read t.mem 4, t.pc)) = some (25, 4) := by decide

/-! ### Witnesses: each obligation's hypotheses are met, clause by clause, at the bounds of its ranges -/

/-- A state with the opcode `op` at `PC` = 0 and the operand 7. -/
def atOp (op : Word) : State := user 0 (Memory.write [(1, 7)] 0 op)

/-- A memory unit that the host stopped. -/
def cut (s : State) : State := s.setMemUnit .stopped

/-- Parameters under which an interrupt entry faults (they break R11 (c)). -/
def lowStack : Params := { Params.reference with sysStackBase := 0 }

/-- A timer due in user mode, with a one-instruction timer handler. -/
def dueState : State := ((user 2 [(1000, 30)]).setTimerCount 0)

theorem witness_reset_linked : Linked State.reset ∧ Quiet State.reset ∧ State.reset.mem.wf ∧
    State.reset.params.WellFormed ∧ Inv State.reset := by decide

/-- The four kinds of address, at their bounds, in both modes. -/
theorem witness_addresses :
    Accessible (user 0 []) 0 ∧ Accessible (user 0 []) 999 ∧ Protected (user 0 []) 1000 ∧
    Protected (user 0 []) 2147483647 ∧ OutOfRange (user 0 []) (-2) ∧ OutOfRange (user 0 []) Config.sentinel ∧
    OutOfRange (user 0 []) (BitVec.ofInt 32 (-2147483648)) ∧ Accessible (kern 0 []) 0 ∧
    Accessible (kern 0 []) 1000 ∧ Accessible (kern 0 []) 1999 ∧ OutOfRange (kern 0 []) 2000 ∧
    OutOfRange (kern 0 []) (-2) ∧ Linked (user 0 []) ∧ Linked (kern 0 []) := by decide

/-- `RunsOneWord` and `RunsTwoWord`, and with them every completion statement. -/
theorem witness_atOpcode : (([1, 2, 3, 4, 5, 6, 7, 8, 9, 10, 11, 12, 13, 14, 15, 16, 17, 18, 19, 20, 21, 22, 23, 24,
    25, 26, 27, 28, 29, 30, 50] : List Word).all fun op =>
      decide (AtOpcode (atOp op) op ∧ Accessible (atOp op) 1)) = true := by decide

/-- The two stops of an operand read. -/
theorem witness_operand_read_refused :
    AtOpcode (user 999 [(999, 1)]) 1 ∧ Protected (user 999 [(999, 1)]) (999 + 1) ∧
    AtOpcode (kern 1999 [(1999, 1)]) 1 ∧ OutOfRange (kern 1999 [(1999, 1)]) (1999 + 1) := by decide

theorem witness_OpcodeAloneDecidesLength :
    decodeWords ([7, 100, 9] : List Word) = .ok (.store 100, [9]) ∧
    decodeWords ([6, 9] : List Word) = .ok (.loadSpX, [9]) ∧
    isTwoWord (user 0 []).ir = false ∧ decodeIr (user 0 []) = .ok none (user 0 []) := ⟨rfl, rfl, rfl, rfl⟩

theorem witness_DecodeOfEncode : (Instr.store (-1)).wellFormed = true ∧ Instr.ret.wellFormed = true := by decide

theorem witness_EncodeOfDecode : decodeWords ([20, -1, 3] : List Word) = .ok (.jump (-1), [3]) := rfl

theorem witness_UnlistedOpcodeIsNoOp : (([0, -1, 31, 49, 51] : List Word).all fun op =>
    decide (decodeInstr op 0 = none ∧ AtOpcode (atOp op) op)) = true := by decide

theorem witness_StepRunsDecodedInstruction :
    (encode .ret = [24] ∧ AtOpcode (atOp 24) 24) ∧
    (encode (.store 7) = [7, 7] ∧ AtOpcode (atOp 7) 7 ∧ Accessible (atOp 7) 1 ∧ wordAt (atOp 7) 1 = 7) ∧
    State.reset.cpu ≠ .stuck ∧ (State.reset.setCpu .stuck).cpu = .stuck := by decide

theorem witness_FetchSequence_steps :
    (TimerPeriodOk dueState.timerLimit.toInt ∧ dueState.timerCount.toInt ≤ 0) ∧
    ((kern 0 []).setTimerElapsed true).timerElapsed = true ∧ 0 < State.reset.timerCount.toInt ∧
    State.reset.timerElapsed = false ∧
    interrupt .timer ((kern 0 []).setTimerElapsed true) = .ok () ((kern 0 []).setTimerElapsed true) :=
  ⟨by decide, rfl, by decide, rfl, rfl⟩

theorem witness_FetchSequence_faults :
    (∃ f t, interrupt .timer (((user 0 []).setTimerElapsed true).setTimerCount 1) = .ok () t ∧
      readOpcode (user 1000 []) = .fault f ((user 1000 []).setCpu (.faulted f))) ∧
    Protected (user 1000 []) 1000 ∧ OutOfRange (user (-2) []) (-2) :=
  ⟨⟨_, _, rfl, rfl⟩, by decide, by decide⟩

theorem witness_FetchSequence_entry_fault :
    ∃ f t, interrupt .timer { State.reset with params := lowStack, timerElapsed := true } = .fault f t :=
  ⟨_, _, rfl⟩

theorem witness_OperandRead :
    Accessible (user 999 []) 999 ∧ Protected (user 1000 []) 1000 ∧ Linked (user 999 []) ∧
    ∃ f t, getArgument (user 1000 []) = .fault f t :=
  ⟨by decide, by decide, by decide, _, _, rfl⟩

theorem witness_CompletedInstructionTicks :
    (∃ t, step (atOp 25) = .next t ∧ t.cpu ≠ .stuck) ∧ (∃ t, step (user (-1) []) = .next t ∧ t.cpu = .stuck) ∧
    ∃ t, step dueState = .next t :=
  ⟨⟨_, rfl, by decide⟩, ⟨_, rfl, rfl⟩, _, rfl⟩

/-- A launch of the image of E1, with a one-instruction timer handler and a negative draw. -/
def e1Launch : Launch :=
  ⟨some [['.', '0'], ['1'], ['5'], ['9'], ['1'], ['5', '0'], ['.', '1', '0'], ['3', '0']], 1,
    { Params.reference with memWords := 12, sysBase := 10, timerVec := 10, syscallVec := 11, sysStackBase := 12,
                            userSpReset := 10 }, -1, 2, 3, 4, fun _ => 0⟩

theorem witness_launch : ∃ s, launch e1Launch = .next s ∧ TimerOk s ∧ wordAt s 4 = 50 :=
  ⟨_, rfl, by decide, by decide⟩

theorem witness_CountdownStaysInRange :
    TimerOk State.reset ∧ TimerOk (State.reset.setTimerCount 0) ∧ ∃ t, step State.reset = .next t ∧ t.cpu ≠ .stuck :=
  ⟨by decide, by decide, _, rfl, by decide⟩

theorem witness_MemoryRead_faults : ∃ f t, memRead 1000 (user 0 []) = .fault f t := ⟨_, _, rfl⟩

theorem witness_MemoryWrite_faults : ∃ f t, memWrite (-1) 5 (kern 0 []) = .fault f t := ⟨_, _, rfl⟩

theorem witness_SentinelReadSticks :
    Linked ((user 0 []).setX (-1)) ∧ (0 : Word) + ((user 0 []).setX (-1)).x = Config.sentinel ∧
    (((user 0 []).setX (-1001)).sp + ((user 0 []).setX (-1001)).x = Config.sentinel) ∧
    ((user 0 []).setSp (-1)).sp = Config.sentinel ∧ (user (-1) []).pc = Config.sentinel ∧
    (user (-1) []).cpu = .running ∧ NoTimerEvent (user (-1) []) := by decide

theorem witness_MemoryUnitServes :
    State.reset.params.channelFails = false ∧ 0 ≤ (1999 : Word).toInt ∧
    (1999 : Word).toInt < State.reset.params.memWords ∧ ([1, 2, 3] : Message).length ≠ 1 ∧
    ([1, 2, 3] : Message).length ≠ 2 ∧ ([] : Message).length ≠ 1 := by decide

theorem witness_ReadsSeeLatestWrite :
    Linked (user 0 [(5, 1)]) ∧ (user 0 [(5, 1)]).mem.wf ∧ Accessible (user 0 [(5, 1)]) 999 ∧
    (5 : Word) ≠ 999 ∧ Accessible (user 0 [(5, 1)]) 5 := by decide

/-- A user state at a protected `PC` with two posted writes behind it, as a software interrupt leaves them. -/
def postedState : State :=
  stored 1998 3 (stored 1999 1000 ((user 1000 [(1, 7)])))

theorem witness_HostStopKeepsAPrefix :
    (MemoryOk postedState ∧ postedState.memUnit = .serving ∧ Linked postedState ∧ postedState.cpu = .running ∧
      NoTimerEvent postedState ∧ AtRest postedState ∧ Protected postedState postedState.pc) ∧
    (∃ r t, step postedState = .fault (.raised r t)) ∧ Linked (user 0 []) ∧ Accessible (user 0 []) 999 :=
  ⟨by decide, ⟨_, _, rfl⟩, by decide, by decide⟩

/-- R59: what a fault leaves can hold each prefix of the writes sent; the rest stays in the channel. -/
theorem test_stop_after_each_prefix :
    ([0, 1, 2].map fun k => (stopUnitAfter k postedState).mem) =
      [[(1, 7)], [(1, 7), (1999, 1000)], [(1, 7), (1998, 3), (1999, 1000)]] ∧
    (stopUnitAfter 1 postedState).requests = [[1998, 3]] := by decide

/-- R57: where the CPU failed to receive the answer to a read of 1000 behind two writes, the read has been taken only
if both writes were stored. -/
theorem test_stop_takes_in_order :
    ([0, 1, 2, 3].map fun k =>
      let t := stopUnitAfter k (postedState.setUnanswered (some 1000))
      (t.mem.length, t.requests)) =
      [(1, [[1999, 1000], [1998, 3], [1000]]), (2, [[1998, 3], [1000]]), (3, [[1000]]), (3, [])] := by decide

/-- R53, log 27: a failed receive loses the response, and the read is the one in flight. -/
theorem test_failed_receive_loses_response :
    let t := failReceive 5 ((user 0 []).setResponses [7])
    t.responses = [] ∧ t.unanswered = some 5 ∧ inFlight t = [[5]] := by decide

/-- R59, R144: a refused fetch leaves the posted writes and sends no sentinel. -/
theorem test_fault_leaves_posted_writes :
    (leftOf (step postedState)).map (fun t => (t.posted, t.memUnit, t.requests)) =
      some (postedState.posted, .serving, []) := by decide

theorem witness_MemoryIsCanonical : Memory.wf [(0, 1), (1999, -1)] ∧ Memory.wf [] := by decide

/-- A pointer at each kind of address (`LoadInd`). -/
theorem witness_LoadIndLoadsThroughPointer :
    (Accessible (user 2 [(5, 999)]) 5 ∧ Accessible (user 2 [(5, 999)]) (wordAt (user 2 [(5, 999)]) 5)) ∧
    Protected (user 2 [(5, 1000)]) (wordAt (user 2 [(5, 1000)]) 5) ∧
    wordAt (user 2 [(5, -1)]) 5 = Config.sentinel ∧
    (OutOfRange (user 2 [(5, -2)]) (wordAt (user 2 [(5, -2)]) 5) ∧
      wordAt (user 2 [(5, -2)]) 5 ≠ Config.sentinel) := by decide

/-- The loads' four cases with a computed address: `n + X` at 999, 1000, -1 and -2. -/
theorem witness_LoadsFrom :
    Accessible ((user 0 []).setX 9) (990 + 9) ∧ Protected ((user 0 []).setX 10) (990 + 10) ∧
    (0 : Word) + ((user 0 []).setX (-1)).x = Config.sentinel ∧
    (OutOfRange ((user 0 []).setX (-2)) (0 + -2) ∧ (0 : Word) + -2 ≠ Config.sentinel) ∧
    Accessible (((user 0 []).setX 9).setSp 990) (990 + 9) := by decide

theorem witness_PutEmitsEvent : (3 : Word) ≠ 1 ∧ (3 : Word) ≠ 2 ∧ (0 : Word) ≠ 1 ∧ (0 : Word) ≠ 2 := by decide

theorem witness_JumpsSetPc : (State.reset.setAc 0).ac.toInt = 0 ∧ (State.reset.setAc (-1)).ac.toInt ≠ 0 := by decide

/-- `SP - 1` at 999, 1000, and -1, and at 1999 and 2000 in kernel mode. -/
theorem witness_pushes :
    Accessible (user 0 []) ((user 0 []).sp - 1) ∧
    Protected ((user 0 []).setSp 1001) (((user 0 []).setSp 1001).sp - 1) ∧
    OutOfRange ((user 0 []).setSp 0) (((user 0 []).setSp 0).sp - 1) ∧
    Accessible ((kern 0 []).setSp 2000) (((kern 0 []).setSp 2000).sp - 1) ∧
    OutOfRange ((kern 0 []).setSp 2001) (((kern 0 []).setSp 2001).sp - 1) := by decide

/-- `SP` at 999, 1000, -1 and -2. -/
theorem witness_pops :
    Accessible ((user 0 []).setSp 999) ((user 0 []).setSp 999).sp ∧ Protected (user 0 []) (user 0 []).sp ∧
    ((user 0 []).setSp (-1)).sp = Config.sentinel ∧
    (OutOfRange ((user 0 []).setSp (-2)) ((user 0 []).setSp (-2)).sp ∧
      ((user 0 []).setSp (-2)).sp ≠ Config.sentinel) ∧
    ∃ f t, pop (user 0 []) = .fault f t := ⟨by decide, by decide, by decide, by decide, _, _, rfl⟩

/-- A later state for the round trips: the pushed state itself, with other registers changed. -/
theorem witness_PushPopRoundTrip :
    ∃ t, exec .push (user 0 []) = .next t ∧ Linked (t.setAc 5) ∧ (t.setAc 5).sp = t.sp ∧
      wordAt (t.setAc 5) (t.setAc 5).sp = wordAt t t.sp := ⟨_, rfl, by decide, rfl, rfl⟩

theorem witness_CallRetRoundTrip :
    ∃ t, exec (.call 10) (user 5 []) = .next t ∧ Linked (t.setX 5) ∧ (t.setX 5).sp = t.sp ∧
      wordAt (t.setX 5) (t.setX 5).sp = wordAt t t.sp := ⟨_, rfl, by decide, rfl, rfl⟩

theorem witness_InterruptSequence :
    (kern 0 []).kernel = true ∧ (user 0 []).kernel = false ∧ Linked (user 0 []) ∧
    (user 0 []).params.WellFormed := by decide

/-- The two pops of opcode 30: both accessible, the second protected, the second out of range. -/
theorem witness_ReturnFromInterruptRestores :
    (Accessible ((kern 0 []).setSp 1998) 1998 ∧ Accessible ((kern 0 []).setSp 1998) (1998 + 1)) ∧
    (Accessible ((user 0 []).setSp 999) 999 ∧ Protected ((user 0 []).setSp 999) (999 + 1)) ∧
    (Accessible ((kern 0 []).setSp 1999) 1999 ∧ OutOfRange ((kern 0 []).setSp 1999) (1999 + 1)) := by decide

theorem witness_InterruptReturnRoundTrip :
    ∃ t, interrupt .manual (user 3 []) = .ok () t ∧ Linked (t.setAc 5) ∧ (t.setAc 5).kernel = true ∧
      (t.setAc 5).sp = t.sp ∧ (t.setAc 5).mem = t.mem ∧ (t.setAc 5).params = t.params :=
  ⟨_, rfl, by decide, rfl, rfl, rfl, rfl⟩

theorem witness_TerminateEndsRun : (Linked (atOp 50) ∧ AtOpcode (atOp 50) 50) ∧
    ((atOp 50).params.channelFails = true →
      ∀ t, Fault.programImageError ≠ .raised (.channelWriteError [Config.sentinel]) t) :=
  ⟨by decide, fun _ _ => by simp⟩

theorem witness_TimerInterruptIsTaken :
    (dueState.cpu = .running ∧ Linked dueState ∧ dueState.params.WellFormed ∧
      TimerPeriodOk dueState.timerLimit.toInt ∧ TimerTaken dueState) ∧
    TimerTaken ((user 0 []).setTimerElapsed true) := by decide

theorem witness_PendingAndLostInterrupts :
    (∃ t, step ((kern 1000 [(1000, 30), (1998, 3), (1999, 1000)]).setTimerElapsed true |>.setSp 1998) = .next t ∧
      t.kernel = false ∧ t.timerElapsed = true) ∧
    (∃ t, step ((user 0 []).setTimerElapsed true) = .next t ∧ t.timerElapsed = false) ∧
    ((kern 0 []).setTimerCount 0).timerCount.toInt ≤ 0 ∧ (kern 0 []).cpu = .running :=
  ⟨⟨_, rfl, rfl, rfl⟩, ⟨_, rfl, rfl⟩, by decide, rfl⟩

theorem witness_TimerReentryMakesNoProgress :
    let s := { dueState with timerLimit := 1 }
    s.cpu = .running ∧ Linked s ∧ s.params.WellFormed ∧ MemoryOk s ∧ s.kernel = false ∧ s.timerLimit = 1 ∧
      s.timerCount = 0 ∧ wordAt s s.params.timerVec = 30 ∧ s.params.timerVec ≠ s.params.sysStackBase - 1 ∧
      s.params.timerVec ≠ s.params.sysStackBase - 2 := by decide

theorem witness_KernelChangesOnlyByEntryAndReturn :
    (∃ t, step (atOp 29) = .next t ∧ (atOp 29).kernel = false ∧ t.kernel = true) ∧
    (∃ t, step (user 0 [(1000, 25)] |>.setTimerCount 0) = .next t ∧ t.kernel = true) ∧
    ∃ t, step ((kern 1000 [(1000, 30)]).setSp 1998) = .next t ∧ t.kernel = false :=
  ⟨⟨_, rfl, rfl, rfl⟩, ⟨_, rfl, rfl⟩, _, rfl, rfl⟩

/-- The four states of the interrupt state machine. -/
theorem witness_PendingBitTransitions :
    interruptState (user 0 []) = .user ∧ interruptState (kern 0 []) = .kernel ∧
    interruptState ((kern 0 []).setTimerElapsed true) = .kernelPending ∧
    interruptState ((user 0 []).setTimerElapsed true) = .userPending ∧
    (∃ t, step ((kern 0 []).setTimerCount 0) = .next t) ∧ (∃ t, step (kern 0 []) = .next t) ∧
    ∃ t, step ((user 0 []).setTimerElapsed true) = .next t :=
  ⟨rfl, rfl, rfl, rfl, ⟨_, rfl⟩, ⟨_, rfl⟩, _, rfl⟩

theorem witness_FaultsHaveTheirCause :
    (∃ f, step (user 1000 []) = .fault f) ∧ ∃ f, step (kern 2000 []) = .fault f := ⟨⟨_, rfl⟩, _, rfl⟩

theorem witness_RegistersWrittenByTheirOpcodes :
    (∃ t, exec (.loadValue 5) (user 0 []) = .next t ∧ t.ac ≠ 0) ∧
    (∃ t, exec .incX (user 0 []) = .next t ∧ t.x ≠ 0) ∧
    (∃ t, exec .copyToY ((user 0 []).setAc 1) = .next t ∧ t.y ≠ 0) ∧
    (∃ t, exec .push (user 0 []) = .next t ∧ t.sp ≠ 1000) ∧
    (∃ t, exec (.jump 9) (user 0 []) = .next t ∧ t.pc ≠ 0) ∧
    (∃ t, exec .softwareInterrupt (user 0 []) = .next t ∧ t.kernel ≠ false) ∧
    ∃ t, exec (.put 1) (user 0 []) = .next t ∧ t.output ≠ [] :=
  ⟨⟨_, rfl, by decide⟩, ⟨_, rfl, by decide⟩, ⟨_, rfl, by decide⟩, ⟨_, rfl, by decide⟩, ⟨_, rfl, by decide⟩,
    ⟨_, rfl, by decide⟩, _, rfl, by decide⟩

/-- One instruction of each group of the frame, from a quiet state. -/
theorem witness_NonStoringFrame :
    (Quiet (user 0 []) ∧ ∃ t, exec (.loadAddr 5) (user 0 []) = .next t) ∧
    opcodeOf (.loadAddr 5) ∉ ([7, 23, 27, 29] : List Word) ∧
    opcodeOf (.loadAddr 5) ∈ ([1, 2, 3, 4, 5, 6, 8, 10, 11, 12, 13, 15, 17, 19] : List Word) ∧
    opcodeOf (.jump 5) ∈ ([20, 21, 22] : List Word) ∧ opcodeOf .pop = 28 ∧ opcodeOf .ret = 24 ∧
    opcodeOf .returnFromInterrupt = 30 ∧
    (∃ t, exec (.jump 5) (user 0 []) = .next t) ∧ (∃ t, exec .pop (kern 0 []) = .next t) ∧
    (∃ t, exec .ret (kern 0 []) = .next t) ∧ ∃ t, exec .returnFromInterrupt (kern 0 []) = .next t :=
  ⟨⟨by decide, _, rfl⟩, by decide, by decide, by decide, rfl, rfl, rfl, ⟨_, rfl⟩, ⟨_, rfl⟩, ⟨_, rfl⟩, _, rfl⟩

theorem witness_StoringFrame :
    Quiet (user 0 []) ∧ (∃ t, exec (.store 999) (user 0 []) = .next t ∧ absoluteAddr 999 (user 0 []) = 999) ∧
    (∃ t, exec (.call 7) (user 0 []) = .next t) ∧ ∃ t, exec .push (user 0 []) = .next t :=
  ⟨by decide, ⟨_, rfl, rfl⟩, ⟨_, rfl⟩, _, rfl⟩

theorem witness_StepKeepsInv : Inv (atOp 29) ∧ ∃ t, step (atOp 29) = .next t := ⟨by decide, _, rfl⟩

theorem witness_UserStepLeavesSystemMemory :
    (Quiet (atOp 7) ∧ (atOp 7).kernel = false ∧ ¬ TimerTaken (atOp 7) ∧ 1000 ≤ 1999) ∧
    ∃ t, step (atOp 7) = .next t ∧ t.kernel = false := ⟨by decide, _, rfl, rfl⟩

theorem witness_UserStepIgnoresSystemMemory :
    ((atOp 29).kernel = false ∧ Linked (atOp 29) ∧ ¬ TimerTaken (atOp 29) ∧ (atOp 29).params.WellFormed ∧
      (atOp 29).mem.wf ∧ Memory.wf ((atOp 29).mem ++ [(1500, 30)])) ∧
    (∃ t, step (atOp 29) = .next t) ∧ ¬ TimerTaken (user 1000 []) ∧
    ∃ r t, step (user 1000 []) = .fault (.raised r t) := ⟨by decide, ⟨_, rfl⟩, by decide, _, _, rfl⟩

/-- The two memories of that witness agree below system space. -/
theorem witness_UserStepIgnoresSystemMemory_agree :
    AlikeBelow (atOp 29).params.sysBase ((atOp 29).mem ++ [(1500, 30)]) (atOp 29).mem := by
  intro a h
  have h5 : ¬ 1500 = a := by
    have hs : (atOp 29).params.sysBase = 1000 := rfl
    omega
  change Memory.read [(0, 29), (1, 7), (1500, 30)] a = Memory.read [(0, 29), (1, 7)] a
  simp [Memory.read, h5]

theorem witness_StoppedCpuTakesNoStep : (State.reset.setCpu .halted).cpu ≠ .running ∧
    (State.reset.setCpu .stuck).cpu ≠ .running ∧
    (State.reset.setCpu (.faulted (.channelReadError 0))).cpu ≠ .running := by decide

/-- An address of the array that the image of E1 names no word for, and one it does. -/
theorem witness_unnamed_cell : 6 < e1Launch.params.memWords ∧
    (e1Launch.image.map fun lines => wordIndexes lines 0) = some [0, 1, 2, 3, 4, 10] := by decide

theorem witness_LaunchLeavesResetState :
    ¬ Params.WellFormed lowStack ∧ e1Launch.params.WellFormed ∧ TimerPeriodOk e1Launch.timerLimit ∧
    ¬ TimerPeriodOk 0 ∧ (∃ m, loadLines e1Launch.params [['1']] 0 (drawnMemory e1Launch.params e1Launch.cell) = some m) ∧
    loadLines e1Launch.params [['.', '1', '2'], ['1']] 0 (drawnMemory e1Launch.params e1Launch.cell) = none :=
  ⟨by decide, by decide, by decide, by decide, ⟨_, rfl⟩, rfl⟩

/-- A line with its number and a comment, at the last index and past it. -/
theorem witness_ImageLinesPlaceWords :
    (∀ c ∈ ['5', '0'], (digitValue c).isSome = true) ∧ (['5', '0'] : List Char) ≠ [] ∧ digitValue ' ' = none ∧
    1999 < Params.reference.memWords ∧ (readDigits ['5', '0'] 0 : Int) ≤ Word.maxInt ∧
    Params.reference.memWords ≤ 2000 ∧ ([' ', 'x'] : List Char).head? ≠ some '.' :=
  ⟨by simp [digitValue], by simp, by decide, by decide, by decide, by decide, by decide⟩

theorem witness_ImageHoldsNoNegativeWord :
    Memory.wf [] ∧ (∀ a, 0 ≤ (Memory.read [] a).toInt) ∧
    loadLines Params.reference [['-', '5'], ['7']] 0 [] = some [(0, 7)] := ⟨by decide, fun _ => by simp [Memory.read, Config.unlistedWord], rfl⟩

end Sys2Proof.Tests
end

section
/-! PROOFS. The tick of a completed instruction (spec/10_state.md R28, spec/40_cycle.md R77). -/

namespace Sys2Proof.Machine

/-! ### The tick -/

@[simp] theorem tick_cpu (s : State) : (tick s).cpu = s.cpu := by
  unfold tick; split <;> rfl

theorem tick_of_not_stuck {s : State} (h : s.cpu ≠ .stuck) : tick s = s.setTimerCount (s.timerCount - 1) :=
  if_neg h

/-! ### The way to the tick -/

/-- The operand read advances at most `PC`: what no instruction changes, it leaves too. -/
theorem decodeIr_ok_frame {s t : State} {d : Option Instr} (h : decodeIr s = .ok d t) :
    ExecFrame s t ∧ t.cpu = s.cpu := by
  rcases decodeIr_ok h with ⟨-, -, rfl⟩ | ⟨-, v, r, hr, -, rfl⟩
  · exact ⟨⟨rfl, rfl, rfl, rfl, rfl, id⟩, rfl⟩
  · obtain ⟨⟨f, c⟩, -, m⟩ := memRead_ok hr
    exact ⟨⟨f.ir, f.timerElapsed, f.timerLimit, f.timerCount, f.params, m⟩, c⟩

/-- A step that does not leave the CPU stuck ran its instruction to the end: the timer phase, the opcode read, the
operand read and `perform` all went on, and the tick followed. -/
theorem step_next_completed {s t : State} (h : step s = .next t) (ht : t.cpu ≠ .stuck) :
    ∃ a w b d c r, timerPhase s = .ok () a ∧ memRead a.pc a = .ok w b ∧
      decodeIr (fetched b w) = .ok d c ∧ perform d c = .next r ∧ t = r.setTimerCount (r.timerCount - 1) := by
  obtain ⟨-, a, hp, hs | ⟨w, b, hm, hs | ⟨d, c, r, hd, hx, rfl⟩⟩⟩ := step_next h
  · exact absurd (memRead_stuck hs).2.1 ht
  · exact absurd (memRead_stuck hs).2.1 ht
  · exact ⟨a, w, b, d, c, r, hp, hm, hd, hx, tick_of_not_stuck (by simpa using ht)⟩

/-- The timer over a completed step: after the timer phase the tick alone writes it. -/
theorem step_next_timer {s t : State} (h : step s = .next t) (ht : t.cpu ≠ .stuck) :
    t.timerLimit = s.timerLimit ∧
    t.timerCount = (if s.timerCount.toInt ≤ 0 then s.timerLimit else s.timerCount) - 1 := by
  obtain ⟨a, w, b, d, c, r, hp, hm, hd, hx, rfl⟩ := step_next_completed h ht
  obtain ⟨phase, -⟩ := timerPhase_ok hp
  obtain ⟨⟨opcode, -⟩, -⟩ := memRead_ok hm
  obtain ⟨operand, -⟩ := decodeIr_ok_frame hd
  obtain ⟨body, -⟩ := perform_next hx
  constructor
  · calc r.timerLimit = c.timerLimit := body.timerLimit
      _ = b.timerLimit := operand.timerLimit
      _ = a.timerLimit := opcode.timerLimit
      _ = s.timerLimit := phase.timerLimit
  · have hcount : r.timerCount = if s.timerCount.toInt ≤ 0 then s.timerLimit else s.timerCount :=
      calc r.timerCount = c.timerCount := body.timerCount
        _ = b.timerCount := operand.timerCount
        _ = a.timerCount := opcode.timerCount
        _ = _ := phase.timerCount
    rw [State.setTimerCount_timerCount, hcount]

/-- Settles O10: a completed step runs through to the tick (`step_next_timer`), and no instruction writes the
countdown (`exec_next`). -/
theorem completedInstructionTicks : Obligations.CompletedInstructionTicks :=
  ⟨fun _ _ h ht => step_next_timer h ht, fun _ _ _ h => (exec_next h).1.timerCount⟩

end Sys2Proof.Machine
end

section
/-! PROOFS. The memory unit on the message it takes (spec R55). -/

namespace Sys2Proof.Machine

/-! ### On a reliable channel -/

theorem handleRequest_reliable {s : State} (h : s.params.channelFails = false) (m : Message) :
    handleRequest m s = actOnMessage m s := by
  simp only [handleRequest, channelDraw_reliable h]

theorem reply_reliable {s : State} (h : s.params.channelFails = false) (v : Word) :
    reply v s = s.setResponses (s.responses ++ [v]) := by
  simp only [reply, channelDraw_reliable h]

/-! ### One equation per message size -/

theorem actOnMessage_sentinel (s : State) : actOnMessage [Config.sentinel] s = s.setMemUnit .stopped := by
  simp only [actOnMessage, if_pos]

theorem ne_sentinel_of_inRange {p : Params} {a : Word} (ha : inRange p a = true) : a ≠ Config.sentinel := by
  rintro rfl
  obtain ⟨h0, -⟩ := inRange_iff.mp ha
  rw [sentinel_toInt] at h0
  omega

theorem actOnMessage_read {s : State} {a : Word} (ha : inRange s.params a = true) :
    actOnMessage [a] s = reply (wordAt s a) s := by
  simp only [actOnMessage, if_neg (ne_sentinel_of_inRange ha), if_pos ha]

theorem actOnMessage_write {s : State} {a : Word} (ha : inRange s.params a = true) (v : Word) :
    actOnMessage [a, v] s = stored a v s := by
  simp only [actOnMessage, if_pos ha]

theorem actOnMessage_otherSize {m : Message} (h1 : m.length ≠ 1) (h2 : m.length ≠ 2) (s : State) :
    actOnMessage m s = s.setMemUnit .stopped := by
  match m with
  | [] => rfl
  | [_] => exact absurd rfl h1
  | [_, _] => exact absurd rfl h2
  | _ :: _ :: _ :: _ => rfl

/-! ### On any channel: the unit stays as it was or stops -/

theorem reply_memUnit (v : Word) (s : State) :
    (reply v s).memUnit = s.memUnit ∨ (reply v s).memUnit = .stopped := by
  unfold reply
  split <;> obtain ⟨⟨d, rfl⟩, -⟩ := channelDraw_spec ‹_›
  · exact .inr rfl
  · exact .inl rfl

theorem actOnMessage_memUnit (m : Message) (s : State) :
    (actOnMessage m s).memUnit = s.memUnit ∨ (actOnMessage m s).memUnit = .stopped := by
  match m with
  | [a] =>
    by_cases hs : a = Config.sentinel
    · rw [hs, actOnMessage_sentinel]; exact .inr rfl
    · by_cases ha : inRange s.params a = true
      · rw [actOnMessage_read ha]; exact reply_memUnit _ s
      · simp only [actOnMessage, if_neg hs, if_neg ha]; exact .inr rfl
  | [a, v] =>
    by_cases ha : inRange s.params a = true
    · rw [actOnMessage_write ha]; exact .inl rfl
    · simp only [actOnMessage, if_neg ha]; exact .inr rfl
  | [] | _ :: _ :: _ :: _ => exact .inr rfl

theorem handleRequest_memUnit (m : Message) (s : State) :
    (handleRequest m s).memUnit = s.memUnit ∨ (handleRequest m s).memUnit = .stopped := by
  unfold handleRequest
  split <;> obtain ⟨⟨d, rfl⟩, -⟩ := channelDraw_spec ‹_›
  · exact .inr rfl
  · exact actOnMessage_memUnit m (s.setDraws d)

/-- Settles O15: on a reliable channel no receive and no reply fails, so `handleRequest` is `actOnMessage`, which has
one equation per message size; on any channel each branch keeps the unit's state or stops it. -/
theorem memoryUnitServes : Obligations.MemoryUnitServes := by
  intro s
  refine ⟨fun hc => ⟨?sentinel, fun a h0 hlt => ?address, fun m h1 h2 => ?otherSize⟩,
    fun m => handleRequest_memUnit m s⟩
  case sentinel => rw [handleRequest_reliable hc, actOnMessage_sentinel]
  case address =>
    have ha : inRange s.params a = true := inRange_iff.mpr ⟨h0, hlt⟩
    constructor
    · rw [handleRequest_reliable hc, actOnMessage_read ha, reply_reliable hc]
    · intro v
      rw [handleRequest_reliable hc, actOnMessage_write ha]
  case otherSize => rw [handleRequest_reliable hc, actOnMessage_otherSize h1 h2]

end Sys2Proof.Machine
end

section
/-! PROOFS. The opcode map and the words outside it (spec/30_encoding.md R70, R71, spec/45_system.md R122). -/

namespace Sys2Proof

/-! ### Decoding by format -/

/-- A W2 row takes the word after its opcode as the operand. -/
theorem decodeWords_twoWord {op v : Word} {rest : List Word} {i : Instr} (hop : isTwoWord op = true)
    (h : decodeInstr op v = some i) : decodeWords (op :: v :: rest) = .ok (i, rest) := by
  simp only [decodeWords, hop, h]

/-- A W1 row takes no word after its opcode. -/
theorem decodeWords_oneWord {op : Word} {rest : List Word} {i : Instr} (hop : isTwoWord op = false)
    (h : decodeInstr op 0 = some i) : decodeWords (op :: rest) = .ok (i, rest) := by
  simp only [decodeWords, hop, h]

/-- Settles O1: each row of the map has the format and the instruction that the two lemmas above ask for. -/
theorem opcodeMapDecodes : Obligations.OpcodeMapDecodes := by
  intro v rest
  have two {op i} := @decodeWords_twoWord op v rest i
  have one {op i} := @decodeWords_oneWord op rest i
  exact ⟨
    /-  1 to 5   -/ two rfl rfl, two rfl rfl, two rfl rfl, two rfl rfl, two rfl rfl,
    /-  6 to 9   -/ one rfl rfl, two rfl rfl, one rfl rfl, two rfl rfl,
    /- 10 to 13  -/ one rfl rfl, one rfl rfl, one rfl rfl, one rfl rfl,
    /- 14 to 19  -/ one rfl rfl, one rfl rfl, one rfl rfl, one rfl rfl, one rfl rfl, one rfl rfl,
    /- 20 to 23  -/ two rfl rfl, two rfl rfl, two rfl rfl, two rfl rfl,
    /- 24 to 28  -/ one rfl rfl, one rfl rfl, one rfl rfl, one rfl rfl, one rfl rfl,
    /- 29 to 50  -/ one rfl rfl, one rfl rfl, one rfl rfl⟩

/-! ### The words outside the map -/

/-- R70, R71: the rows of the map are the numbers 1 to 30 and 50, read unsigned, whatever the operand word. -/
theorem decodeInstr_eq_none_iff_toNat {op v : Word} :
    decodeInstr op v = none ↔ op.toNat = 0 ∨ (31 ≤ op.toNat ∧ op.toNat ≤ 49) ∨ 50 < op.toNat := by
  unfold decodeInstr
  split
  case h_32 => exact iff_of_true rfl (by simp only [imp_false] at *; omega)
  all_goals exact iff_of_false nofun (by omega)

/-- A word that is negative as a signed integer lies above 50 as an unsigned one. -/
theorem toNat_outside_map_iff_toInt (op : Word) :
    (op.toNat = 0 ∨ (31 ≤ op.toNat ∧ op.toNat ≤ 49) ∨ 50 < op.toNat) ↔
      op.toInt ≤ 0 ∨ (31 ≤ op.toInt ∧ op.toInt ≤ 49) ∨ 50 < op.toInt := by
  have hlt : op.toNat < 2 ^ 32 := op.isLt
  rw [BitVec.toInt_eq_toNat_cond]
  split <;> omega

/-- R71: the unlisted words, read signed. -/
theorem decodeInstr_eq_none_iff {op v : Word} :
    decodeInstr op v = none ↔ op.toInt ≤ 0 ∨ (31 ≤ op.toInt ∧ op.toInt ≤ 49) ∨ 50 < op.toInt :=
  decodeInstr_eq_none_iff_toNat.trans (toNat_outside_map_iff_toInt op)

/-- A two-word opcode is one of the map, so its number is at most 23. -/
theorem toNat_of_isTwoWord {op : Word} (h : isTwoWord op = true) : 1 ≤ op.toNat ∧ op.toNat ≤ 23 := by
  unfold isTwoWord at h
  split at h
  case h_12 => cases h
  all_goals omega

/-- R71: an unlisted word is one word long. -/
theorem isTwoWord_of_unlisted {op v : Word} (h : decodeInstr op v = none) : isTwoWord op = false := by
  have hout := decodeInstr_eq_none_iff_toNat.mp h
  refine Bool.eq_false_iff.mpr fun htwo => ?_
  have hin := toNat_of_isTwoWord htwo
  omega

end Sys2Proof

namespace Sys2Proof.Machine

/-- R122: fetch writes `IR` and `PC`, the no-op writes nothing, and the tick ends the step. -/
theorem step_unlisted {s : State} {op : Word} (hop : decodeInstr op 0 = none) (h : AtOpcode s op) :
    step s = .next ((fetched s op).setTimerCount (s.timerCount - 1)) := by
  have hcpu : (fetched s op).cpu ≠ .stuck := by
    rw [fetched_cpu, h.1]
    exact nofun
  calc step s = finish (perform none (fetched s op)) := by
        rw [step_oneWord (isTwoWord_of_unlisted hop) h, hop]
    _ = .next (tick (fetched s op)) := rfl
    _ = .next ((fetched s op).setTimerCount (s.timerCount - 1)) := by
        rw [tick_of_not_stuck hcpu, fetched_timerCount]

/-- Settles O6: the unlisted words are those outside the numbers of the map (`decodeInstr_eq_none_iff`), and such a
word runs as a one-word no-op (`step_unlisted`). -/
theorem unlistedOpcodeIsNoOp : Obligations.UnlistedOpcodeIsNoOp :=
  ⟨fun _ _ => decodeInstr_eq_none_iff, fun _ _ hop h => step_unlisted hop h⟩

end Sys2Proof.Machine
end

section
/-! PROOFS. The operand read (spec/40_cycle.md R78). -/

namespace Sys2Proof.Machine

theorem getArgument_linked {s : State} (h : Linked s) (ha : Accessible s s.pc) :
    getArgument s = .ok (wordAt s s.pc) (s.setPc (s.pc + 1)) := by
  rw [getArgument, memRead_linked h ha, Res.bind_ok]

/-- The check of the read refuses (R46), so `PC` is not advanced. -/
theorem getArgument_protected {s : State} (h : Protected s s.pc) :
    getArgument s = raise (.accessViolation s.pc .read s.pc) s := by
  rw [getArgument, memRead_protected h, raise_eq, Res.bind_fault]

/-- Only the read can fault: the increment of `PC` that follows it always goes on. -/
theorem getArgument_fault_iff {s t : State} {f : FaultReport} :
    getArgument s = .fault f t ↔ memRead s.pc s = .fault f t := by
  rw [getArgument, Res.bind_eq_fault, or_iff_left]
  rintro ⟨v, u, -, hinc⟩
  cases hinc

/-- Settles O9: the read at an accessible and at a protected `PC`, and a fault is one of the read, which keeps every
register (`memRead_fault`). -/
theorem operandRead : Obligations.OperandRead := by
  refine ⟨fun s hl ha => getArgument_linked hl ha, fun s hp => ⟨_, getArgument_protected hp⟩, fun s t f h => ?fault⟩
  case fault =>
    obtain ⟨regs, -, cause⟩ := memRead_fault (getArgument_fault_iff.mp h)
    exact ⟨cause, regs.pc⟩

end Sys2Proof.Machine
end

section
/-! PROOFS. The step of a listed opcode, one word or two (spec/40_cycle.md R76 to R78). -/

namespace Sys2Proof.Machine

/-- The operand read raises `f` where the fetch left the machine, and the step ends there (R78, R144). -/
theorem step_operandRefused {s : State} {op : Word} {f : FaultReport} (hop : isTwoWord op = true)
    (h : AtOpcode s op) (hf : memRead (s.pc + 1) (fetched s op) = raise f (fetched s op)) :
    step s = (raise f (fetched s op) : Res Unit).outcome := by
  obtain ⟨hr, hl, hn, ha, rfl⟩ := h
  have hd : decodeIr (fetched s (wordAt s s.pc)) = raise f (fetched s (wordAt s s.pc)) := by
    rw [decodeIr, if_pos (by exact hop), getArgument, fetched_pc, hf]
    rfl
  rw [step_running hr, timerPhase_none hn, Res.bind_ok, readOpcode, memRead_linked hl ha, Res.bind_ok,
    Res.bind_ok, hd]
  rfl

theorem runsOneWord_of_decodeInstr {op : Word} {i : Instr} (hop : isTwoWord op = false)
    (hi : decodeInstr op 0 = some i) : RunsOneWord op i := by
  intro s h
  rw [step_oneWord hop h, hi]
  rfl

/-- The operand of a fetched instruction never stands at the sentinel, so an operand read outside the array faults. -/
theorem runsTwoWord_of_decodeInstr {op : Word} {i : Word → Instr} (hop : isTwoWord op = true)
    (hi : ∀ v, decodeInstr op v = some (i v)) : RunsTwoWord op i := by
  intro s h
  have hs : s.pc + 1 ≠ Config.sentinel := by
    obtain ⟨-, -, -, ha, -⟩ := h
    exact ha.succ_ne_sentinel
  refine ⟨fun ha => ?accessible, fun hp => ?violation, fun ho => ?outOfRange⟩
  case accessible =>
    rw [step_twoWord hop h ha, hi]
    rfl
  case violation =>
    rw [step_operandRefused hop h (memRead_protected (s := fetched s op) hp)]
    exact .of_raise (.refl _)
  case outOfRange =>
    rw [step_operandRefused hop h (memRead_outOfRange (s := fetched s op) ho hs)]
    exact .of_raise (.refl _)

end Sys2Proof.Machine
end

section
/-! PROOFS. Loads and the store (spec/41_load_store.md R84 to R91). -/

namespace Sys2Proof.Machine

/-! ### The bodies, through the shared operations -/

theorem exec_loadAddr (n : Word) (s : State) : exec (.loadAddr n) s = (loadAc n s).outcome := rfl

theorem exec_loadInd (n : Word) (s : State) : exec (.loadInd n) s = ((memRead n s).bind loadAc).outcome := rfl

theorem exec_store (n : Word) (s : State) : exec (.store n) s = (memWrite n s.ac s).outcome := rfl

/-! ### The load of `AC` from an address -/

theorem loadAc_linked {s : State} {a : Word} (h : Linked s) (ha : Accessible s a) :
    loadAc a s = .ok () (s.setAc (wordAt s a)) := by
  rw [loadAc, memRead_linked h ha, Res.bind_ok]

theorem loadAc_protected {s : State} {a : Word} (h : Protected s a) :
    loadAc a s = raise (.accessViolation a .read s.pc) s := by
  rw [loadAc, memRead_protected h, raise_eq, Res.bind_fault, raise_eq]

theorem loadAc_sentinel {s : State} (h : Linked s) :
    loadAc Config.sentinel s = .stuck ((s.setMemUnit .stopped).setCpu .stuck) := by
  rw [loadAc, memRead_sentinel h, Res.bind_stuck]

theorem loadAc_outOfRange {s : State} {a : Word} (h : OutOfRange s a) (hs : a ≠ Config.sentinel) :
    loadAc a s = raise (.addressRange a .read s.pc) s := by
  rw [loadAc, memRead_outOfRange h hs, raise_eq, Res.bind_fault, raise_eq]

/-- An instruction whose body is the load of `AC` from the address `a` ends as that load does. -/
theorem loadsFrom_of_exec_eq {i : Instr} {a : State → Word} (h : ∀ s, exec i s = (loadAc (a s) s).outcome) :
    LoadsFrom i a := by
  intro s hl
  rw [h]
  refine ⟨fun ha => ?accessible, fun hp => ?violation, fun hs => ?sentinel, fun ho hs => ?outOfRange⟩
  case accessible => rw [loadAc_linked hl ha, Res.outcome_ok]
  case violation => rw [loadAc_protected hp]; exact .of_raise (.refl s)
  case sentinel => rw [hs, loadAc_sentinel hl, Res.outcome_stuck]
  case outOfRange => rw [loadAc_outOfRange ho hs]; exact .of_raise (.refl s)

theorem loadAddr_loadsFrom (n : Word) : LoadsFrom (.loadAddr n) (fun _ => n) :=
  loadsFrom_of_exec_eq (exec_loadAddr n)

/-! ### The load through a pointer -/

/-- R87: once the pointer is read, the data read is that of `LoadAddr` at the word it names. -/
theorem exec_loadInd_accessible {s : State} {n : Word} (h : Linked s) (hn : Accessible s n) :
    exec (.loadInd n) s = exec (.loadAddr (wordAt s n)) s := by
  rw [exec_loadInd, memRead_linked h hn, Res.bind_ok, exec_loadAddr]

/-- R87: a pointer read that does not go on ends the instruction, so that the data read never happens. -/
theorem exec_loadInd_not_accessible {s : State} {n : Word} (hn : ¬ Accessible s n) :
    exec (.loadInd n) s = exec (.loadAddr n) s := by
  rw [exec_loadInd, exec_loadAddr, loadAc]
  cases hr : memRead n s with
  | ok v t => exact absurd (memRead_ok hr).2.1 hn
  | fault f t => rfl
  | stuck t => rfl

theorem OutOfRange.not_accessible {s : State} {a : Word} (h : OutOfRange s a) : ¬ Accessible s a :=
  fun ha => h.not_inRange ha.inRange

/-! ### The statements -/

/-- Settles O19: opcode 1 is a two-word row of the map, and `LoadValue` accesses no memory. -/
theorem loadValueLoadsOperand : Obligations.LoadValueLoadsOperand :=
  ⟨runsTwoWord_of_decodeInstr rfl fun _ => rfl, fun _ _ => rfl⟩

/-- Settles O20: opcode 2 is a two-word row of the map, and `LoadAddr` loads from its operand. -/
theorem loadAddrLoadsWord : Obligations.LoadAddrLoadsWord :=
  ⟨runsTwoWord_of_decodeInstr rfl fun _ => rfl, loadAddr_loadsFrom⟩

/-- Settles O21: with an accessible pointer the instruction is `LoadAddr` of the word there, and with any other it ends
as `LoadAddr` of the pointer's own address does. -/
theorem loadIndLoadsThroughPointer : Obligations.LoadIndLoadsThroughPointer := by
  refine ⟨runsTwoWord_of_decodeInstr rfl fun _ => rfl, fun s n hl => ?_⟩
  obtain ⟨dataOk, dataProtected, dataSentinel, dataRange⟩ := loadAddr_loadsFrom (wordAt s n) s hl
  obtain ⟨-, pointerProtected, pointerSentinel, pointerRange⟩ := loadAddr_loadsFrom n s hl
  have data (hn : Accessible s n) := exec_loadInd_accessible hl hn
  have pointer (hn : ¬ Accessible s n) := exec_loadInd_not_accessible hn
  exact ⟨
    fun hn h => data hn ▸ dataOk h,
    fun hn h => data hn ▸ dataProtected h,
    fun hn h => data hn ▸ dataSentinel h,
    fun hn h hs => data hn ▸ dataRange h hs,
    fun h => pointer (fun hn => hn.notProtected h) ▸ pointerProtected h,
    fun h => pointer (fun hn => hn.ne_sentinel h) ▸ pointerSentinel h,
    fun h hs => pointer h.not_accessible ▸ pointerRange h hs⟩

/-- Settles O22: opcodes 4 and 5 are two-word rows of the map, and each loads from its indexed address. -/
theorem indexedLoadsLoadWord : Obligations.IndexedLoadsLoadWord :=
  ⟨runsTwoWord_of_decodeInstr rfl fun _ => rfl, runsTwoWord_of_decodeInstr rfl fun _ => rfl,
    fun _ => ⟨loadsFrom_of_exec_eq fun _ => rfl, loadsFrom_of_exec_eq fun _ => rfl⟩⟩

/-- Settles O23: opcode 6 is a one-word row of the map, and `LoadSpX` loads from its stack-relative address. -/
theorem loadSpXLoadsWord : Obligations.LoadSpXLoadsWord :=
  ⟨runsOneWord_of_decodeInstr rfl rfl, loadsFrom_of_exec_eq fun _ => rfl⟩

/-- Settles O24: opcode 7 is a two-word row of the map, and `Store` ends as the write at its operand does, which has no
case of its own for -1. -/
theorem storeStoresAc : Obligations.StoreStoresAc := by
  refine ⟨runsTwoWord_of_decodeInstr rfl fun _ => rfl, fun s n => ?_⟩
  rw [exec_store]
  refine ⟨fun hl ha => ?accessible, fun hp => ?violation, fun ho => ?outOfRange⟩
  case accessible => rw [memWrite_linked hl ha, Res.outcome_ok]
  case violation => rw [memWrite_protected hp]; exact .of_raise (.refl s)
  case outOfRange => rw [memWrite_outOfRange ho]; exact .of_raise (.refl s)

end Sys2Proof.Machine
end

section
/-! PROOFS. The random-value input (spec/42_io.md R93, R94). -/

namespace Sys2Proof.Machine

/-- R93: `RAND_LO` and `RAND_HI` are 1 and 100, and a draw less `RAND_LO` is below 100. -/
theorem randomWord_eq_ofNat (n : Nat) : ∃ r : Nat, 1 ≤ r ∧ r ≤ 100 ∧ randomWord n = BitVec.ofNat 32 r := by
  have hdraw : (Config.randomDraw n).val < 100 := (Config.randomDraw n).isLt
  refine ⟨Config.randLo + (Config.randomDraw n).val, ?lower, ?upper, rfl⟩
  case lower => exact Nat.le_add_right 1 _
  case upper => simp only [Config.randLo]; omega

theorem exec_get (s : State) :
    exec .get s = .next ((s.setAc (randomWord s.draws)).setDraws (s.draws + 1)) := rfl

/-- Settles O25: opcode 8 is a one-word row of the map, and `Get` loads the next draw, which lies in the range. -/
theorem getDrawsInRange : Obligations.GetDrawsInRange := by
  refine ⟨runsOneWord_of_decodeInstr rfl rfl, fun s => ?_⟩
  obtain ⟨r, lower, upper, hr⟩ := randomWord_eq_ofNat s.draws
  exact ⟨r, s.draws + 1, lower, upper, by rw [exec_get, hr]⟩

end Sys2Proof.Machine
end

section
/-! PROOFS. Control transfer and the stack (spec/44_control_stack.md R111 to R113, R115 to R117). -/

namespace Sys2Proof.Machine

/-! ### The test of the conditional jumps -/

theorem acIsZero_iff {s : State} : acIsZero s = true ↔ s.ac.toInt = 0 := by
  have h0 : (0 : Word).toInt = 0 := BitVec.toInt_zero
  rw [acIsZero, beq_iff_eq, ← BitVec.toInt_inj, h0]

theorem exec_jumpIfEqual (t : Word) (s : State) :
    exec (.jumpIfEqual t) s = if acIsZero s then .next (s.setPc t) else .next s := rfl

theorem exec_jumpIfNotEqual (t : Word) (s : State) :
    exec (.jumpIfNotEqual t) s = if acIsZero s then .next s else .next (s.setPc t) := rfl

/-- Settles O30: opcodes 20 to 22 are two-word rows of the map, and the conditional jumps test one condition, each
with the branches of the other exchanged. -/
theorem jumpsSetPc : Obligations.JumpsSetPc := by
  refine ⟨runsTwoWord_of_decodeInstr rfl fun _ => rfl, runsTwoWord_of_decodeInstr rfl fun _ => rfl,
    runsTwoWord_of_decodeInstr rfl fun _ => rfl, fun s t => ⟨rfl, fun hz => ?zero, fun hz => ?nonzero⟩⟩
  case zero =>
    have hac : acIsZero s = true := acIsZero_iff.mpr hz
    rw [exec_jumpIfEqual, exec_jumpIfNotEqual, if_pos hac, if_pos hac]
    exact ⟨rfl, rfl⟩
  case nonzero =>
    have hac : ¬ acIsZero s = true := mt acIsZero_iff.mp hz
    rw [exec_jumpIfEqual, exec_jumpIfNotEqual, if_neg hac, if_neg hac]
    exact ⟨rfl, rfl⟩

/-! ### The push -/

theorem exec_push (s : State) : exec .push s = (push s.ac s).outcome := rfl

/-- R79: the push that the privilege check refuses has decremented `SP`, whatever word is pushed. -/
theorem push_protected_sp {s : State} (v : Word) (h : Protected s (s.sp - 1)) :
    ∃ t, push v s = .fault (.accessViolation (s.sp - 1) .write s.pc) t ∧ t.sp = s.sp - 1 :=
  ⟨_, push_protected v h, rfl⟩

/-- A push that raises `f` has written nothing outside the CPU: only `SP` was decremented before the check. -/
theorem push_faultsWith {s : State} {v : Word} {f : FaultReport}
    (h : push v s = raise f (s.setSp (s.sp - 1))) : FaultsWith s (push v s).outcome f := by
  rw [h]
  exact .of_raise (.refl s)

/-- Settles O33: opcode 27 is a one-word row of the map, and `Push` ends as the push of `AC` does. -/
theorem pushWritesBelowSp : Obligations.PushWritesBelowSp := by
  refine ⟨runsOneWord_of_decodeInstr rfl rfl, fun s => ?_⟩
  rw [exec_push]
  refine ⟨fun hl ha => ?accessible, fun hp => ⟨?violation, fun v => push_protected_sp v hp⟩, fun ho => ?outOfRange⟩
  case accessible => rw [push_linked hl _ ha, Res.outcome_ok]
  case violation => exact push_faultsWith (push_protected _ hp)
  case outOfRange => exact push_faultsWith (push_outOfRange _ ho)

/-! ### The pop -/

theorem exec_ret (s : State) : exec .ret s = ((pop s).bind fun v t => .ok () (t.setPc v)).outcome := rfl

theorem exec_pop (s : State) : exec .pop s = ((pop s).bind fun v t => .ok () (t.setAc v)).outcome := rfl

/-- An instruction whose body puts the popped word somewhere has the four cases of the pop (R80), whichever register
`put` writes. -/
theorem pops_of_exec_eq {i : Instr} {put : State → Word → State} {s : State}
    (h : exec i s = ((pop s).bind fun v t => .ok () (put t v)).outcome) :
    (Linked s → Accessible s s.sp → exec i s = .next (put (s.setSp (s.sp + 1)) (wordAt s s.sp))) ∧
    (Protected s s.sp → FaultsWith s (exec i s) (.accessViolation s.sp .read s.pc)) ∧
    (Linked s → s.sp = Config.sentinel → exec i s = .next ((s.setMemUnit .stopped).setCpu .stuck)) ∧
    (OutOfRange s s.sp → s.sp ≠ Config.sentinel → FaultsWith s (exec i s) (.addressRange s.sp .read s.pc)) := by
  rw [h]
  refine ⟨fun hl ha => ?accessible, fun hp => ?violation, fun hl hs => ?sentinel, fun ho hs => ?outOfRange⟩
  case accessible => rw [pop_linked hl ha, Res.bind_ok, Res.outcome_ok]
  case violation => rw [pop_protected hp]; exact .of_raise (.refl s)
  case sentinel => rw [pop_sentinel hl hs, Res.bind_stuck, Res.outcome_stuck]
  case outOfRange => rw [pop_outOfRange ho hs]; exact .of_raise (.refl s)

/-- R80: only the read of a pop can fault, and it does so before `SP` is incremented. -/
theorem pop_fault_sp {s t : State} {f : FaultReport} (h : pop s = .fault f t) : t.sp = s.sp := by
  rcases Res.bind_eq_fault.mp h with hread | ⟨_, _, -, hinc⟩
  · obtain ⟨regs, -, -⟩ := memRead_fault hread
    exact regs.sp
  · cases hinc

/-- Settles O32: opcode 24 is a one-word row of the map, and `Ret` puts the popped word in `PC`. -/
theorem retPopsPc : Obligations.RetPopsPc := by
  refine ⟨runsOneWord_of_decodeInstr rfl rfl, fun s hl => ?_⟩
  obtain ⟨accessible, violation, sentinel, outOfRange⟩ := pops_of_exec_eq (exec_ret s)
  exact ⟨accessible hl, violation, sentinel hl, outOfRange⟩

/-- Settles O34: opcode 28 is a one-word row of the map, and `Pop` puts the popped word in `AC`. -/
theorem popReadsAtSp : Obligations.PopReadsAtSp := by
  refine ⟨runsOneWord_of_decodeInstr rfl rfl, fun s => ?_⟩
  obtain ⟨accessible, violation, sentinel, outOfRange⟩ := pops_of_exec_eq (exec_pop s)
  exact ⟨accessible, violation, sentinel, outOfRange, fun _ _ => pop_fault_sp⟩

end Sys2Proof.Machine
end

section
/-! PROOFS. System instructions (spec/45_system.md R119 to R121). -/

namespace Sys2Proof.Machine

/-! ### The software interrupt -/

theorem exec_softwareInterrupt (s : State) : exec .softwareInterrupt s = (interrupt .manual s).outcome := rfl

/-- The second of the two slots below the system stack base, which the interrupt sequence reaches by decrements. -/
theorem sub_one_sub_one (a : Word) : a - 1 - 1 = a - 2 := sub_sub a 1 1

/-- R124: the entry of the manual cause, with the second push at `SYS_STACK_BASE - 2`. -/
theorem entered_manual (s : State) :
    entered .manual s = (stored (s.params.sysStackBase - 2) s.pc (stored (s.params.sysStackBase - 1) s.sp
      ((s.setKernel true).setSp (s.params.sysStackBase - 2)))).setPc s.params.syscallVec := by
  rw [entered, sub_one_sub_one]
  rfl

/-- Settles O38: opcode 29 is a one-word row of the map, and the interrupt sequence does nothing in kernel mode
(`interrupt_kernel`) and enters the handler in user mode (`interrupt_linked`). -/
theorem softwareInterruptEnters : Obligations.SoftwareInterruptEnters := by
  refine ⟨runsOneWord_of_decodeInstr rfl rfl, fun s => ?_⟩
  rw [exec_softwareInterrupt]
  refine ⟨fun hk => ?kernel, fun hk hl hw => ?user⟩
  case kernel => rw [interrupt_kernel hk, Res.outcome_ok]
  case user => rw [interrupt_linked hl hw hk, Res.outcome_ok, entered_manual]

/-! ### The return from an interrupt -/

theorem exec_returnFromInterrupt (s : State) :
    exec .returnFromInterrupt s = (returnFromHandler s).outcome := rfl

/-- The state between the two pops of the return (R120): the first pop is done and `PC` written. -/
def pcPopped (s : State) : State := (s.setSp (s.sp + 1)).setPc (wordAt s s.sp)

/-- Once the first word is popped, the return is the pop of `SP` and the end of kernel mode. -/
theorem returnFromHandler_accessible {s : State} (h : Linked s) (ha : Accessible s s.sp) :
    returnFromHandler s = (pop (pcPopped s)).bind fun w u => .ok () ((u.setSp w).setKernel false) := by
  rw [returnFromHandler, pop_linked h ha, Res.bind_ok, pcPopped]

/-- Settles O39: opcode 30 is a one-word row of the map, and the return ends as its first pop does where that does not
go on, else as the second pop does, made at `SP + 1` with `kernel` unchanged (`returnFromHandler_accessible`). -/
theorem returnFromInterruptRestores : Obligations.ReturnFromInterruptRestores := by
  refine ⟨runsOneWord_of_decodeInstr rfl rfl, fun s hl => ?_⟩
  rw [exec_returnFromInterrupt]
  have second (ha : Accessible s s.sp) := returnFromHandler_accessible hl ha
  refine ⟨fun ha hb => ?restores, fun hp => ?firstViolation, fun hs => ?firstSentinel, fun ho hs => ?firstOutOfRange,
    fun ha hp => ?secondViolation, fun ha ho => ?secondOutOfRange⟩
  case restores => rw [second ha, pop_linked (s := pcPopped s) hl hb]; rfl
  case firstViolation => rw [returnFromHandler, pop_protected hp]; exact .of_raise (.refl s)
  case firstSentinel => rw [returnFromHandler, pop_sentinel hl hs, Res.bind_stuck, Res.outcome_stuck]
  case firstOutOfRange => rw [returnFromHandler, pop_outOfRange ho hs]; exact .of_raise (.refl s)
  case secondViolation => rw [second ha, pop_protected (s := pcPopped s) hp]; exact .of_raise (.refl s)
  case secondOutOfRange =>
    rw [second ha, pop_outOfRange (s := pcPopped s) ho ha.succ_ne_sentinel]
    exact .of_raise (.refl s)

/-! ### Terminate -/

theorem exec_terminate (s : State) :
    exec .terminate s = ((sendTerminate s).bind fun _ t => .ok () (t.setCpu .halted)).outcome := rfl

/-- R121: on a channel at rest the sentinel is sent and taken. -/
theorem exec_terminate_linked {s : State} (h : Linked s) :
    exec .terminate s = .next ((s.setMemUnit .stopped).setCpu .halted) := by
  rw [exec_terminate, sendTerminate_linked h, Res.bind_ok, Res.outcome_ok]

/-- R51, R53: only the send of the sentinel can fault, on a channel that may fail. -/
theorem sendTerminate_fault {s t : State} {r : FaultReport} (h : sendTerminate s = .fault r t) :
    s.params.channelFails = true ∧ r = .channelWriteError [Config.sentinel] := by
  rcases Res.bind_eq_fault.mp h with hsend | ⟨_, _, -, hserve⟩
  · rcases send_cases [Config.sentinel] s with ⟨d, hok, -⟩ | ⟨hfails, d, hfault⟩
    · rw [hok] at hsend
      cases hsend
    · rw [hfault] at hsend
      cases hsend
      exact ⟨hfails, rfl⟩
  · cases hserve

theorem exec_terminate_fault {s : State} {f : Fault} (h : exec .terminate s = .fault f) :
    s.params.channelFails = true ∧ ∃ t, f = .raised (.channelWriteError [Config.sentinel]) t := by
  obtain ⟨r, t, hbind, rfl⟩ := Res.outcome_eq_fault.mp h
  rcases Res.bind_eq_fault.mp hbind with hsend | ⟨_, _, -, hhalt⟩
  · obtain ⟨hfails, rfl⟩ := sendTerminate_fault hsend
    exact ⟨hfails, _, rfl⟩
  · cases hhalt

/-- Settles O41: opcode 50 is a one-word row of the map, on a channel at rest it halts the CPU and stops the memory
unit (`exec_terminate_linked`), and its only fault is a failed send (`exec_terminate_fault`). -/
theorem terminateEndsRun : Obligations.TerminateEndsRun := by
  refine ⟨fun s h => ?step, fun s hl => ?endsWell, fun s f hf h => ?fault⟩
  case step =>
    have runs : RunsOneWord 50 .terminate := runsOneWord_of_decodeInstr rfl rfl
    have hl : Linked (fetched s 50) := h.2.1
    rw [runs s h, exec_terminate_linked hl, finish, tick_of_not_stuck (by simp)]
    rfl
  case endsWell =>
    have hrequests : s.requests = [] := hl.2.2.1
    exact ⟨_, exec_terminate_linked hl, ⟨rfl, rfl, hrequests⟩, rfl⟩
  case fault =>
    obtain ⟨hfails, t, rfl⟩ := exec_terminate_fault h
    exact hf hfails t rfl

end Sys2Proof.Machine
end

section
/-! PROOFS. The interrupt sequence (spec/60_exceptions.md R124, R130). -/

namespace Sys2Proof.Machine

/-- R124: the entry of the timer cause, which alone clears `timerElapsed`. -/
theorem entered_timer (s : State) :
    entered .timer s = ((stored (s.params.sysStackBase - 2) s.pc (stored (s.params.sysStackBase - 1) s.sp
      ((s.setKernel true).setSp (s.params.sysStackBase - 2)))).setPc s.params.timerVec).setTimerElapsed false := by
  rw [entered, sub_one_sub_one]
  rfl

/-- Settles O37: in kernel mode the sequence does nothing (`interrupt_kernel`); in user mode both pushes succeed
(`interrupt_linked`), and the state entered differs by the cause in `PC` and `timerElapsed` only. -/
theorem interruptSequence : Obligations.InterruptSequence := by
  refine fun s cause => ⟨fun hk => interrupt_kernel hk cause, fun hk hl hw => ?_⟩
  rw [interrupt_linked hl hw hk]
  cases cause with
  | manual => rw [entered_manual]; rfl
  | timer => rw [entered_timer]

end Sys2Proof.Machine
end

section
/-! PROOFS. Decoding and encoding are inverse to one another (spec/30_encoding.md R67 to R70). -/

namespace Sys2Proof

/-! ### From an instruction to its words and back -/

/-- R67, R70: the encoding of an instruction is a row of the map, of one of the two formats. -/
theorem encode_row (i : Instr) :
    (∃ op v, encode i = [op, v] ∧ isTwoWord op = true ∧ decodeInstr op v = some i) ∨
    (∃ op, encode i = [op] ∧ isTwoWord op = false ∧ decodeInstr op 0 = some i) := by
  cases i
  case loadValue | loadAddr | loadInd | loadIdxX | loadIdxY | store | put | jump | jumpIfEqual | jumpIfNotEqual
      | call =>
    exact .inl ⟨_, _, rfl, rfl, rfl⟩
  all_goals exact .inr ⟨_, rfl, rfl, rfl⟩

/-- The row of a one-word encoding. -/
theorem row_of_encode_one {i : Instr} {op : Word} (h : encode i = [op]) :
    isTwoWord op = false ∧ decodeInstr op 0 = some i := by
  rcases encode_row i with ⟨op', v, henc, -⟩ | ⟨op', henc, row⟩
  · rw [h] at henc
    cases henc
  · rw [h] at henc
    cases henc
    exact row

/-- The row of a two-word encoding. -/
theorem row_of_encode_two {i : Instr} {op v : Word} (h : encode i = [op, v]) :
    isTwoWord op = true ∧ decodeInstr op v = some i := by
  rcases encode_row i with ⟨op', v', henc, row⟩ | ⟨op', henc, -⟩
  · rw [h] at henc
    cases henc
    exact row
  · rw [h] at henc
    cases henc

/-- Settles O4: each of the two formats of an encoding is decoded by the lemma of its format. -/
theorem decodeOfEncode : Obligations.DecodeOfEncode := by
  intro i rest _
  rcases encode_row i with ⟨op, v, henc, htwo, hdec⟩ | ⟨op, henc, hone, hdec⟩
  · rw [henc]
    exact decodeWords_twoWord htwo hdec
  · rw [henc]
    exact decodeWords_oneWord hone hdec

/-- A row of the map determines the encoding: each opcode number is that of one instruction. -/
theorem encode_of_decodeInstr {op v : Word} {i : Instr} (h : decodeInstr op v = some i) :
    encode i = if isTwoWord op then [op, v] else [op] := by
  have hop : op = BitVec.ofNat 32 op.toNat := by simp
  unfold decodeInstr at h
  split at h <;> cases h <;> rw [hop, ‹op.toNat = _›] <;> rfl

theorem encode_of_twoWord {op v : Word} {i : Instr} (htwo : isTwoWord op = true) (h : decodeInstr op v = some i) :
    encode i = [op, v] := by
  rw [encode_of_decodeInstr h, if_pos htwo]

theorem encode_of_oneWord {op v : Word} {i : Instr} (hone : isTwoWord op = false) (h : decodeInstr op v = some i) :
    encode i = [op] := by
  rw [encode_of_decodeInstr h, if_neg (by simp [hone])]

/-- Words that decode are an opcode word of the map and the operand word its format asks for. -/
theorem decodeWords_ok {ws rest : List Word} {i : Instr} (h : decodeWords ws = .ok (i, rest)) :
    (∃ op v, ws = op :: v :: rest ∧ isTwoWord op = true ∧ decodeInstr op v = some i) ∨
    (∃ op, ws = op :: rest ∧ isTwoWord op = false ∧ decodeInstr op 0 = some i) := by
  unfold decodeWords at h
  split at h
  case h_1 => cases h
  case h_2 op ws =>
    split at h
    case h_1 => cases h
    case h_2 v ws htwo =>
      split at h <;> cases h
      exact .inl ⟨op, v, rfl, htwo, ‹_›⟩
    case h_3 hone =>
      split at h <;> cases h
      exact .inr ⟨op, rfl, hone, ‹_›⟩

/-- Settles O5: the words are a row of the map (`decodeWords_ok`), and a row determines the encoding. -/
theorem encodeOfDecode : Obligations.EncodeOfDecode := by
  intro ws rest i h
  rcases decodeWords_ok h with ⟨op, v, rfl, htwo, hdec⟩ | ⟨op, rfl, hone, hdec⟩
  · rw [encode_of_twoWord htwo hdec]
    rfl
  · rw [encode_of_oneWord hone hdec]
    rfl

/-! ### The length -/

/-- The opcodes that take an operand word (R69). -/
def twoWordOpcodes : List Word := [1, 2, 3, 4, 5, 7, 9, 20, 21, 22, 23]

theorem isTwoWord_iff {op : Word} : isTwoWord op = true ↔ op ∈ twoWordOpcodes := by
  constructor
  · intro h
    have hop : op = BitVec.ofNat 32 op.toNat := by simp
    unfold isTwoWord at h
    split at h
    case h_12 => cases h
    all_goals
      rw [hop, ‹op.toNat = _›]
      decide
  · intro h
    simp only [twoWordOpcodes, List.mem_cons, List.not_mem_nil, or_false] at h
    rcases h with rfl | rfl | rfl | rfl | rfl | rfl | rfl | rfl | rfl | rfl | rfl <;> rfl

/-- Settles O3: the listed opcodes (`isTwoWord_iff`), the two formats of words that decode (`decodeWords_ok`), and the
decoding of a one-word `IR` (`decodeIr_one`). -/
theorem opcodeAloneDecidesLength : Obligations.OpcodeAloneDecidesLength := by
  refine ⟨fun op => isTwoWord_iff, fun op ws rest i h => ?length, fun s t d hone h => ?oneWord⟩
  case length =>
    rcases decodeWords_ok h with ⟨op', v, hws, htwo, -⟩ | ⟨op', hws, hone, -⟩
    · obtain ⟨rfl, rfl⟩ := List.cons.inj hws
      rw [htwo]
      rfl
    · obtain ⟨rfl, rfl⟩ := List.cons.inj hws
      rw [hone]
      rfl
  case oneWord =>
    rw [Machine.decodeIr_one hone] at h
    cases h
    rfl

/-- Settles O2: closed words, each decoded by evaluation. -/
theorem specWordsDecode : Obligations.SpecWordsDecode := by
  unfold Obligations.SpecWordsDecode
  decide

end Sys2Proof

namespace Sys2Proof.Machine

/-- R70: an opcode word of the map is the opcode of the instruction it decodes to. -/
theorem opcodeOf_of_decodeInstr {op v : Word} {i : Instr} (h : decodeInstr op v = some i) : opcodeOf i = op := by
  rw [opcodeOf, encode_of_decodeInstr h]
  split <;> rfl

/-- Settles O7: the words of an encoding are a row of the map of their format (`row_of_encode_one`,
`row_of_encode_two`), whose step is that of `step_oneWord` or `step_twoWord`; `finish` is the tick. -/
theorem stepRunsDecodedInstruction : Obligations.StepRunsDecodedInstruction := by
  refine ⟨fun s i op _ henc h => ?oneWord, fun s i op v _ henc h ha hv => ?twoWord, fun t ht => ?tick,
    fun t ht => ?stuck, fun f => rfl⟩
  case oneWord =>
    obtain ⟨hone, hdec⟩ := row_of_encode_one henc
    rw [step_oneWord hone h, hdec]
    rfl
  case twoWord =>
    obtain ⟨htwo, hdec⟩ := row_of_encode_two henc
    rw [step_twoWord htwo h ha, hv, hdec]
    rfl
  case tick => rw [finish, tick_of_not_stuck ht]
  case stuck => rw [finish, tick, if_pos ht]

end Sys2Proof.Machine
end

section
/-! PROOFS. An instruction as one operation inside a step: what it keeps outside the registers, and when it blocks. -/

namespace Sys2Proof.Machine

/-! ### The body of an instruction -/

/-- The event of opcode 9 (R95). -/
def putEvent (q : Word) (s : State) : OutEvent :=
  if portIsInt q then .int s.ac else if portIsChar q then .char (lowByte s.ac) else .invalidPort q

/-- `perform` of an instruction (R77) as an operation inside a step, before the host's view of it is taken: a rule
that `Res.bind` respects holds of every instruction once it holds of the shared operations. -/
def body : Instr → State → Res Unit
  | .loadValue n, s => .ok () (s.setAc n)
  | .loadAddr n, s => loadAc n s
  | .loadInd n, s => (memRead n s).bind loadAc
  | .loadIdxX n, s => loadAc (n + s.x) s
  | .loadIdxY n, s => loadAc (n + s.y) s
  | .loadSpX, s => loadAc (s.sp + s.x) s
  | .store n, s => memWrite n s.ac s
  | .get, s => .ok () ((s.setAc (randomWord s.draws)).setDraws (s.draws + 1))
  | .put q, s => .ok () (emit (putEvent q s) s)
  | .addX, s => .ok () (s.setAc (s.ac + s.x))
  | .addY, s => .ok () (s.setAc (s.ac + s.y))
  | .subX, s => .ok () (s.setAc (s.ac - s.x))
  | .subY, s => .ok () (s.setAc (s.ac - s.y))
  | .copyToX, s => .ok () (s.setX s.ac)
  | .copyFromX, s => .ok () (s.setAc s.x)
  | .copyToY, s => .ok () (s.setY s.ac)
  | .copyFromY, s => .ok () (s.setAc s.y)
  | .copyToSp, s => .ok () (s.setSp s.ac)
  | .copyFromSp, s => .ok () (s.setAc s.sp)
  | .jump a, s => .ok () (s.setPc a)
  | .jumpIfEqual a, s => .ok () (s.setPc (if acIsZero s then a else s.pc))
  | .jumpIfNotEqual a, s => .ok () (s.setPc (if acIsZero s then s.pc else a))
  | .call a, s => (push s.pc s).bind fun _ t => .ok () (t.setPc a)
  | .ret, s => (pop s).bind fun v t => .ok () (t.setPc v)
  | .incX, s => .ok () (s.setX (s.x + 1))
  | .decX, s => .ok () (s.setX (s.x - 1))
  | .push, s => push s.ac s
  | .pop, s => (pop s).bind fun v t => .ok () (t.setAc v)
  | .softwareInterrupt, s => interrupt .manual s
  | .returnFromInterrupt, s => returnFromHandler s
  | .terminate, s => (sendTerminate s).bind fun _ t => .ok () (t.setCpu .halted)

theorem exec_put (q : Word) (s : State) : exec (.put q) s = .next (emit (putEvent q s) s) := by
  simp only [exec, execPut, putEvent]
  split
  · rfl
  · split <;> rfl

theorem exec_eq_body (i : Instr) (s : State) : exec i s = (body i s).outcome := by
  cases i
  case put q => exact exec_put q s
  case jumpIfEqual a => rw [exec_jumpIfEqual, body]; split <;> rfl
  case jumpIfNotEqual a => rw [exec_jumpIfNotEqual, body]; split <;> rfl
  all_goals rfl

/-! ### Blocking -/

/-- Where the operation blocks, the CPU's run state is `stuck` (R52, R145). -/
def Res.Sticks {α : Type} (r : Res α) : Prop := ∀ t, r = .stuck t → t.cpu = .stuck

theorem Res.Sticks.ok {α : Type} (v : α) (s : State) : (Res.ok v s).Sticks := by
  intro t h
  cases h

theorem Res.Sticks.bind {α β : Type} {r : Res α} {k : α → State → Res β} (h : r.Sticks)
    (hk : ∀ v t, (k v t).Sticks) : (r.bind k).Sticks := by
  intro u hu
  rcases Res.bind_eq_stuck.mp hu with hr | ⟨v, t, -, hr⟩
  · exact h u hr
  · exact hk v t u hr

theorem memRead_sticks (a : Word) (s : State) : (memRead a s).Sticks := fun _ h => (memRead_stuck h).2.1

theorem loadAc_sticks (a : Word) (s : State) : (loadAc a s).Sticks := fun _ h => (loadAc_stuck h).2.1

theorem pop_sticks (s : State) : (pop s).Sticks := fun _ h => (pop_stuck h).2.1

theorem push_sticks (v : Word) (s : State) : (push v s).Sticks := fun _ h => absurd h push_not_stuck

theorem body_sticks (i : Instr) (s : State) : (body i s).Sticks := by
  cases i
  case loadAddr | loadIdxX | loadIdxY | loadSpX => exact loadAc_sticks _ s
  case loadInd n => exact (memRead_sticks n s).bind loadAc_sticks
  case store => exact fun _ h => absurd h memWrite_not_stuck
  case call => exact (push_sticks _ s).bind fun _ _ => .ok _ _
  case push => exact push_sticks _ s
  case ret | pop => exact (pop_sticks s).bind fun _ _ => .ok _ _
  case softwareInterrupt => exact fun _ h => absurd h interrupt_not_stuck
  case returnFromInterrupt => exact fun _ h => (returnFromHandler_stuck h).2.1
  case terminate => exact Res.Sticks.bind (fun _ h => absurd h sendTerminate_not_stuck) fun _ _ => .ok _ _
  all_goals exact .ok _ _

/-! ### What an instruction keeps outside the registers -/

/-- Every instruction but opcode 50 leaves the channel as that of a running CPU; opcode 9 writes the output. -/
theorem body_keeps {i : Instr} (hterm : i ≠ .terminate) (hput : ∀ q, i ≠ .put q) (s : State) :
    (body i s).Keeps s := by
  cases i
  case loadAddr | loadIdxX | loadIdxY | loadSpX => exact loadAc_keeps _ s
  case loadInd n => exact (memRead_keeps n s).bind loadAc_keeps
  case store n => exact memWrite_keeps n _ s
  case put q => exact absurd rfl (hput q)
  case call => exact (push_keeps _ s).bind fun _ _ => ⟨rfl, rfl, id, id, id⟩
  case push => exact push_keeps _ s
  case ret | pop => exact (pop_keeps s).bind fun _ _ => ⟨rfl, rfl, id, id, id⟩
  case softwareInterrupt => exact interrupt_keeps _ s
  case returnFromInterrupt => exact returnFromHandler_keeps s
  case terminate => exact absurd rfl hterm
  all_goals exact ⟨rfl, rfl, id, id, id⟩

theorem body_ok_channel {i : Instr} {s t : State} (hterm : i ≠ .terminate) (h : body i s = .ok () t) :
    (Linked s → Linked t) ∧ (AtRest s → AtRest t) := by
  by_cases hput : ∃ q, i = .put q
  · obtain ⟨q, rfl⟩ := hput
    cases h
    exact ⟨id, id⟩
  · have keeps := body_keeps hterm (fun q hq => hput ⟨q, hq⟩) s
    rw [h] at keeps
    exact ⟨keeps.linked, keeps.atRest⟩

/-- An instruction that leaves the CPU running went on and is not opcode 50. -/
theorem exec_next_running {i : Instr} {s t : State} (h : exec i s = .next t) (ht : t.cpu = .running) :
    i ≠ .terminate ∧ body i s = .ok () t := by
  obtain ⟨-, run⟩ := exec_next h
  have hterm : i ≠ .terminate := by
    rintro rfl
    rcases run with hc | ⟨hne, -⟩ | ⟨-, hc⟩
    · rw [ht] at hc; cases hc
    · exact hne rfl
    · rw [ht] at hc; cases hc
  rw [exec_eq_body] at h
  rcases Res.outcome_eq_next.mp h with hok | hstuck
  · exact ⟨hterm, hok⟩
  · have hc := body_sticks i s t hstuck
    rw [ht] at hc
    cases hc

theorem perform_next_channel {d : Option Instr} {s t : State} (h : perform d s = .next t) (ht : t.cpu = .running) :
    (Linked s → Linked t) ∧ (AtRest s → AtRest t) := by
  cases d with
  | none => cases h; exact ⟨id, id⟩
  | some i =>
    obtain ⟨hterm, hok⟩ := exec_next_running h ht
    exact body_ok_channel hterm hok

end Sys2Proof.Machine
end

section
/-! PROOFS. The invariant of the machine over a step, and the timer's range (spec/60_exceptions.md R135). -/

namespace Sys2Proof.Machine

/-! ### What a step keeps -/

/-- What the rest of a step keeps of the state `a` in which the timer phase leaves the machine: the parameters, the
timer but for one tick, and the order of the memory. -/
structure PhaseFrame (a t : State) : Prop where
  params : t.params = a.params
  timerLimit : t.timerLimit = a.timerLimit
  timerElapsed : t.timerElapsed = a.timerElapsed
  timerCount : t.timerCount = a.timerCount ∨ t.timerCount = a.timerCount - 1
  memoryOk : MemoryOk a → MemoryOk t

theorem PhaseFrame.of_sameRegs {a t : State} (f : SameRegs a t) (m : MemoryOk a → MemoryOk t) : PhaseFrame a t :=
  ⟨f.params, f.timerLimit, f.timerElapsed, .inl f.timerCount, m⟩

theorem PhaseFrame.tick {a t : State} (e : ExecFrame a t) : PhaseFrame a (tick t) := by
  unfold Machine.tick
  split
  · exact ⟨e.params, e.timerLimit, e.timerElapsed, .inl e.timerCount, e.memoryOk⟩
  · exact ⟨e.params, e.timerLimit, e.timerElapsed, .inr (congrArg (· - 1) e.timerCount), e.memoryOk⟩

/-- The opcode read before it changes nothing that `PhaseFrame` speaks of. -/
theorem PhaseFrame.of_fetched {a b t : State} {w : Word} (h : PhaseFrame (fetched b w) t) (f : SameRegs a b)
    (m : MemoryOk a → MemoryOk b) : PhaseFrame a t where
  params := h.params.trans f.params
  timerLimit := h.timerLimit.trans f.timerLimit
  timerElapsed := h.timerElapsed.trans f.timerElapsed
  timerCount := by
    have hb : (fetched b w).timerCount = a.timerCount := f.timerCount
    rw [← hb]
    exact h.timerCount
  memoryOk hok := h.memoryOk (fetched_memoryOk (m hok) w)

theorem ExecFrame.trans {s t u : State} (h : ExecFrame s t) (k : ExecFrame t u) : ExecFrame s u :=
  ⟨k.ir.trans h.ir, k.timerElapsed.trans h.timerElapsed, k.timerLimit.trans h.timerLimit,
    k.timerCount.trans h.timerCount, k.params.trans h.params, fun hm => k.memoryOk (h.memoryOk hm)⟩

/-- A step that answers a next state is the timer phase and then what `PhaseFrame` allows. -/
theorem step_next_phase {s t : State} (h : step s = .next t) : ∃ a, timerPhase s = .ok () a ∧ PhaseFrame a t := by
  obtain ⟨-, a, hp, hs | ⟨w, b, hm, hoperand⟩⟩ := step_next h
  · obtain ⟨f, -, m⟩ := memRead_stuck hs
    exact ⟨a, hp, .of_sameRegs f m⟩
  · obtain ⟨⟨opcode, -⟩, -, mb⟩ := memRead_ok hm
    refine ⟨a, hp, PhaseFrame.of_fetched (w := w) ?_ opcode mb⟩
    rcases hoperand with hs | ⟨d, c, r, hd, hx, rfl⟩
    · obtain ⟨f, -, m⟩ := memRead_stuck hs
      exact .of_sameRegs f m
    · exact .tick ((decodeIr_ok_frame hd).1.trans (perform_next hx).1)

/-- A step that leaves the CPU running leaves its channel linked and at rest if it was. -/
theorem step_next_channel {s t : State} (h : step s = .next t) (ht : t.cpu = .running) :
    (Linked s → Linked t) ∧ (AtRest s → AtRest t) := by
  obtain ⟨a, w, b, d, c, r, hp, hm, hd, hx, rfl⟩ := step_next_completed h (by rw [ht]; exact nofun)
  have phase := timerPhase_keeps s
  have opcode := memRead_keeps a.pc a
  have operand := decodeIr_keeps (fetched b w)
  rw [hp] at phase
  rw [hm] at opcode
  rw [hd] at operand
  obtain ⟨linked, atRest⟩ := perform_next_channel hx ht
  exact ⟨fun hl => linked (operand.linked (opcode.linked (phase.linked hl))),
    fun hr => atRest (operand.atRest (opcode.atRest (phase.atRest hr)))⟩

/-! ### The timer -/

/-- The fetch's reload leaves the countdown between 1 and the period (R76, R135). -/
theorem reloadTimer_range {s : State} (h : TimerOk s) :
    1 ≤ (reloadTimer s).timerCount.toInt ∧ (reloadTimer s).timerCount.toInt ≤ s.timerLimit.toInt := by
  obtain ⟨⟨hlow, -⟩, -, hle⟩ := h
  rcases reloadTimer_cases s with ⟨-, e⟩ | ⟨hpos, e⟩ <;> rw [e]
  · exact ⟨hlow, le_refl _⟩
  · exact ⟨hpos, hle⟩

/-- The tick after that reload does not wrap. -/
theorem reloadTimer_tick {s : State} (h : TimerOk s) :
    ((reloadTimer s).timerCount - 1).toInt = (reloadTimer s).timerCount.toInt - 1 := by
  have := reloadTimer_range h
  exact toInt_sub_one (by omega)

theorem step_next_timerOk {s t : State} (hs : TimerOk s) (h : step s = .next t) : TimerOk t := by
  obtain ⟨a, hp, rest⟩ := step_next_phase h
  obtain ⟨phase, -⟩ := timerPhase_ok hp
  have hlimit : t.timerLimit = s.timerLimit := rest.timerLimit.trans phase.timerLimit
  have hcount : a.timerCount = (reloadTimer s).timerCount :=
    phase.timerCount.trans (reloadTimer_frame s).timerCount.symm
  have range := reloadTimer_range hs
  have ticked := reloadTimer_tick hs
  obtain ⟨period, -⟩ := hs
  unfold TimerOk
  rw [hlimit]
  rcases rest.timerCount with hc | hc <;> rw [hc, hcount]
  · exact ⟨period, by omega, by omega⟩
  · exact ⟨period, by omega, by omega⟩

/-! ### The invariant -/

/-- A quiet channel that cannot fail, with a serving memory unit, is linked. -/
theorem AtRest.linked {s : State} (h : AtRest s) (hc : s.params.channelFails = false) (hu : s.memUnit = .serving) :
    Linked s := by
  obtain ⟨⟨hresponses, hrequests⟩, -⟩ := h
  exact ⟨hc, hu, hrequests hu, hresponses⟩

/-- Settles O51: what a step keeps in every case (`step_next_phase`, `step_next_timerOk`), and the channel of a CPU that
it leaves running (`step_next_channel`), which is linked where it cannot fail. -/
theorem stepKeepsInv : Obligations.StepKeepsInv := by
  intro s t ⟨params, mem, timer, running⟩ h
  obtain ⟨a, hp, rest⟩ := step_next_phase h
  obtain ⟨phase, -⟩ := timerPhase_ok hp
  have hparams : t.params = s.params := rest.params.trans phase.params
  refine ⟨hparams ▸ params, rest.memoryOk (phase.memoryOk mem), step_next_timerOk timer h, fun ht => ?channel⟩
  case channel =>
    obtain ⟨hcpu, -⟩ := step_next h
    obtain ⟨quiet, serving⟩ := running hcpu
    obtain ⟨linked, atRest⟩ := step_next_channel h ht
    refine ⟨atRest quiet, fun hc => ?_⟩
    rw [hparams] at hc
    obtain ⟨-, served, -⟩ := linked (quiet.linked hc (serving hc))
    exact served

/-- Settles O52: the fields of the reset state, each clause by evaluation. -/
theorem resetHasInv : Obligations.ResetHasInv := by
  unfold Obligations.ResetHasInv
  decide

end Sys2Proof.Machine
end

section
/-! PROOFS. A user-mode step does not depend on the words of system space (spec/20_memory.md R46,
spec/60_exceptions.md R146): a relation of two runs that every operation of the step respects. -/

namespace Sys2Proof.Machine

/-! ### Two machines that differ in system space -/

/-- `u` is `s` but for the words from `base` on, in the array and beside the posted writes. -/
def SystemAlike (base : Nat) (s u : State) : Prop :=
  ∃ m p, u = (s.setMem m).setPosted p ∧ AlikeBelow base m s.mem ∧ PostsAlike base p s.posted

/-- Two such machines with a linked channel and canonical arrays, as they are between the accesses of a step. -/
structure Twins (base : Nat) (s u : State) : Prop where
  alike : SystemAlike base s u
  linked : Linked s
  mem : s.mem.wf
  mem' : u.mem.wf
  base : s.params.sysBase = base

/-- The same in user mode, where a read stays below `base`. -/
def UserTwins (base : Nat) (s u : State) : Prop := Twins base s u ∧ s.kernel = false

/-- Two operations that end alike: the values are equal, the states that go on are related by `R`, and those that
end the step are alike below `base`. -/
def Res.Alike {α : Type} (base : Nat) (R : State → State → Prop) : Res α → Res α → Prop
  | .ok v s, .ok w u => v = w ∧ R s u
  | .fault r s, .fault q u => r = q ∧ SystemAlike base s u
  | .stuck s, .stuck u => SystemAlike base s u
  | _, _ => False

section Relation
variable {α β : Type} {base : Nat} {R Q : State → State → Prop}

theorem Res.Alike.bind {r r' : Res α} {k k' : α → State → Res β} (h : r.Alike base R r')
    (hk : ∀ v s u, R s u → (k v s).Alike base Q (k' v u)) : (r.bind k).Alike base Q (r'.bind k') := by
  cases r <;> cases r'
  case ok.ok v s w u =>
    obtain ⟨rfl, hR⟩ := h
    exact hk v s u hR
  case fault.fault | stuck.stuck => exact h
  all_goals exact h.elim

theorem Res.Alike.mono {r r' : Res α} (h : r.Alike base R r') (hR : ∀ s u, R s u → Q s u) : r.Alike base Q r' := by
  cases r <;> cases r'
  case ok.ok v s w u => exact ⟨h.1, hR s u h.2⟩
  case fault.fault | stuck.stuck => exact h
  all_goals exact h.elim

/-- The same fault raised in both machines. -/
theorem Res.Alike.raise {s u : State} (h : SystemAlike base s u) (f : FaultReport) :
    (Machine.raise f s : Res α).Alike base R (Machine.raise f u) := by
  obtain ⟨m, p, rfl, hm, hp⟩ := h
  exact ⟨rfl, m, p, rfl, hm, hp⟩

end Relation

/-! ### Register updates -/

/-- `f` neither reads nor writes the array and the posted writes, and leaves the channel and the parameters. -/
structure RegisterUpdate (f : State → State) : Prop where
  comm : ∀ s m p, f ((s.setMem m).setPosted p) = ((f s).setMem m).setPosted p := by exact fun _ _ _ => rfl
  mem : ∀ s, (f s).mem = s.mem := by exact fun _ => rfl
  posted : ∀ s, (f s).posted = s.posted := by exact fun _ => rfl
  linked : ∀ s, Linked s → Linked (f s) := by exact fun _ h => h
  params : ∀ s, (f s).params = s.params := by exact fun _ => rfl

theorem Twins.map {base : Nat} {f : State → State} {s u : State} (h : Twins base s u) (hf : RegisterUpdate f) :
    Twins base (f s) (f u) := by
  obtain ⟨⟨m, p, rfl, hm, hp⟩, linked, mem, mem', rfl⟩ := h
  refine ⟨⟨m, p, hf.comm s m p, ?_, ?_⟩, hf.linked s linked, ?_, ?_, congrArg Params.sysBase (hf.params s)⟩
  · rw [hf.mem]; exact hm
  · rw [hf.posted]; exact hp
  · rw [hf.mem]; exact mem
  · rw [hf.mem]; exact mem'

theorem PostsAlike.refl (base : Nat) (p : List PostedWrite) : PostsAlike base p p :=
  List.forall₂_same.mpr fun _ _ => ⟨rfl, fun _ _ => rfl⟩

/-- The registers of two such machines are the same. -/
theorem SystemAlike.pc {base : Nat} {s u : State} (h : SystemAlike base s u) : u.pc = s.pc := by
  obtain ⟨m, p, rfl, -⟩ := h
  rfl

theorem SystemAlike.sp {base : Nat} {s u : State} (h : SystemAlike base s u) : u.sp = s.sp := by
  obtain ⟨m, p, rfl, -⟩ := h
  rfl

/-! ### The accesses -/

/-- In user mode an accessible address lies below system space (R46). -/
theorem Accessible.toNat_lt_sysBase {s : State} {a : Word} (h : Accessible s a) (hk : s.kernel = false) :
    a.toNat < s.params.sysBase := by
  obtain ⟨h0, -, hkernel | hlt⟩ := h
  · rw [hk] at hkernel; cases hkernel
  · exact toNat_lt_of_toInt_lt h0 hlt

section Accesses
variable {base : Nat} {s u : State}

/-- A read in user mode: the same check refuses in both machines, or the address lies below `base`. -/
theorem memRead_alike (h : UserTwins base s u) (a : Word) :
    (memRead a s).Alike base (UserTwins base) (memRead a u) := by
  obtain ⟨twins, user⟩ := h
  obtain ⟨⟨m, p, rfl, hm, hp⟩, linked, mem, mem', rfl⟩ := id twins
  rcases address_cases s a with ha | hprot | hout
  · have hword : wordAt ((s.setMem m).setPosted p) a = wordAt s a := hm a.toNat (ha.toNat_lt_sysBase user)
    rw [memRead_linked linked ha, memRead_linked (s := (s.setMem m).setPosted p) linked ha, hword]
    exact ⟨rfl, twins, user⟩
  · rw [memRead_protected hprot, memRead_protected (s := (s.setMem m).setPosted p) hprot]
    exact .raise ⟨m, p, rfl, hm, hp⟩ _
  · by_cases hs : a = Config.sentinel
    · rw [hs, memRead_sentinel linked, memRead_sentinel (s := (s.setMem m).setPosted p) linked]
      exact ⟨m, p, rfl, hm, hp⟩
    · rw [memRead_outOfRange hout hs, memRead_outOfRange (s := (s.setMem m).setPosted p) hout hs]
      exact .raise ⟨m, p, rfl, hm, hp⟩ _

theorem AlikeBelow.write {m n : Memory} (h : AlikeBelow base m n) (hm : m.wf) (hn : n.wf) (a : Nat) (v : Word) :
    AlikeBelow base (Memory.write m a v) (Memory.write n a v) := by
  intro b hb
  by_cases hab : b = a
  · rw [hab, Memory.read_write_same hm, Memory.read_write_same hn]
  · rw [Memory.read_write_other hab, Memory.read_write_other hab]
    exact h b hb

/-- A write in either mode: the same check refuses in both machines, or both store the same word at the same address. -/
theorem memWrite_alike (h : Twins base s u) (a v : Word) :
    (memWrite a v s).Alike base (Twins base) (memWrite a v u) := by
  obtain ⟨⟨m, p, rfl, hm, hp⟩, linked, mem, mem', rfl⟩ := h
  rcases address_cases s a with ha | hprot | hout
  · rw [memWrite_linked linked ha, memWrite_linked (s := (s.setMem m).setPosted p) linked ha]
    have hposts : PostsAlike s.params.sysBase (p ++ [⟨a, v, m⟩]) (s.posted ++ [⟨a, v, s.mem⟩]) :=
      List.rel_append hp (.cons ⟨rfl, hm⟩ .nil)
    exact ⟨rfl, ⟨_, _, rfl, hm.write mem' mem a.toNat v, hposts⟩, linked, Memory.write_wf mem _ _,
      Memory.write_wf mem' _ _, rfl⟩
  · rw [memWrite_protected hprot, memWrite_protected (s := (s.setMem m).setPosted p) hprot]
    exact .raise ⟨m, p, rfl, hm, hp⟩ _
  · rw [memWrite_outOfRange hout, memWrite_outOfRange (s := (s.setMem m).setPosted p) hout]
    exact .raise ⟨m, p, rfl, hm, hp⟩ _

/-! ### The stack, the interrupt sequence and the return -/

theorem push_alike (h : Twins base s u) (v : Word) : (push v s).Alike base (Twins base) (push v u) := by
  rw [push, push, h.alike.sp]
  exact memWrite_alike (h.map (f := (State.setSp · (s.sp - 1))) {}) _ v

theorem pop_alike (h : UserTwins base s u) : (pop s).Alike base (UserTwins base) (pop u) := by
  rw [pop, pop, h.1.alike.sp]
  exact (memRead_alike h s.sp).bind fun v t w ⟨twins, user⟩ =>
    ⟨rfl, twins.map (f := fun t => t.setSp (t.sp + 1)) {}, user⟩

theorem interrupt_alike (h : UserTwins base s u) :
    (interrupt .manual s).Alike base (Twins base) (interrupt .manual u) := by
  obtain ⟨twins, user⟩ := h
  obtain ⟨m, p, rfl, -⟩ := id twins.alike
  have enter : Twins base _ _ := twins.map (f := fun s => (s.setKernel true).setSp s.params.sysStackBase) {}
  rw [interrupt, interrupt, if_neg (by simp [user]), if_neg (by simp [user])]
  refine (push_alike enter s.sp).bind fun _ t w ht => ?_
  rw [ht.alike.pc]
  exact (push_alike ht t.pc).bind fun _ x y hx => ⟨rfl, hx.map (f := enterHandler .manual) {}⟩

theorem returnFromHandler_alike (h : UserTwins base s u) :
    (returnFromHandler s).Alike base (Twins base) (returnFromHandler u) :=
  (pop_alike h).bind fun v _ _ ⟨twins, user⟩ =>
    (pop_alike ⟨twins.map (f := (State.setPc · v)) {}, user⟩).bind fun w _ _ ⟨twins, _⟩ =>
      ⟨rfl, twins.map (f := fun t => (t.setSp w).setKernel false) {}⟩

/-! ### One instruction -/

theorem loadAc_alike (h : UserTwins base s u) (a : Word) : (loadAc a s).Alike base (Twins base) (loadAc a u) :=
  (memRead_alike h a).bind fun v _ _ ⟨twins, _⟩ => ⟨rfl, twins.map (f := (State.setAc · v)) {}⟩

theorem body_alike (h : UserTwins base s u) (i : Instr) :
    (body i s).Alike base (SystemAlike base) (body i u) := by
  have alike {r r' : Res Unit} (hr : r.Alike base (Twins base) r') : r.Alike base (SystemAlike base) r' :=
    hr.mono fun _ _ ht => ht.alike
  obtain ⟨m, p, rfl, hm, hp⟩ := id h.1.alike
  cases i
  case loadAddr | loadIdxX | loadIdxY | loadSpX => exact alike (loadAc_alike h _)
  case loadInd n => exact alike ((memRead_alike h n).bind fun v _ _ ht => loadAc_alike ht v)
  case store n => exact alike (memWrite_alike h.1 n _)
  case call a =>
    exact alike ((push_alike h.1 s.pc).bind fun _ _ _ ht => ⟨rfl, ht.map (f := (State.setPc · a)) {}⟩)
  case push => exact alike (push_alike h.1 _)
  case ret => exact alike ((pop_alike h).bind fun v _ _ ht => ⟨rfl, ht.1.map (f := (State.setPc · v)) {}⟩)
  case pop => exact alike ((pop_alike h).bind fun v _ _ ht => ⟨rfl, ht.1.map (f := (State.setAc · v)) {}⟩)
  case softwareInterrupt => exact alike (interrupt_alike h)
  case returnFromInterrupt => exact alike (returnFromHandler_alike h)
  case terminate =>
    rw [body, body, sendTerminate_linked h.1.linked,
      sendTerminate_linked (s := (s.setMem m).setPosted p) h.1.linked]
    exact ⟨rfl, m, p, rfl, hm, hp⟩
  all_goals exact ⟨rfl, m, p, rfl, hm, hp⟩

/-! ### The way to the instruction -/

theorem readOpcode_alike (h : UserTwins base s u) : (readOpcode s).Alike base (UserTwins base) (readOpcode u) := by
  rw [readOpcode, readOpcode, h.1.alike.pc]
  refine (memRead_alike h s.pc).bind fun w t x ⟨⟨⟨m, p, hx, hm, hp⟩, linked, mem, mem', hbase⟩, user⟩ => ?_
  subst hx
  exact ⟨rfl, ⟨⟨m, [], rfl, hm, .nil⟩, linked, mem, mem', hbase⟩, user⟩

theorem decodeIr_alike (h : UserTwins base s u) : (decodeIr s).Alike base (UserTwins base) (decodeIr u) := by
  obtain ⟨m, p, rfl, -⟩ := id h.1.alike
  have hir : ((s.setMem m).setPosted p).ir = s.ir := rfl
  rw [decodeIr, decodeIr, hir]
  split
  · have operand : (getArgument s).Alike base (UserTwins base) (getArgument ((s.setMem m).setPosted p)) :=
      (memRead_alike h s.pc).bind fun v _ _ ⟨twins, user⟩ =>
        ⟨rfl, twins.map (f := fun t => t.setPc (t.pc + 1)) {}, user⟩
    exact operand.bind fun v _ _ ht => ⟨rfl, ht⟩
  · exact ⟨rfl, h⟩

end Accesses

/-! ### One step -/

/-- Two outcomes of a step that are alike below `base`. -/
def OutcomeAlike (base : Nat) : Host.Outcome State Fault Refusal → Host.Outcome State Fault Refusal → Prop
  | .next s, .next u => SystemAlike base s u
  | .fault (.raised r s), .fault (.raised q u) => r = q ∧ SystemAlike base s u
  | _, _ => False

section Step
variable {base : Nat}

theorem OutcomeAlike.of_next {t : State} {o : Host.Outcome State Fault Refusal} (h : OutcomeAlike base (.next t) o) :
    ∃ u, o = .next u ∧ SystemAlike base t u := by
  cases o with
  | next u => exact ⟨u, rfl, h⟩
  | fault f => exact h.elim
  | refused x => exact h.elim

theorem OutcomeAlike.of_fault {r : FaultReport} {t : State} {o : Host.Outcome State Fault Refusal}
    (h : OutcomeAlike base (.fault (.raised r t)) o) : ∃ u, o = .fault (.raised r u) ∧ SystemAlike base t u := by
  cases o with
  | next u => exact h.elim
  | refused x => exact h.elim
  | fault f =>
    cases f with
    | programImageError => exact h.elim
    | raised q u => exact ⟨u, by rw [h.1], h.2⟩

theorem SystemAlike.abandon {s u : State} (h : SystemAlike base s u) :
    SystemAlike base (Machine.abandon s) (Machine.abandon u) := by
  obtain ⟨m, p, rfl, hm, hp⟩ := h
  exact ⟨m, p, rfl, hm, hp⟩

theorem SystemAlike.tick {s u : State} (h : SystemAlike base s u) :
    SystemAlike base (Machine.tick s) (Machine.tick u) := by
  obtain ⟨m, p, rfl, hm, hp⟩ := h
  by_cases hs : s.cpu = .stuck
  · rw [Machine.tick, Machine.tick, if_pos hs, if_pos (by exact hs)]
    exact ⟨m, p, rfl, hm, hp⟩
  · rw [tick_of_not_stuck hs, tick_of_not_stuck (by exact hs)]
    exact ⟨m, p, rfl, hm, hp⟩

theorem Res.Alike.outcome {r r' : Res Unit} (h : r.Alike base (SystemAlike base) r') :
    OutcomeAlike base r.outcome r'.outcome := by
  cases r <;> cases r'
  case ok.ok => exact h.2
  case fault.fault => exact ⟨h.1, h.2.abandon⟩
  case stuck.stuck => exact h
  all_goals exact h.elim

theorem finish_perform_alike {s u : State} (h : UserTwins base s u) (d : Option Instr) :
    OutcomeAlike base (finish (perform d s)) (finish (perform d u)) := by
  cases d with
  | none => exact h.1.alike.tick
  | some i =>
    rw [perform, perform, exec_eq_body, exec_eq_body]
    have hb := body_alike h i
    cases hs : body i s <;> cases hu : body i u <;> rw [hs, hu] at hb
    case ok.ok => exact hb.2.tick
    case fault.fault => exact ⟨hb.1, hb.2.abandon⟩
    case stuck.stuck => exact SystemAlike.tick hb
    all_goals exact hb.elim

theorem step_alike {s u : State} (hr : s.cpu = .running) (hn : NoTimerEvent s) (h : UserTwins base s u) :
    OutcomeAlike base (step s) (step u) := by
  obtain ⟨m, p, rfl, -⟩ := id h.1.alike
  rw [step_running hr, step_running (s := (s.setMem m).setPosted p) hr, timerPhase_none hn,
    timerPhase_none (s := (s.setMem m).setPosted p) hn, Res.bind_ok, Res.bind_ok]
  have front := (readOpcode_alike h).bind fun _ _ _ ht => decodeIr_alike ht
  cases hs : (readOpcode s).bind fun _ t => decodeIr t <;>
    cases hu : (readOpcode ((s.setMem m).setPosted p)).bind fun _ t => decodeIr t <;> rw [hs, hu] at front
  case ok.ok d t e x =>
    obtain ⟨rfl, ht⟩ := front
    exact finish_perform_alike ht d
  case fault.fault => exact ⟨front.1, front.2.abandon⟩
  case stuck.stuck => exact front
  all_goals exact front.elim

end Step

/-- Settles O56: each run state but `running` is refused. -/
theorem stoppedCpuTakesNoStep : Obligations.StoppedCpuTakesNoStep := by
  intro s h
  rw [step, oneStep]
  cases hc : s.cpu with
  | running => exact absurd hc h
  | halted | faulted | stuck => rfl

/-- In user mode a step that takes no timer interrupt has no timer event. -/
theorem noTimerEvent_of_not_taken {s : State} (hk : s.kernel = false) (h : ¬ TimerTaken s) : NoTimerEvent s := by
  refine ⟨?_, .inr ?_⟩
  · by_contra hcount
    exact h ⟨hk, .inl (by omega)⟩
  · cases he : s.timerElapsed
    · rfl
    · exact absurd ⟨hk, .inr he⟩ h

/-- Settles O55: the two machines are twins, their steps end alike (`step_alike`), and a CPU that is not running
answers neither a fault nor a next state. -/
theorem userStepIgnoresSystemMemory : Obligations.UserStepIgnoresSystemMemory := by
  intro s m hk hl ht _ hs hm halike
  by_cases hr : s.cpu = .running
  · have twins : UserTwins s.params.sysBase s (s.setMem m) :=
      ⟨⟨⟨m, s.posted, rfl, halike, .refl _ _⟩, hl, hs, hm, rfl⟩, hk⟩
    have outcomes := step_alike hr (noTimerEvent_of_not_taken hk ht) twins
    constructor
    · intro r t h
      rw [h] at outcomes
      obtain ⟨u, hu, n, p, rfl, hn, hp⟩ := outcomes.of_fault
      exact ⟨n, p, hu, hn, hp⟩
    · intro t h
      rw [h] at outcomes
      obtain ⟨u, hu, n, p, rfl, hn, hp⟩ := outcomes.of_next
      exact ⟨n, p, hu, hn, hp⟩
  · constructor
    · intro r t h
      rw [stoppedCpuTakesNoStep s hr] at h
      cases h
    · intro t h
      rw [stoppedCpuTakesNoStep s hr] at h
      cases h

end Sys2Proof.Machine
end

section
/-! PROOFS. The fetch and the countdown (spec/40_cycle.md R76, spec/60_exceptions.md R135). -/

namespace Sys2Proof.Machine

/-! ### The timer phase, by the state of the timer -/

/-- A reload is done once: the period it loads has not run out. -/
theorem timerPhase_expired {s : State} (hp : TimerPeriodOk s.timerLimit.toInt) (h : s.timerCount.toInt ≤ 0) :
    timerPhase s = timerPhase ((s.setTimerCount s.timerLimit).setTimerElapsed true) := by
  have hrun : 0 < ((s.setTimerCount s.timerLimit).setTimerElapsed true).timerCount.toInt := hp.1
  unfold timerPhase
  rw [reloadTimer_expired h, reloadTimer_running hrun]

theorem timerPhase_pending {s : State} (h : 0 < s.timerCount.toInt) (he : s.timerElapsed = true) :
    timerPhase s = interrupt .timer s := by
  rw [timerPhase, reloadTimer_running h, if_pos he]

theorem fetch_pending {s : State} (h : 0 < s.timerCount.toInt) (he : s.timerElapsed = true) :
    fetch s = (interrupt .timer s).bind fun _ t => readOpcode t := by
  rw [fetch, timerPhase_pending h he]

theorem fetch_idle {s : State} (h : NoTimerEvent s) : fetch s = readOpcode s := by
  rw [fetch, timerPhase_none h, Res.bind_ok]

/-! ### The opcode read -/

theorem readOpcode_linked {s : State} (h : Linked s) (ha : Accessible s s.pc) :
    readOpcode s = .ok () (fetched s (wordAt s s.pc)) := by
  rw [readOpcode, memRead_linked h ha, Res.bind_ok]

/-- Only the read itself can fault. -/
theorem readOpcode_fault_iff {s t : State} {f : FaultReport} :
    readOpcode s = .fault f t ↔ memRead s.pc s = .fault f t := by
  rw [readOpcode, Res.bind_eq_fault, or_iff_left]
  rintro ⟨w, u, -, hfetched⟩
  cases hfetched

/-- Settles O8: the timer phase by the state of the timer, and the opcode read, whose faults are those of the read. -/
theorem fetchSequence : Obligations.FetchSequence := by
  refine ⟨fun s hp h => ?reload, fun s t h he hi => ?entered, fun s t f h he hi => ?entryFaults,
    fun s h he => fetch_idle ⟨h, .inr he⟩, fun s hl ha => readOpcode_linked hl ha, fun s t f h => ?cause,
    fun s hp => ?violation, fun s ho hs => ?outOfRange⟩
  case reload => rw [fetch, fetch, timerPhase_expired hp h]
  case entered => rw [fetch_pending h he, hi, Res.bind_ok]
  case entryFaults => rw [fetch_pending h he, hi, Res.bind_fault]
  case cause =>
    obtain ⟨regs, -, cause⟩ := memRead_fault (readOpcode_fault_iff.mp h)
    exact ⟨cause, regs.pc⟩
  case violation => exact ⟨_, readOpcode_fault_iff.mpr (memRead_protected hp)⟩
  case outOfRange => exact ⟨_, readOpcode_fault_iff.mpr (memRead_outOfRange ho hs)⟩

/-! ### The launch, and the range of the countdown -/

/-- A launch that answers a state passed its three tests and loaded its image. -/
theorem launch_next {l : Launch} {s : State} (h : launch l = .next s) :
    l.params.WellFormed ∧ TimerPeriodOk l.timerLimit ∧
      ∃ lines m, l.image = some lines ∧ loadLines l.params lines 0 (drawnMemory l.params l.cell) = some m ∧
        s = launchedState l m := by
  unfold launch at h
  split at h
  · cases h
  · rename_i hparams
    split at h
    · cases h
    · rename_i hperiod
      split at h
      · cases h
      · rename_i lines himage
        split at h
        · cases h
        · rename_i m hload
          cases h
          exact ⟨not_not.mp hparams, not_not.mp hperiod, lines, m, himage, hload, rfl⟩

/-- R11 (d): a timer period is a word. -/
theorem toInt_ofInt_timerPeriod {period : Int} (h : TimerPeriodOk period) :
    (BitVec.ofInt 32 period).toInt = period := by
  obtain ⟨hlow, hhigh⟩ := h
  rw [Word.maxInt] at hhigh
  rw [BitVec.toInt_ofInt]
  exact Int.bmod_eq_of_le (by omega) (by omega)

theorem launchedState_timerOk {l : Launch} (h : TimerPeriodOk l.timerLimit) (m : Memory) :
    TimerOk (launchedState l m) := by
  have hperiod : (launchedState l m).timerLimit.toInt = l.timerLimit := toInt_ofInt_timerPeriod h
  have hcount : (launchedState l m).timerCount.toInt = l.timerLimit := toInt_ofInt_timerPeriod h
  unfold TimerOk
  rw [hperiod, hcount]
  exact ⟨h, by have := h.1; omega, le_refl _⟩

/-- Settles O11: a launch starts the countdown at the period, a completed step ticks the reloaded countdown
(`step_next_timer`), and no countdown in range is negative. -/
theorem countdownStaysInRange : Obligations.CountdownStaysInRange := by
  refine ⟨fun l s h => ?launched, fun s t hs h ht => ?step, fun s hs => ?reload⟩
  case launched =>
    obtain ⟨-, hperiod, lines, m, -, -, rfl⟩ := launch_next h
    exact ⟨rfl, launchedState_timerOk hperiod m⟩
  case step =>
    obtain ⟨hlimit, hcount⟩ := step_next_timer h ht
    rw [← (reloadTimer_frame s).timerCount] at hcount
    have range := reloadTimer_range hs
    have ticked := reloadTimer_tick hs
    refine ⟨step_next_timerOk hs h, ?_⟩
    rw [hlimit, hcount]
    omega
  case reload =>
    obtain ⟨-, hlow, -⟩ := hs
    have h0 : (0 : Word).toInt = 0 := BitVec.toInt_zero
    have hzero : s.timerCount = 0 ↔ s.timerCount.toInt = 0 := by rw [← BitVec.toInt_inj, h0]
    rw [timerExpired, decide_eq_true_iff, hzero]
    omega

end Sys2Proof.Machine
end

section
/-! PROOFS. The interface controller and the array (spec/20_memory.md R49, R50, R52, R58, R62). -/

namespace Sys2Proof.Machine

/-- Settles O12: the equations of a read, one per kind of address, and the cause of its faults (`memRead_fault`). -/
theorem memoryRead : Obligations.MemoryRead := by
  refine fun s a => ⟨memRead_protected, fun hl hs => ?sentinel, memRead_outOfRange, memRead_linked,
    fun f t h => ?cause⟩
  case sentinel => rw [hs, memRead_sentinel hl]
  case cause =>
    obtain ⟨-, hcpu, cause⟩ := memRead_fault h
    exact ⟨cause, hcpu⟩

/-- Settles O13: the equations of a write, one per kind of address, and the cause of its faults (`memWrite_fault`). -/
theorem memoryWrite : Obligations.MemoryWrite := by
  refine fun s a v => ⟨fun h => memWrite_protected h v, fun h => memWrite_outOfRange h v,
    fun hl ha => memWrite_linked hl ha v, fun t => memWrite_not_stuck, fun f t h => ?cause⟩
  case cause =>
    obtain ⟨-, hcpu, cause⟩ := memWrite_fault h
    exact ⟨cause, hcpu⟩

/-- R52 at the fetch: the opcode read blocks and the step ends there. -/
theorem step_pc_sentinel {s : State} (hl : Linked s) (hpc : s.pc = Config.sentinel) (hr : s.cpu = .running)
    (hn : NoTimerEvent s) : step s = .next ((s.setMemUnit .stopped).setCpu .stuck) := by
  rw [step_running hr, timerPhase_none hn, Res.bind_ok, readOpcode, hpc, memRead_sentinel hl]
  rfl

/-- Settles O14: the read itself, the two computed loads through the case of a load at -1, the pop and the fetch. -/
theorem sentinelReadSticks : Obligations.SentinelReadSticks := by
  refine fun s hl => ⟨memRead_sentinel hl, fun n hn => ?indexed, fun hs => ?stackRelative, fun hs => ?pop,
    fun hpc hr hn => step_pc_sentinel hl hpc hr hn⟩
  case indexed =>
    obtain ⟨-, -, sentinel, -⟩ := loadsFrom_of_exec_eq (i := .loadIdxX n) (a := fun s => n + s.x) (fun _ => rfl) s hl
    exact sentinel hn
  case stackRelative =>
    obtain ⟨-, -, sentinel, -⟩ := loadsFrom_of_exec_eq (i := .loadSpX) (a := fun s => s.sp + s.x) (fun _ => rfl) s hl
    exact sentinel hs
  case pop =>
    obtain ⟨-, -, sentinel, -⟩ := pops_of_exec_eq (exec_pop s)
    exact sentinel hl hs

theorem wordAt_stored_same {s : State} (h : s.mem.wf) (a v : Word) : wordAt (stored a v s) a = v :=
  Memory.read_write_same h a.toNat v

theorem wordAt_stored_other {a b : Word} (h : b ≠ a) (v : Word) (s : State) : wordAt (stored a v s) b = wordAt s b :=
  Memory.read_write_other (mt BitVec.eq_of_toNat_eq h) _ _

/-- Settles O16: the write stores its word and leaves the channel linked, so that every later read answers what the
array holds. -/
theorem readsSeeLatestWrite : Obligations.ReadsSeeLatestWrite := by
  intro s a v hl hwf ha
  have hstored : wordAt (stored a v s) a = v := wordAt_stored_same hwf a v
  have linked : Linked (stored a v s) := hl
  refine ⟨stored a v s, memWrite_linked hl ha v, linked, ?same, fun b hb hacc => ?other,
    fun n hn => Memory.read_write_other hn _ _, ?fetch⟩
  case same => rw [memRead_linked linked ha, hstored]
  case other => rw [memRead_linked linked hacc, wordAt_stored_other hb]
  case fetch =>
    have hword : wordAt ((stored a v s).setPc a) a = v := hstored
    rw [readOpcode_linked (s := (stored a v s).setPc a) hl ha, State.setPc_pc, hword]

/-! ### The canonical form -/

/-- Two canonical memories that read alike list the same first address. -/
theorem Memory.fst_le_of_read_eq {k l : Nat} {v w : Word} {m n : Memory} (hm : Memory.wf ((k, v) :: m))
    (hn : Memory.wf ((l, w) :: n)) (h : ∀ a, Memory.read ((k, v) :: m) a = Memory.read ((l, w) :: n) a) : l ≤ k := by
  by_contra hlt
  have hbelow : ∀ p ∈ (l, w) :: n, k < p.1 := by
    intro p hp
    rcases List.mem_cons.mp hp with rfl | hp
    · dsimp; omega
    · have := (List.pairwise_cons.mp hn.1).1 p hp
      dsimp at this; omega
  have hv : v = Config.unlistedWord := by
    have hk := h k
    rwa [Memory.read_of_below hbelow, Memory.read_cons, if_pos rfl] at hk
  exact hm.2 (k, v) (by simp) hv

/-- A listed address of a canonical memory does not read as an unlisted one. -/
theorem Memory.read_cons_ne_unlisted {k : Nat} {v : Word} {m : Memory} (h : Memory.wf ((k, v) :: m)) :
    Memory.read ((k, v) :: m) k ≠ Config.unlistedWord := by
  rw [Memory.read_cons, if_pos rfl]
  exact h.2 (k, v) (by simp)

/-- Canonical memories that read alike are equal: entry by entry, the first addresses and words agree. -/
theorem Memory.ext_of_read {m n : Memory} (hm : m.wf) (hn : n.wf) (h : ∀ a, Memory.read m a = Memory.read n a) :
    m = n := by
  induction m generalizing n with
  | nil =>
    cases n with
    | nil => rfl
    | cons q n => exact absurd (h q.1).symm (Memory.read_cons_ne_unlisted hn)
  | cons p m ih =>
    cases n with
    | nil => exact absurd (h p.1) (Memory.read_cons_ne_unlisted hm)
    | cons q n =>
      obtain ⟨k, v⟩ := p
      obtain ⟨l, w⟩ := q
      obtain rfl : k = l := le_antisymm (Memory.fst_le_of_read_eq hn hm fun a => (h a).symm)
        (Memory.fst_le_of_read_eq hm hn h)
      have hv : v = w := by simpa [Memory.read_cons] using h k
      have hrest : ∀ a, Memory.read m a = Memory.read n a := by
        intro a
        by_cases hk : k = a
        · subst hk
          rw [Memory.read_of_below (List.pairwise_cons.mp hm.1).1, Memory.read_of_below (List.pairwise_cons.mp hn.1).1]
        · simpa [Memory.read_cons, hk] using h a
      rw [hv, ih (Memory.wf_tail hm) (Memory.wf_tail hn) hrest]

/-- Settles O18: a write keeps the form (`Memory.write_wf`), and the form is extensional (`Memory.ext_of_read`). -/
theorem memoryIsCanonical : Obligations.MemoryIsCanonical :=
  ⟨fun _ a v h => ⟨Memory.write_wf h a v, Memory.read_write_same h a v⟩, fun _ _ => Memory.ext_of_read⟩

end Sys2Proof.Machine
end

section
/-! PROOFS. What a fault leaves and what the host's stop makes of it (spec/20_memory.md R57, R59,
spec/60_exceptions.md R144, R145). -/

namespace Sys2Proof.Machine

/-- A refused fetch sends nothing (R46, R144). -/
theorem step_pc_protected {s : State} (hr : s.cpu = .running) (hn : NoTimerEvent s) (hp : Protected s s.pc) :
    FaultsWith s (step s) (.accessViolation s.pc .read s.pc) := by
  rw [step_running hr, timerPhase_none hn, Res.bind_ok, readOpcode, memRead_protected hp]
  exact .of_raise (.refl s)

/-- A read sent to a stopped memory unit on a reliable channel waits for good, the array as it was (R145). -/
theorem memRead_stopped {s : State} {a : Word} (hc : s.params.channelFails = false) (hu : s.memUnit = .stopped)
    (hrs : s.responses = []) (ha : Accessible s a) :
    ∃ t, memRead a s = .stuck t ∧ t.cpu = .stuck ∧ t.mem = s.mem := by
  have hsend : send [a] s = .ok () (s.setRequests (s.requests ++ [[a]])) := by
    rw [send, channelDraw_reliable hc]
  have hreceive : receive a (s.setRequests (s.requests ++ [[a]])) = block (s.setRequests (s.requests ++ [[a]])) := by
    simp only [receive, channelDraw_reliable (s := s.setRequests (s.requests ++ [[a]])) hc, State.setRequests_responses,
      hrs]
  refine ⟨(s.setRequests (s.requests ++ [[a]])).setCpu .stuck, ?_, rfl, rfl⟩
  rw [memRead, if_neg (mt privilegeRefuses_iff.mp ha.notProtected), if_neg ha.ne_sentinel, if_neg (by simp [ha.inRange]),
    hsend, Res.bind_ok, serve_stopped (s := s.setRequests (s.requests ++ [[a]])) hu, hreceive, block_eq]

/-- Settles O17: what a fault keeps (`step_fault_keeps`), the refused fetch, the writes that the host's stop lets
through (`stopUnitAfter_spec`), and the read that a stopped unit never answers. -/
theorem hostStopKeepsAPrefix : Obligations.HostStopKeepsAPrefix := by
  refine ⟨fun s t r h => ?fault, fun s hr hn hp => step_pc_protected hr hn hp, fun t hm hu => ?stop,
    fun s a hl ha => ?read⟩
  case fault =>
    obtain ⟨_, _, heq, keeps⟩ := step_fault_keeps h
    cases heq
    exact ⟨keeps.cpu, keeps.output, keeps.params, keeps.memoryOk, keeps.linked, keeps.onlyInFlight⟩
  case stop =>
    obtain ⟨k, hk, hstop⟩ := hostStopsUnit_serving hu
    obtain ⟨mem, requests, unit, cpu, ok⟩ := stopUnitAfter_spec k (s := t.setDraws (t.draws + 1)) hm
    obtain ⟨-, responses, -⟩ := stopUnitAfter_frame k (t.setDraws (t.draws + 1))
    rw [hstop]
    exact ⟨applyWrites_posted hm.2.2, k, hk, mem, requests, responses, unit, cpu, ok⟩
  case read =>
    obtain ⟨reliable, serving, -, hresponses⟩ := hl
    obtain ⟨k, -, hstop⟩ := hostStopsUnit_serving serving
    obtain ⟨regs, responses, stopped⟩ := stopUnitAfter_frame k (s.setDraws (s.draws + 1))
    rw [hstop]
    exact memRead_stopped (by rw [regs.params]; exact reliable) stopped (responses.trans hresponses)
      (Accessible.of_eq ha regs.params regs.kernel)

end Sys2Proof.Machine
end

section
/-! PROOFS. The output port and its printed form (spec/42_io.md R92, R95). -/

namespace Sys2Proof.Machine

/-! ### The event of a port -/

theorem putEvent_int (s : State) : putEvent 1 s = .int s.ac := rfl

theorem putEvent_char (s : State) : putEvent 2 s = .char (lowByte s.ac) := rfl

theorem putEvent_invalid {q : Word} (h1 : q ≠ 1) (h2 : q ≠ 2) (s : State) : putEvent q s = .invalidPort q := by
  rw [putEvent, portIsInt, portIsChar, if_neg (by simpa using h1), if_neg (by simpa using h2)]

/-- Settles O26: opcode 9 is a two-word row of the map, and `Put` emits the event of its port. -/
theorem putEmitsEvent : Obligations.PutEmitsEvent := by
  refine ⟨runsTwoWord_of_decodeInstr rfl fun _ => rfl,
    fun s => ⟨?int, ⟨lowByte s.ac, ?byte, ?char⟩, fun q h1 h2 => ?other⟩⟩
  case int => rw [exec_put, putEvent_int, emit]
  case byte => exact BitVec.toNat_setWidth 8 s.ac
  case char => rw [exec_put, putEvent_char, emit]
  case other => rw [exec_put, putEvent_invalid h1 h2, emit]

/-! ### Decimal numbers -/

/-- The digits of a run are read one after the other, and reading goes on behind it. -/
theorem readDigits_append {ds : List Char} (h : ∀ c ∈ ds, (digitValue c).isSome = true) (es : List Char) (acc : Nat) :
    readDigits (ds ++ es) acc = readDigits es (readDigits ds acc) := by
  induction ds generalizing acc with
  | nil => rfl
  | cons c ds ih =>
    obtain ⟨d, hd⟩ := Option.isSome_iff_exists.mp (h c (by simp))
    simp only [List.cons_append, readDigits, hd]
    exact ih (fun c hc => h c (by simp [hc])) _

/-- `ds` is the decimal numeral of `n`, with no leading zero (R92). -/
structure Numeral (ds : List Char) (n : Nat) : Prop where
  ne_nil : ds ≠ []
  digits : ∀ c ∈ ds, (digitValue c).isSome = true
  noLeadingZero : ds.head? = some '0' → ds = ['0']
  value : readDigits ds 0 = n

theorem digitValue_ofNat {d : Nat} (h : d < 10) : digitValue (Char.ofNat (48 + d)) = some d := by
  have hall : ∀ d < 10, digitValue (Char.ofNat (48 + d)) = some d := by decide
  exact hall d h

/-- The range of the decimal digits. -/
theorem toNat_of_digitValue {c : Char} (h : (digitValue c).isSome = true) : 48 ≤ c.toNat ∧ c.toNat ≤ 57 := by
  unfold digitValue at h
  split at h
  · assumption
  · cases h

theorem Numeral.digit {n : Nat} (h : n < 10) : Numeral [Char.ofNat (48 + n)] n where
  ne_nil := nofun
  digits c hc := by rw [List.mem_singleton.mp hc, digitValue_ofNat h]; rfl
  noLeadingZero h0 := congrArg (fun c => [c]) (Option.some.inj h0)
  value := by simp only [readDigits, digitValue_ofNat h]; omega

/-- A digit behind the numeral of a positive number. -/
theorem Numeral.snoc {ds : List Char} {n d : Nat} (h : Numeral ds n) (hn : n ≠ 0) (hd : d < 10) :
    Numeral (ds ++ [Char.ofNat (48 + d)]) (10 * n + d) where
  ne_nil := by simp
  digits c hc := by
    rcases List.mem_append.mp hc with hc | hc
    · exact h.digits c hc
    · rw [List.mem_singleton.mp hc, digitValue_ofNat hd]; rfl
  noLeadingZero h0 := by
    rw [List.head?_append_of_ne_nil _ h.ne_nil] at h0
    have hzero : readDigits ['0'] 0 = n := h.noLeadingZero h0 ▸ h.value
    exact absurd hzero.symm hn
  value := by
    rw [readDigits_append h.digits, h.value]
    simp only [readDigits, digitValue_ofNat hd]

theorem decimalDigits_append (fuel n : Nat) (ds es : List Char) :
    decimalDigits fuel n (ds ++ es) = decimalDigits fuel n ds ++ es := by
  induction fuel generalizing n ds with
  | zero => rfl
  | succ fuel ih =>
    simp only [decimalDigits]
    split
    · rfl
    · exact ih _ (_ :: ds)

/-- With fuel for every digit, `decimalDigits` writes the numeral. -/
theorem decimalDigits_numeral {fuel n : Nat} (h : n < 10 ^ (fuel + 1)) : Numeral (decimalDigits (fuel + 1) n []) n := by
  induction fuel generalizing n with
  | zero =>
    have hn : n < 10 := by omega
    have e : decimalDigits 1 n [] = [Char.ofNat (48 + n)] := by
      rw [decimalDigits, if_pos (Nat.div_eq_of_lt hn), Nat.mod_eq_of_lt hn]
    rw [e]
    exact .digit hn
  | succ fuel ih =>
    rw [decimalDigits]
    split
    · rename_i hzero
      have hn : n < 10 := by omega
      rw [Nat.mod_eq_of_lt hn]
      exact .digit hn
    · rename_i hpos
      have hdiv : n / 10 < 10 ^ (fuel + 1) := by omega
      have hsnoc := (ih hdiv).snoc hpos (Nat.mod_lt n (by decide : 0 < 10))
      rw [Nat.div_add_mod] at hsnoc
      rwa [← List.nil_append [_], decimalDigits_append]

theorem natAbs_toInt_lt (v : Word) : v.toInt.natAbs < 10 ^ (9 + 1) := by
  have hb := toInt_bounds v
  omega

theorem printOutput_append (character : BitVec 8 → List Char) (notice : Word → List Char) (es fs : List OutEvent) :
    printOutput character notice (es ++ fs) =
      printOutput character notice es ++ printOutput character notice fs := by
  induction es with
  | nil => rfl
  | cons e es ih => cases e <;> simp only [List.cons_append, printOutput, ih, List.append_assoc]

/-- Settles O27: a word has at most ten digits, so its fuel is enough (`decimalDigits_numeral`), and the printer goes
through the events one by one. -/
theorem intEventPrintsDecimal : Obligations.IntEventPrintsDecimal := by
  refine ⟨fun v => ?decimal, printOutput_append, fun character notice v => List.append_nil _⟩
  case decimal =>
    have numeral := decimalDigits_numeral (natAbs_toInt_lt v)
    exact ⟨_, numeral.ne_nil, fun c hc => toNat_of_digitValue (numeral.digits c hc), numeral.noLeadingZero,
      numeral.value, rfl⟩

end Sys2Proof.Machine
end

section
/-! PROOFS. Arithmetic and register transfers (spec/43_arith_transfer.md R96 to R109). -/

namespace Sys2Proof.Machine

theorem toInt_one : (1 : Word).toInt = 1 := by decide

/-- Settles O28: six one-word rows of the map, and the sum or difference of two words read signed, reduced as
`BitVec.toInt_add` and `BitVec.toInt_sub` say. -/
theorem arithmeticWraps : Obligations.ArithmeticWraps := by
  refine ⟨runsOneWord_of_decodeInstr rfl rfl, runsOneWord_of_decodeInstr rfl rfl, runsOneWord_of_decodeInstr rfl rfl,
    runsOneWord_of_decodeInstr rfl rfl, runsOneWord_of_decodeInstr rfl rfl, runsOneWord_of_decodeInstr rfl rfl,
    fun s => ⟨⟨_, BitVec.toInt_add s.ac s.x, rfl⟩, ⟨_, BitVec.toInt_add s.ac s.y, rfl⟩,
      ⟨_, BitVec.toInt_sub, rfl⟩, ⟨_, BitVec.toInt_sub, rfl⟩, ⟨s.x + 1, ?incX, rfl⟩,
      ⟨s.x - 1, ?decX, rfl⟩⟩⟩
  case incX => rw [BitVec.toInt_add, toInt_one]
  case decX => rw [BitVec.toInt_sub, toInt_one]

/-- Settles O29: six one-word rows of the map, each of which copies one register, in every state. -/
theorem transfersCopy : Obligations.TransfersCopy :=
  ⟨runsOneWord_of_decodeInstr rfl rfl, runsOneWord_of_decodeInstr rfl rfl, runsOneWord_of_decodeInstr rfl rfl,
    runsOneWord_of_decodeInstr rfl rfl, runsOneWord_of_decodeInstr rfl rfl, runsOneWord_of_decodeInstr rfl rfl,
    fun _ => ⟨rfl, rfl, rfl, rfl, rfl, rfl⟩⟩

end Sys2Proof.Machine
end

section
/-! PROOFS. The call and the round trips of the stack (spec/40_cycle.md R81, spec/44_control_stack.md R114, R115,
spec/60_exceptions.md R131). -/

namespace Sys2Proof.Machine

/-! ### The call -/

theorem exec_call (a : Word) (s : State) :
    exec (.call a) s = ((push s.pc s).bind fun _ t => .ok () (t.setPc a)).outcome := rfl

theorem exec_call_linked {s : State} (h : Linked s) (ha : Accessible s (s.sp - 1)) (a : Word) :
    exec (.call a) s = .next ((stored (s.sp - 1) s.pc (s.setSp (s.sp - 1))).setPc a) := by
  rw [exec_call, push_linked h _ ha, Res.bind_ok, Res.outcome_ok]

theorem exec_push_linked {s : State} (h : Linked s) (ha : Accessible s (s.sp - 1)) :
    exec .push s = .next (stored (s.sp - 1) s.ac (s.setSp (s.sp - 1))) := by
  rw [exec_push, push_linked h _ ha, Res.outcome_ok]

/-- Settles O31: opcode 23 is a two-word row of the map, and `Call` ends as its push does where that does not go on. -/
theorem callPushesReturnAddress : Obligations.CallPushesReturnAddress := by
  refine ⟨runsTwoWord_of_decodeInstr rfl fun _ => rfl, fun s t => ?_⟩
  refine ⟨fun hl ha => exec_call_linked hl ha t, fun hp => ?violation, fun ho => ?outOfRange⟩
  case violation => rw [exec_call, push_protected _ hp]; exact .of_raise (.refl s)
  case outOfRange => rw [exec_call, push_outOfRange _ ho]; exact .of_raise (.refl s)

/-! ### A pop after a push -/

/-- A pop at the address a push stored to gives its word back, with `SP` as before the push (R81). -/
theorem pop_pushed {s h : State} {v : Word} (hl : Linked h) (ha : Accessible s (s.sp - 1)) (hp : h.params = s.params)
    (hk : h.kernel = s.kernel) (hsp : h.sp = s.sp - 1) (hv : wordAt h h.sp = v) : pop h = .ok v (h.setSp s.sp) := by
  have hacc : Accessible h h.sp := hsp ▸ ha.of_eq hp hk
  rw [pop_linked hl hacc, hv, hsp, sub_add_cancel]

/-- Settles O35: the push stores `AC` at `SP - 1`, and a pop there reads it back (`pop_pushed`). -/
theorem pushPopRoundTrip : Obligations.PushPopRoundTrip := by
  intro s hl hwf ha
  refine ⟨_, exec_push_linked hl ha, rfl, fun h hlh hp hk hsp hword => ?_⟩
  have hac : wordAt h h.sp = s.ac := hword.trans (wordAt_stored_same (s := s.setSp (s.sp - 1)) hwf _ _)
  refine ⟨(h.setSp s.sp).setAc s.ac, ?_, rfl, rfl, rfl, rfl, rfl, rfl⟩
  rw [exec_pop, pop_pushed hlh ha hp hk hsp hac, Res.bind_ok, Res.outcome_ok]

/-- Settles O36: the call stores the return address at `SP - 1`, and a pop there reads it back (`pop_pushed`). -/
theorem callRetRoundTrip : Obligations.CallRetRoundTrip := by
  intro s a hl hwf ha
  refine ⟨_, exec_call_linked hl ha a, rfl, fun h hlh hp hk hsp hword => ?_⟩
  have hpc : wordAt h h.sp = s.pc := hword.trans (wordAt_stored_same (s := s.setSp (s.sp - 1)) hwf _ _)
  refine ⟨(h.setSp s.sp).setPc s.pc, ?_, rfl, rfl, rfl, rfl, rfl⟩
  rw [exec_ret, pop_pushed hlh ha hp hk hsp hpc, Res.bind_ok, Res.outcome_ok]

/-! ### The return from an interrupt after its entry -/

@[simp] theorem entered_sp (cause : Cause) (s : State) : (entered cause s).sp = s.params.sysStackBase - 1 - 1 := by
  cases cause <;> rfl

@[simp] theorem entered_kernel (cause : Cause) (s : State) : (entered cause s).kernel = true := by
  cases cause <;> rfl

@[simp] theorem entered_params (cause : Cause) (s : State) : (entered cause s).params = s.params := by
  cases cause <;> rfl

theorem entered_mem (cause : Cause) (s : State) :
    (entered cause s).mem =
      (stored (s.params.sysStackBase - 1 - 1) s.pc (stored (s.params.sysStackBase - 1) s.sp s)).mem := by
  cases cause <;> rfl

theorem sub_one_ne_self (a : Word) : a ≠ a - 1 := by
  intro h
  have h0 : (1 : Word) = 0 := sub_eq_self.mp h.symm
  exact absurd h0 (by decide)

/-- The two words that an entry saves (R124). -/
theorem entered_saved {s : State} (hwf : s.mem.wf) (cause : Cause) :
    wordAt (entered cause s) (s.params.sysStackBase - 1 - 1) = s.pc ∧
      wordAt (entered cause s) (s.params.sysStackBase - 1) = s.sp := by
  unfold wordAt
  rw [entered_mem]
  exact ⟨wordAt_stored_same (Memory.write_wf hwf _ _) _ _,
    (wordAt_stored_other (sub_one_ne_self _) _ _).trans (wordAt_stored_same hwf _ _)⟩

/-- R131: opcode 30 in a handler state that has the entry's `SP` and memory. -/
theorem exec_return_entered {s h : State} {cause : Cause} (hw : s.params.WellFormed) (hwf : s.mem.wf) (hl : Linked h)
    (hk : h.kernel = true) (hsp : h.sp = (entered cause s).sp) (hmem : h.mem = (entered cause s).mem)
    (hp : h.params = s.params) :
    exec .returnFromInterrupt h = .next (((h.setPc s.pc).setSp s.sp).setKernel false) := by
  rw [entered_sp] at hsp
  obtain ⟨savedPc, savedSp⟩ := entered_saved hwf cause
  rw [← hp] at hw hsp savedPc savedSp
  have hnext : h.sp + 1 = h.params.sysStackBase - 1 := by rw [hsp, sub_add_cancel]
  obtain ⟨acc1, acc2⟩ := stack_slots_accessible hw hk
  have hpc : wordAt h h.sp = s.pc := by rw [wordAt, hmem, hsp]; exact savedPc
  have hsp' : wordAt h (h.sp + 1) = s.sp := by rw [wordAt, hmem, hnext]; exact savedSp
  obtain ⟨-, restores⟩ := returnFromInterruptRestores
  obtain ⟨restores, -⟩ := restores h hl
  rw [restores (hsp ▸ acc2) (hnext ▸ acc1), hpc, hsp']

/-- Settles O40: the entry saves `PC` and `SP` (`interrupt_linked`), and opcode 30 reads them back. -/
theorem interruptReturnRoundTrip : Obligations.InterruptReturnRoundTrip := by
  intro s cause hk hl hw hwf
  refine ⟨entered cause s, interrupt_linked hl hw hk cause, entered_kernel cause s, fun h hlh hkh hsp hmem hp => ?_⟩
  rw [entered_params] at hp
  exact ⟨_, exec_return_entered hw hwf hlh hkh hsp hmem hp, rfl, rfl, rfl, rfl, rfl, rfl, rfl⟩

end Sys2Proof.Machine
end

section
/-! PROOFS. The registers an instruction writes (spec/10_state.md R19, R21). -/

namespace Sys2Proof.Machine

/-! ### The registers written -/

/-- The state `r` has the registers of `s` but for those that the instruction writes (R19). -/
def Writes : Instr → State → State → Prop
  | .loadValue _, s, r | .loadAddr _, s, r | .loadInd _, s, r | .loadIdxX _, s, r | .loadIdxY _, s, r | .loadSpX, s, r
  | .get, s, r | .addX, s, r | .addY, s, r | .subX, s, r | .subY, s, r | .copyFromX, s, r | .copyFromY, s, r
  | .copyFromSp, s, r => ∃ ac, r = s.setAc ac
  | .incX, s, r | .decX, s, r | .copyToX, s, r => ∃ x, r = s.setX x
  | .copyToY, s, r => ∃ y, r = s.setY y
  | .copyToSp, s, r | .push, s, r => ∃ sp, r = s.setSp sp
  | .jump _, s, r | .jumpIfEqual _, s, r | .jumpIfNotEqual _, s, r => ∃ pc, r = s.setPc pc
  | .call _, s, r | .ret, s, r => ∃ pc sp, r = (s.setPc pc).setSp sp
  | .pop, s, r => ∃ ac sp, r = (s.setAc ac).setSp sp
  | .softwareInterrupt, s, r => ∃ pc sp k, r = ((s.setPc pc).setSp sp).setKernel k ∧ (k = s.kernel ∨ k = true)
  | .returnFromInterrupt, s, r => ∃ pc sp k, r = ((s.setPc pc).setSp sp).setKernel k ∧ (k = s.kernel ∨ k = false)
  | .put _, s, r => ∃ out, r = s.setOutput out
  | .store _, s, r | .terminate, s, r => r = s

theorem SameRegs.refl (s : State) : SameRegs s s := by constructor <;> rfl

theorem SameRegs.setAc {s t : State} (h : SameRegs s t) (v : Word) : SameRegs (s.setAc v) (t.setAc v) :=
  ⟨h.pc, h.sp, h.ir, rfl, h.x, h.y, h.kernel, h.timerElapsed, h.timerLimit, h.timerCount, h.output, h.params⟩

theorem SameRegs.setPc {s t : State} (h : SameRegs s t) (v : Word) : SameRegs (s.setPc v) (t.setPc v) :=
  ⟨rfl, h.sp, h.ir, h.ac, h.x, h.y, h.kernel, h.timerElapsed, h.timerLimit, h.timerCount, h.output, h.params⟩

theorem loadAc_writes {a : Word} {s t : State} (h : (loadAc a s).outcome = .next t) :
    ∃ ac, SameRegs (s.setAc ac) t := by
  rcases Res.outcome_eq_next.mp h with h | h
  · obtain ⟨⟨v, -, f, -⟩, -, -⟩ := loadAc_ok h
    exact ⟨v, f⟩
  · exact ⟨s.ac, (loadAc_stuck h).1⟩

theorem loadInd_writes {n : Word} {s t : State} (h : exec (.loadInd n) s = .next t) :
    ∃ ac, SameRegs (s.setAc ac) t := by
  rw [exec_loadInd] at h
  cases hr : memRead n s with
  | fault f u => rw [hr] at h; cases h
  | stuck u =>
    rw [hr] at h
    cases h
    exact ⟨s.ac, (memRead_stuck hr).1⟩
  | ok b u =>
    rw [hr, Res.bind_ok] at h
    obtain ⟨⟨pointer, -⟩, -⟩ := memRead_ok hr
    obtain ⟨ac, data⟩ := loadAc_writes h
    exact ⟨ac, (pointer.setAc ac).trans data⟩

/-- What an instruction whose body puts the popped word somewhere leaves in the registers. -/
theorem pop_writes {put : State → Word → State} {s t : State}
    (h : ((pop s).bind fun v u => .ok () (put u v)).outcome = .next t) :
    SameRegs s t ∨ ∃ v u, SameRegs (s.setSp (s.sp + 1)) u ∧ t = put u v := by
  rcases Res.outcome_eq_next.mp h with h | h
  · obtain ⟨v, u, hpop, h⟩ := Res.bind_eq_ok.mp h
    cases h
    exact .inr ⟨v, u, (pop_ok hpop).1.1, rfl⟩
  · rcases Res.bind_eq_stuck.mp h with h | ⟨v, u, -, h⟩
    · exact .inl (pop_stuck h).1
    · cases h

theorem interrupt_writes {s t : State} (h : interrupt .manual s = .ok () t) :
    ∃ pc sp k, SameRegs (((s.setPc pc).setSp sp).setKernel k) t ∧ (k = s.kernel ∨ k = true) := by
  rcases interrupt_ok h with ⟨-, rfl⟩ | ⟨-, ⟨f, -⟩, -⟩
  · exact ⟨_, _, _, .refl _, .inl rfl⟩
  · exact ⟨_, _, _, f, .inr rfl⟩

/-- An instruction that answers a next state has written at most its registers, also where its access blocks. -/
theorem exec_next_writes {i : Instr} {s t : State} (h : exec i s = .next t) : ∃ r, Writes i s r ∧ SameRegs r t := by
  cases i
  case loadAddr | loadIdxX | loadIdxY | loadSpX =>
    obtain ⟨ac, f⟩ := loadAc_writes h
    exact ⟨_, ⟨ac, rfl⟩, f⟩
  case loadInd =>
    obtain ⟨ac, f⟩ := loadInd_writes h
    exact ⟨_, ⟨ac, rfl⟩, f⟩
  case store =>
    rcases Res.outcome_eq_next.mp h with h | h
    · exact ⟨s, rfl, (memWrite_ok h).1.1⟩
    · exact absurd h memWrite_not_stuck
  case put => rw [exec_put] at h; cases h; exact ⟨_, ⟨_, rfl⟩, .refl _⟩
  case jumpIfEqual | jumpIfNotEqual => rw [exec_eq_body] at h; cases h; exact ⟨_, ⟨_, rfl⟩, .refl _⟩
  case call a =>
    rcases Res.outcome_eq_next.mp h with h | h
    · obtain ⟨_, u, hpush, h⟩ := Res.bind_eq_ok.mp h
      cases h
      exact ⟨_, ⟨a, s.sp - 1, rfl⟩, (push_ok hpush).1.1.setPc a⟩
    · rcases Res.bind_eq_stuck.mp h with h | ⟨_, _, -, h⟩
      · exact absurd h push_not_stuck
      · cases h
  case push =>
    rcases Res.outcome_eq_next.mp h with h | h
    · exact ⟨_, ⟨_, rfl⟩, (push_ok h).1.1⟩
    · exact absurd h push_not_stuck
  case ret =>
    rcases pop_writes h with f | ⟨v, u, f, rfl⟩
    · exact ⟨_, ⟨s.pc, s.sp, rfl⟩, f⟩
    · exact ⟨_, ⟨v, s.sp + 1, rfl⟩, f.setPc v⟩
  case pop =>
    rcases pop_writes h with f | ⟨v, u, f, rfl⟩
    · exact ⟨_, ⟨s.ac, s.sp, rfl⟩, f⟩
    · exact ⟨_, ⟨v, s.sp + 1, rfl⟩, f.setAc v⟩
  case softwareInterrupt =>
    rcases Res.outcome_eq_next.mp h with h | h
    · obtain ⟨pc, sp, k, f, hk⟩ := interrupt_writes h
      exact ⟨_, ⟨pc, sp, k, rfl, hk⟩, f⟩
    · exact absurd h interrupt_not_stuck
  case returnFromInterrupt =>
    rcases Res.outcome_eq_next.mp h with h | h
    · obtain ⟨pc, sp, ⟨f, -⟩, -⟩ := returnFromHandler_ok h
      exact ⟨_, ⟨pc, sp, false, rfl, .inr rfl⟩, f⟩
    · obtain ⟨⟨pc, sp, f⟩, -, -⟩ := returnFromHandler_stuck h
      exact ⟨_, ⟨pc, sp, s.kernel, rfl, .inl rfl⟩, f⟩
  case terminate =>
    rcases Res.outcome_eq_next.mp h with h | h
    · obtain ⟨_, u, hsend, h⟩ := Res.bind_eq_ok.mp h
      cases h
      obtain ⟨⟨f, -⟩, -⟩ := sendTerminate_ok hsend
      exact ⟨s, rfl, f.trans (by constructor <;> rfl)⟩
    · rcases Res.bind_eq_stuck.mp h with h | ⟨_, _, -, h⟩
      · exact absurd h sendTerminate_not_stuck
      · cases h
  case get => cases h; exact ⟨_, ⟨_, rfl⟩, by constructor <;> rfl⟩
  all_goals cases h; exact ⟨_, ⟨_, rfl⟩, .refl _⟩

/-! ### By opcode -/

abbrev acWriters : List Word := [1, 2, 3, 4, 5, 6, 8, 10, 11, 12, 13, 15, 17, 19, 28]
abbrev xWriters : List Word := [14, 25, 26]
abbrev spWriters : List Word := [18, 23, 24, 27, 28, 29, 30]
abbrev pcWriters : List Word := [20, 21, 22, 23, 24, 29, 30]
abbrev kernelWriters : List Word := [29, 30]

/-- The column "written by" of R19. -/
structure WrittenByOpcode (op : Word) (s t : State) : Prop where
  ac : t.ac ≠ s.ac → op ∈ acWriters
  x : t.x ≠ s.x → op ∈ xWriters
  y : t.y ≠ s.y → op = 16
  sp : t.sp ≠ s.sp → op ∈ spWriters
  pc : t.pc ≠ s.pc → op ∈ pcWriters
  kernel : t.kernel ≠ s.kernel → op ∈ kernelWriters
  output : t.output ≠ s.output → op = 9

theorem Writes.byOpcode {i : Instr} {s r : State} (h : Writes i s r) : WrittenByOpcode (opcodeOf i) s r := by
  cases i
  case store | terminate => cases h; constructor <;> exact fun hne => absurd rfl hne
  case call | ret | pop => obtain ⟨_, _, rfl⟩ := h; constructor <;> simp [opcodeOf, encode]
  case softwareInterrupt | returnFromInterrupt =>
    obtain ⟨_, _, _, rfl, -⟩ := h
    constructor <;> simp [opcodeOf, encode]
  all_goals obtain ⟨_, rfl⟩ := h; constructor <;> simp [opcodeOf, encode]

theorem exec_next_writtenBy {i : Instr} {s t : State} (h : exec i s = .next t) : WrittenByOpcode (opcodeOf i) s t := by
  obtain ⟨r, hw, f⟩ := exec_next_writes h
  have written := hw.byOpcode
  constructor
  · rw [f.ac]; exact written.ac
  · rw [f.x]; exact written.x
  · rw [f.y]; exact written.y
  · rw [f.sp]; exact written.sp
  · rw [f.pc]; exact written.pc
  · rw [f.kernel]; exact written.kernel
  · rw [f.output]; exact written.output

/-- Settles O48: the registers each opcode writes (`exec_next_writtenBy`), and what no instruction changes
(`exec_next`). -/
theorem registersWrittenByTheirOpcodes : Obligations.RegistersWrittenByTheirOpcodes := by
  intro i s t h
  have written := exec_next_writtenBy h
  obtain ⟨frame, -⟩ := exec_next h
  exact ⟨written.ac, written.x, written.y, written.sp, written.pc, written.kernel, written.output, frame.ir,
    frame.timerElapsed, frame.timerLimit, frame.timerCount, frame.params⟩

end Sys2Proof.Machine
end

section
/-! PROOFS. The frame of an instruction, and system space under a user-mode step (spec/20_memory.md R46,
spec/60_exceptions.md R146). -/

namespace Sys2Proof.Machine

/-! ### The array under the instructions that store nothing -/

/-- An operation begun on a quiet channel that goes on or blocks leaves the array, and one that goes on leaves the
channel quiet. -/
def Res.KeepsMem {α : Type} (s : State) : Res α → Prop
  | .ok _ t => t.mem = s.mem ∧ Quiet t
  | .stuck t => t.mem = s.mem
  | .fault _ _ => True

theorem Res.KeepsMem.bind {α β : Type} {s : State} {r : Res α} {k : α → State → Res β} (h : r.KeepsMem s)
    (hk : ∀ v t, Quiet t → (k v t).KeepsMem t) : (r.bind k).KeepsMem s := by
  cases r with
  | fault f t => trivial
  | stuck t => exact h
  | ok v t =>
    obtain ⟨hm, hq⟩ := h
    have hkv := hk v t hq
    rw [Res.bind_ok]
    cases hr : k v t with
    | fault f u => trivial
    | stuck u => rw [hr] at hkv; exact Eq.trans hkv hm
    | ok w u => rw [hr] at hkv; exact ⟨hkv.1.trans hm, hkv.2⟩

section Quiet
variable {s : State} (q : Quiet s)
include q

theorem memRead_keepsMem (a : Word) : (memRead a s).KeepsMem s := by
  cases h : memRead a s with
  | ok v t => exact memRead_quiet_keeps q h
  | fault f t => trivial
  | stuck t => exact memRead_quiet_stuck q h

theorem loadAc_keepsMem (a : Word) : (loadAc a s).KeepsMem s :=
  (memRead_keepsMem q a).bind fun _ _ hq => ⟨rfl, hq⟩

theorem pop_keepsMem : (pop s).KeepsMem s :=
  (memRead_keepsMem q s.sp).bind fun _ _ hq => ⟨rfl, hq⟩

theorem returnFromHandler_keepsMem : (returnFromHandler s).KeepsMem s :=
  (pop_keepsMem q).bind fun v t hq => (pop_keepsMem (s := t.setPc v) hq).bind fun _ _ hq => ⟨rfl, hq⟩

theorem sendTerminate_mem {t : State} {u : Unit} (h : sendTerminate s = .ok u t) : t.mem = s.mem := by
  obtain ⟨_, v, hsend, hserve⟩ := Res.bind_eq_ok.mp h
  rcases send_cases [Config.sentinel] s with ⟨d, hok, -⟩ | ⟨-, d, hfault⟩
  · rw [hok] at hsend
    cases hsend
    cases hserve
    exact serve_one_mem q Config.sentinel d
  · rw [hfault] at hsend
    cases hsend

/-- An instruction whose opcode is none of the four that store leaves the array. -/
theorem exec_next_mem {i : Instr} {t : State} (h : exec i s = .next t)
    (hop : opcodeOf i ∉ ([7, 23, 27, 29] : List Word)) : t.mem = s.mem := by
  have keepsMem {r : Res Unit} (hr : r.KeepsMem s) (h : r.outcome = .next t) : t.mem = s.mem := by
    rcases Res.outcome_eq_next.mp h with h | h <;> rw [h] at hr
    · exact hr.1
    · exact hr
  rw [exec_eq_body] at h
  cases i
  case store | call | push | softwareInterrupt => simp [opcodeOf, encode] at hop
  case loadAddr | loadIdxX | loadIdxY | loadSpX => exact keepsMem (loadAc_keepsMem q _) h
  case loadInd n => exact keepsMem ((memRead_keepsMem q n).bind fun b _ hq => loadAc_keepsMem hq b) h
  case ret => exact keepsMem ((pop_keepsMem q).bind (k := fun v t => .ok () (t.setPc v)) fun _ _ hq => ⟨rfl, hq⟩) h
  case pop => exact keepsMem ((pop_keepsMem q).bind (k := fun v t => .ok () (t.setAc v)) fun _ _ hq => ⟨rfl, hq⟩) h
  case returnFromInterrupt => exact keepsMem (returnFromHandler_keepsMem q) h
  case terminate =>
    rcases Res.outcome_eq_next.mp h with h | h
    · obtain ⟨_, v, hsend, hhalt⟩ := Res.bind_eq_ok.mp h
      cases hhalt
      have hm : v.mem = s.mem := sendTerminate_mem q hsend
      exact hm
    · rcases Res.bind_eq_stuck.mp h with h | ⟨_, _, -, h⟩
      · exact absurd h sendTerminate_not_stuck
      · cases h
  all_goals cases h; rfl

end Quiet

/-! ### The registers of the frame -/

section Frame
variable {op : Word} {s t : State} (w : WrittenByOpcode op s t)
include w

theorem WrittenByOpcode.ac_eq (h : op ∉ acWriters) :
    t.ac = s.ac := not_not.mp (mt w.ac h)

theorem WrittenByOpcode.x_eq (h : op ∉ xWriters) : t.x = s.x := not_not.mp (mt w.x h)

theorem WrittenByOpcode.y_eq (h : op ≠ 16) : t.y = s.y := not_not.mp (mt w.y h)

theorem WrittenByOpcode.sp_eq (h : op ∉ spWriters) : t.sp = s.sp :=
  not_not.mp (mt w.sp h)

theorem WrittenByOpcode.pc_eq (h : op ∉ pcWriters) : t.pc = s.pc :=
  not_not.mp (mt w.pc h)

theorem WrittenByOpcode.kernel_eq (h : op ∉ kernelWriters) : t.kernel = s.kernel := not_not.mp (mt w.kernel h)

theorem WrittenByOpcode.output_eq (h : op ≠ 9) : t.output = s.output := not_not.mp (mt w.output h)

end Frame

/-- Settles O49: the array (`exec_next_mem`), what no instruction changes (`exec_next`), and each register outside the
groups whose opcodes write it (`exec_next_writtenBy`). -/
theorem nonStoringFrame : Obligations.NonStoringFrame := by
  intro i s t q h hop
  have w := exec_next_writtenBy h
  obtain ⟨frame, -⟩ := exec_next h
  refine ⟨fun a => by rw [exec_next_mem q h hop], frame.ir, frame.timerElapsed, frame.timerLimit, frame.timerCount,
    frame.params, fun hi => ?acAlone, fun hi => ?jump, fun hi => ?pop, fun hi => ?ret, fun hi => ?returnFromInterrupt⟩
  case acAlone =>
    have apart : ∀ op ∈ ([1, 2, 3, 4, 5, 6, 8, 10, 11, 12, 13, 15, 17, 19] : List Word),
        op ∉ pcWriters ∧ op ∉ spWriters ∧
        op ∉ xWriters ∧ op ≠ 16 ∧ op ∉ kernelWriters ∧ op ≠ 9 := by simp
    obtain ⟨pc, sp, x, y, kernel, output⟩ := apart _ hi
    exact ⟨w.pc_eq pc, w.sp_eq sp, w.x_eq x, w.y_eq y, w.kernel_eq kernel, w.output_eq output⟩
  case jump =>
    have apart : ∀ op ∈ ([20, 21, 22] : List Word), op ∉ spWriters ∧
        op ∉ acWriters ∧
        op ∉ xWriters ∧ op ≠ 16 ∧ op ∉ kernelWriters ∧ op ≠ 9 := by simp
    obtain ⟨sp, ac, x, y, kernel, output⟩ := apart _ hi
    exact ⟨w.sp_eq sp, w.ac_eq ac, w.x_eq x, w.y_eq y, w.kernel_eq kernel, w.output_eq output⟩
  case pop =>
    rw [hi] at w
    exact ⟨w.pc_eq (by decide), w.x_eq (by decide), w.y_eq (by decide), w.kernel_eq (by decide),
      w.output_eq (by decide)⟩
  case ret =>
    rw [hi] at w
    exact ⟨w.ac_eq (by decide), w.x_eq (by decide), w.y_eq (by decide), w.kernel_eq (by decide),
      w.output_eq (by decide)⟩
  case returnFromInterrupt =>
    rw [hi] at w
    exact ⟨w.ac_eq (by decide), w.x_eq (by decide), w.y_eq (by decide), w.output_eq (by decide)⟩

/-! ### The instructions that store one word -/

/-- `i` stores one word, at `addr` (R79, R91, R114). -/
def StoresAt (i : Instr) (s : State) (addr : Word) : Prop :=
  (∃ n, i = .store n ∧ addr = absoluteAddr n s) ∨ (∃ a, i = .call a ∧ addr = s.sp - 1) ∨
    (i = .push ∧ addr = s.sp - 1)

theorem push_quiet_other {s t : State} {v : Word} {u : Unit} (q : Quiet s) (h : push v s = .ok u t) {b : Nat}
    (hb : b ≠ (s.sp - 1).toNat) : Memory.read t.mem b = Memory.read s.mem b :=
  memWrite_quiet_other (s := s.setSp (s.sp - 1)) q h hb

/-- The one access of such an instruction: its address passed the checks, and every other word is unchanged. -/
theorem StoresAt.exec_next {i : Instr} {s t : State} {addr : Word} (hi : StoresAt i s addr) (q : Quiet s)
    (h : exec i s = .next t) :
    Accessible s addr ∧ ∀ b : Nat, b ≠ addr.toNat → Memory.read t.mem b = Memory.read s.mem b := by
  rcases hi with ⟨n, rfl, rfl⟩ | ⟨a, rfl, rfl⟩ | ⟨rfl, rfl⟩
  · rcases Res.outcome_eq_next.mp h with h | h
    · exact ⟨(memWrite_ok h).2.1, fun b hb => memWrite_quiet_other q h hb⟩
    · exact absurd h memWrite_not_stuck
  · rcases Res.outcome_eq_next.mp h with h | h
    · obtain ⟨_, v, hpush, hjump⟩ := Res.bind_eq_ok.mp h
      cases hjump
      exact ⟨(push_ok hpush).2.1, fun b hb => push_quiet_other q hpush hb⟩
    · rcases Res.bind_eq_stuck.mp h with h | ⟨_, _, -, h⟩
      · exact absurd h push_not_stuck
      · cases h
  · rcases Res.outcome_eq_next.mp h with h | h
    · exact ⟨(push_ok h).2.1, fun b hb => push_quiet_other q h hb⟩
    · exact absurd h push_not_stuck

theorem StoresAt.opcode {i : Instr} {s : State} {addr : Word} (hi : StoresAt i s addr) :
    opcodeOf i ∈ ([7, 23, 27] : List Word) := by
  rcases hi with ⟨n, rfl, -⟩ | ⟨a, rfl, -⟩ | ⟨rfl, -⟩ <;> simp [opcodeOf, encode]

theorem exec_push_sp {s t : State} (h : exec .push s = .next t) : t.sp = s.sp - 1 := by
  rcases Res.outcome_eq_next.mp h with h | h
  · exact (push_ok h).1.1.sp
  · exact absurd h push_not_stuck

/-- Settles O50: the one word stored (`StoresAt.exec_next`), and the registers by opcode (`exec_next_writtenBy`). -/
theorem storingFrame : Obligations.StoringFrame := by
  intro i s t addr q h hi
  have hi : StoresAt i s addr := hi
  have w := exec_next_writtenBy h
  obtain ⟨frame, -⟩ := exec_next h
  have apart : ∀ op ∈ ([7, 23, 27] : List Word),
      op ∉ acWriters ∧ op ∉ xWriters ∧
      op ≠ 16 ∧ op ∉ kernelWriters ∧ op ≠ 9 := by simp
  obtain ⟨ac, x, y, kernel, output⟩ := apart _ hi.opcode
  refine ⟨(hi.exec_next q h).2, w.ac_eq ac, w.x_eq x, w.y_eq y, frame.ir, w.kernel_eq kernel, frame.timerElapsed,
    frame.timerLimit, frame.timerCount, w.output_eq output, frame.params, fun hstore => ?store, fun hpush => ?push⟩
  case store =>
    obtain ⟨n, rfl⟩ := hstore
    have h7 : opcodeOf (.store n) = 7 := rfl
    rw [h7] at w
    exact ⟨w.sp_eq (by decide), w.pc_eq (by decide)⟩
  case push =>
    subst hpush
    have h27 : opcodeOf .push = 27 := rfl
    rw [h27] at w
    exact ⟨w.pc_eq (by decide), exec_push_sp h⟩

/-! ### System space -/

/-- The instructions by what they store: nothing, one word at an address, or an interrupt's two words. -/
theorem stores_cases (i : Instr) (s : State) :
    opcodeOf i ∉ ([7, 23, 27, 29] : List Word) ∨ (∃ addr, StoresAt i s addr) ∨ i = .softwareInterrupt := by
  cases i
  case store n => exact .inr (.inl ⟨_, .inl ⟨n, rfl, rfl⟩⟩)
  case call a => exact .inr (.inl ⟨_, .inr (.inl ⟨a, rfl, rfl⟩)⟩)
  case push => exact .inr (.inl ⟨_, .inr (.inr ⟨rfl, rfl⟩)⟩)
  case softwareInterrupt => exact .inr (.inr rfl)
  all_goals exact .inl (by simp [opcodeOf, encode])

/-- In user mode opcode 29 enters kernel mode. -/
theorem exec_softwareInterrupt_kernel {s t : State} (hk : s.kernel = false) (h : exec .softwareInterrupt s = .next t) :
    t.kernel = true := by
  rcases Res.outcome_eq_next.mp h with h | h
  · rcases interrupt_ok h with ⟨hk', -⟩ | ⟨-, ⟨f, -⟩, -⟩
    · rw [hk] at hk'; cases hk'
    · exact f.kernel
  · exact absurd h interrupt_not_stuck

/-- An instruction that stays in user mode leaves system space: the only word it can store to is accessible. -/
theorem exec_user_systemMem {i : Instr} {s t : State} (q : Quiet s) (hk : s.kernel = false) (h : exec i s = .next t)
    (ht : t.kernel = false) {a : Nat} (ha : s.params.sysBase ≤ a) : Memory.read t.mem a = Memory.read s.mem a := by
  rcases stores_cases i s with hop | ⟨addr, hstore⟩ | rfl
  · rw [exec_next_mem q h hop]
  · obtain ⟨acc, others⟩ := hstore.exec_next q h
    have hlt := acc.toNat_lt_sysBase hk
    exact others a (by omega)
  · rw [exec_softwareInterrupt_kernel hk h] at ht
    cases ht

@[simp] theorem tick_mem (s : State) : (tick s).mem = s.mem := by
  unfold tick; split <;> rfl

@[simp] theorem tick_kernel (s : State) : (tick s).kernel = s.kernel := by
  unfold tick; split <;> rfl

@[simp] theorem tick_ir (s : State) : (tick s).ir = s.ir := by
  unfold tick; split <;> rfl

theorem decodeIr_ok_kernel {s t : State} {d : Option Instr} (h : decodeIr s = .ok d t) : t.kernel = s.kernel := by
  rcases decodeIr_ok h with ⟨-, -, rfl⟩ | ⟨-, v, r, hr, -, rfl⟩
  · rfl
  · exact (memRead_ok hr).1.1.kernel

theorem decodeIr_ok_quiet {s t : State} {d : Option Instr} (q : Quiet s) (h : decodeIr s = .ok d t) :
    t.mem = s.mem ∧ Quiet t := by
  rcases decodeIr_ok h with ⟨-, -, rfl⟩ | ⟨-, v, r, hr, -, rfl⟩
  · exact ⟨rfl, q⟩
  · obtain ⟨hm, hq⟩ := memRead_quiet_keeps q hr
    exact ⟨hm, hq⟩

/-- Settles O54: with no timer event the reads of the step leave the array, the mode and the parameters, and the
instruction leaves system space (`exec_user_systemMem`). -/
theorem userStepLeavesSystemMemory : Obligations.UserStepLeavesSystemMemory := by
  intro s t q hk hn h ht a ha
  obtain ⟨-, s', hp, hread⟩ := step_next h
  rw [timerPhase_none (noTimerEvent_of_not_taken hk hn)] at hp
  cases hp
  rcases hread with hs | ⟨w, b, hm, hs | ⟨d, c, r, hd, hx, rfl⟩⟩
  · rw [memRead_quiet_stuck q hs]
  · obtain ⟨hb, qb⟩ := memRead_quiet_keeps q hm
    rw [memRead_quiet_stuck (s := fetched b w) qb hs, fetched_mem, hb]
  · obtain ⟨hb, qb⟩ := memRead_quiet_keeps q hm
    obtain ⟨hc, qc⟩ := decodeIr_ok_quiet (s := fetched b w) qb hd
    have opcode := (memRead_ok hm).1.1
    obtain ⟨operand, -⟩ := decodeIr_ok_frame hd
    have hck : c.kernel = false := (decodeIr_ok_kernel hd).trans (opcode.kernel.trans hk)
    have hcp : c.params = s.params := operand.params.trans opcode.params
    have hcm : c.mem = s.mem := hc.trans hb
    rw [tick_kernel] at ht
    rw [tick_mem, ← hcm]
    cases d with
    | none => cases hx; rfl
    | some i => exact exec_user_systemMem qc hck hx ht (hcp ▸ ha)

/-! ### The mode -/

/-- Only opcode 29 sets `kernel` and only opcode 30 clears it. -/
theorem exec_next_kernel {i : Instr} {s t : State} (h : exec i s = .next t) :
    t.kernel = s.kernel ∨ (i = .softwareInterrupt ∧ t.kernel = true) ∨
      (i = .returnFromInterrupt ∧ t.kernel = false) := by
  obtain ⟨r, hw, f⟩ := exec_next_writes h
  rw [f.kernel]
  cases i
  case softwareInterrupt =>
    obtain ⟨_, _, _, rfl, hk | hk⟩ := hw
    · exact .inl hk
    · exact .inr (.inl ⟨rfl, hk⟩)
  case returnFromInterrupt =>
    obtain ⟨_, _, _, rfl, hk | hk⟩ := hw
    · exact .inl hk
    · exact .inr (.inr ⟨rfl, hk⟩)
  all_goals exact .inl (not_not.mp (mt hw.byOpcode.kernel (by simp [opcodeOf, encode])))

/-- `IR` after a completed step is the opcode of the instruction performed. -/
theorem decodeIr_some_opcode {s t : State} {i : Instr} (h : decodeIr s = .ok (some i) t) : opcodeOf i = s.ir := by
  rcases decodeIr_ok h with ⟨-, hd, -⟩ | ⟨-, v, r, -, hd, -⟩ <;> exact opcodeOf_of_decodeInstr hd.symm

/-- The mode over a step: the timer's entry, then opcode 29 or opcode 30. -/
theorem step_next_kernel {s t : State} (h : step s = .next t) :
    TimerTaken s ∨ t.kernel = s.kernel ∨ (t.ir = 29 ∧ t.kernel = true) ∨ (t.ir = 30 ∧ t.kernel = false) := by
  obtain ⟨-, a, hp, hread⟩ := step_next h
  obtain ⟨-, ⟨taken, -⟩ | ⟨-, -, hak, -⟩⟩ := timerPhase_ok hp
  · exact .inl taken
  refine .inr ?_
  rcases hread with hs | ⟨w, b, hm, hs | ⟨d, c, r, hd, hx, rfl⟩⟩
  · exact .inl ((memRead_stuck hs).1.kernel.trans hak)
  · exact .inl ((memRead_stuck hs).1.kernel.trans ((memRead_ok hm).1.1.kernel.trans hak))
  · have hck : c.kernel = s.kernel := (decodeIr_ok_kernel hd).trans ((memRead_ok hm).1.1.kernel.trans hak)
    rw [tick_kernel, tick_ir, ← hck]
    cases d with
    | none => cases hx; exact .inl rfl
    | some i =>
      have hir : r.ir = opcodeOf i :=
        ((exec_next hx).1.ir.trans (decodeIr_ok_frame hd).1.ir).trans (decodeIr_some_opcode hd).symm
      rcases exec_next_kernel hx with hk | ⟨rfl, hk⟩ | ⟨rfl, hk⟩
      · exact .inl hk
      · exact .inr (.inl ⟨hir, hk⟩)
      · exact .inr (.inr ⟨hir, hk⟩)

/-- Settles O45: a step that changes the mode is one of the three of `step_next_kernel`. -/
theorem kernelChangesOnlyByEntryAndReturn : Obligations.KernelChangesOnlyByEntryAndReturn := by
  intro s t h
  have mode := step_next_kernel h
  constructor
  · intro hs ht
    rcases mode with taken | hk | ⟨hir, -⟩ | ⟨-, hk⟩
    · exact .inl taken
    · rw [hs, ht] at hk; cases hk
    · exact .inr hir
    · rw [ht] at hk; cases hk
  · intro hs ht
    rcases mode with ⟨hk, -⟩ | hk | ⟨-, hk⟩ | ⟨hir, -⟩
    · rw [hs] at hk; cases hk
    · rw [hs, ht] at hk; cases hk
    · rw [ht] at hk; cases hk
    · exact hir

end Sys2Proof.Machine
end

section
/-! PROOFS. The timer interrupt over a step (spec/60_exceptions.md R124 to R126, R130, R136). -/

namespace Sys2Proof.Machine

/-! ### A step from the state after its timer phase -/

theorem step_eq_of_timerPhase_eq {s u : State} (hs : s.cpu = .running) (hu : u.cpu = .running)
    (h : timerPhase s = timerPhase u) : step s = step u := by
  rw [step_running hs, step_running hu, h]

theorem reloadTimer_elapsed_iff {s : State} :
    (reloadTimer s).timerElapsed = true ↔ s.timerCount.toInt ≤ 0 ∨ s.timerElapsed = true := by
  rcases reloadTimer_cases s with ⟨hcount, e⟩ | ⟨hcount, e⟩ <;> rw [e]
  · exact iff_of_true rfl (.inl hcount)
  · exact ⟨.inr, fun h => h.resolve_left (by omega)⟩

/-- A timer interrupt taken on a channel at rest enters the handler from the reloaded state (R76, R124). -/
theorem timerPhase_taken {s : State} (hl : Linked s) (hw : s.params.WellFormed) (ht : TimerTaken s) :
    timerPhase s = .ok () (entered .timer (reloadTimer s)) := by
  obtain ⟨hk, hdue⟩ := ht
  rw [timerPhase, if_pos (reloadTimer_elapsed_iff.mpr hdue)]
  rcases reloadTimer_cases s with ⟨-, e⟩ | ⟨-, e⟩ <;> rw [e]
  · exact interrupt_linked (s := (s.setTimerCount s.timerLimit).setTimerElapsed true) hl hw hk .timer
  · exact interrupt_linked hl hw hk .timer

/-- The state in which the handler's first instruction is fetched. -/
def handlerStart (s : State) : State :=
  (stored (s.params.sysStackBase - 2) s.pc (stored (s.params.sysStackBase - 1) s.sp
    ((((s.setKernel true).setTimerElapsed false).setTimerCount
      (if s.timerCount.toInt ≤ 0 then s.timerLimit else s.timerCount)).setSp
        (s.params.sysStackBase - 2)))).setPc s.params.timerVec

@[simp] theorem handlerStart_cpu (s : State) : (handlerStart s).cpu = s.cpu := by simp [handlerStart]

@[simp] theorem handlerStart_params (s : State) : (handlerStart s).params = s.params := by simp [handlerStart]

@[simp] theorem handlerStart_pc (s : State) : (handlerStart s).pc = s.params.timerVec := by simp [handlerStart]

@[simp] theorem handlerStart_kernel (s : State) : (handlerStart s).kernel = true := by simp [handlerStart]

@[simp] theorem handlerStart_timerLimit (s : State) : (handlerStart s).timerLimit = s.timerLimit := by
  simp [handlerStart]

@[simp] theorem handlerStart_timerCount (s : State) :
    (handlerStart s).timerCount = if s.timerCount.toInt ≤ 0 then s.timerLimit else s.timerCount := by
  simp [handlerStart]

theorem handlerStart_linked {s : State} (h : Linked s) : Linked (handlerStart s) :=
  h.of_eq (by simp [handlerStart]) (by simp [handlerStart]) (by simp [handlerStart]) (by simp [handlerStart])

theorem entered_reloadTimer (s : State) : entered .timer (reloadTimer s) = handlerStart s := by
  rw [entered_timer, handlerStart]
  rcases reloadTimer_cases s with ⟨h, e⟩ | ⟨h, e⟩ <;> rw [e]
  · rw [if_pos h]
    rfl
  · rw [if_neg (by omega)]
    rfl

/-- The handler starts with no timer event: in kernel mode and with a countdown that has not run out. -/
theorem handlerStart_noTimerEvent {s : State} (hp : TimerPeriodOk s.timerLimit.toInt) : NoTimerEvent (handlerStart s) := by
  refine ⟨?_, .inl rfl⟩
  change 0 < (if s.timerCount.toInt ≤ 0 then s.timerLimit else s.timerCount).toInt
  split
  · exact hp.1
  · omega

/-- Settles O42: the timer phase enters the handler (`timerPhase_taken`), and does nothing in the state it enters. -/
theorem timerInterruptIsTaken : Obligations.TimerInterruptIsTaken := by
  intro s hr hl hw hp ht
  change step s = step (handlerStart s)
  refine step_eq_of_timerPhase_eq hr hr ?_
  rw [timerPhase_taken hl hw ht, entered_reloadTimer, timerPhase_none (handlerStart_noTimerEvent hp)]

/-! ### The pending bit -/

/-- The pending bit after a step: clear where the timer was taken, else set exactly where the fetch's reload left it
set. -/
theorem step_next_elapsed {s t : State} (h : step s = .next t) :
    (TimerTaken s ∧ t.timerElapsed = false) ∨
    (¬ TimerTaken s ∧ (t.timerElapsed = true ↔ s.timerCount.toInt ≤ 0 ∨ s.timerElapsed = true)) := by
  obtain ⟨a, hp, rest⟩ := step_next_phase h
  rw [rest.timerElapsed]
  obtain ⟨-, ⟨taken, -, ha, -⟩ | ⟨hnot, rfl, -⟩⟩ := timerPhase_ok hp
  · exact .inl ⟨taken, ha⟩
  · exact .inr ⟨hnot, reloadTimer_elapsed_iff⟩

/-- In kernel mode a pending timer interrupt stays pending. -/
theorem step_next_kernelPending {s t : State} (h : step s = .next t) (hk : s.kernel = true)
    (he : s.timerElapsed = true) : t.timerElapsed = true := by
  rcases step_next_elapsed h with ⟨⟨hu, -⟩, -⟩ | ⟨-, hiff⟩
  · rw [hk] at hu; cases hu
  · exact hiff.mpr (.inr he)

/-- Settles O43: the reload done once (`timerPhase_expired`), and the pending bit over a step (`step_next_elapsed`). -/
theorem pendingAndLostInterrupts : Obligations.PendingAndLostInterrupts := by
  refine ⟨fun s hr hk hp h => ?held, fun s t h hk he => step_next_kernelPending h hk he, fun s hk => ?lost,
    fun s t h he ht => ?cleared, fun s t h hk he ht => ⟨ht, .inr (step_next_kernelPending h hk he)⟩⟩
  case held => exact step_eq_of_timerPhase_eq hr hr (timerPhase_expired hp h)
  case lost => rw [exec_softwareInterrupt, interrupt_kernel hk, Res.outcome_ok]
  case cleared =>
    rcases step_next_elapsed h with ⟨taken, -⟩ | ⟨-, hiff⟩
    · exact taken
    · have hset : t.timerElapsed = true := hiff.mpr (.inr he)
      rw [ht] at hset; cases hset

theorem interruptState_iff {s : State} :
    (interruptState s = .user ↔ s.kernel = false ∧ s.timerElapsed = false) ∧
    (interruptState s = .userPending ↔ s.kernel = false ∧ s.timerElapsed = true) ∧
    (interruptState s = .kernelPending ↔ s.kernel = true ∧ s.timerElapsed = true) ∧
    (interruptState s = .kernel ↔ s.kernel = true ∧ s.timerElapsed = false) := by
  unfold interruptState
  cases s.kernel <;> cases s.timerElapsed <;> simp

/-- Settles O46: each state of the machine fixes the mode and the pending bit, and with them the case of
`step_next_elapsed`. -/
theorem pendingBitTransitions : Obligations.PendingBitTransitions := by
  intro s t h
  obtain ⟨user, userPending, kernelPending, kernel⟩ := interruptState_iff (s := s)
  refine ⟨fun hs => ?user, fun hs => ?userPending, fun hs => ?kernelPending, fun hs => ?kernel⟩
  case user =>
    obtain ⟨hk, he⟩ := user.mp hs
    rcases step_next_elapsed h with ⟨-, ht⟩ | ⟨hnot, hiff⟩
    · exact ht
    · refine Bool.eq_false_iff.mpr fun ht => ?_
      exact hnot ⟨hk, hiff.mp ht⟩
  case userPending =>
    obtain ⟨hk, he⟩ := userPending.mp hs
    rcases step_next_elapsed h with ⟨-, ht⟩ | ⟨hnot, -⟩
    · exact ht
    · exact absurd ⟨hk, .inr he⟩ hnot
  case kernelPending =>
    obtain ⟨hk, he⟩ := kernelPending.mp hs
    exact step_next_kernelPending h hk he
  case kernel =>
    obtain ⟨hk, he⟩ := kernel.mp hs
    rcases step_next_elapsed h with ⟨⟨hu, -⟩, -⟩ | ⟨-, hiff⟩
    · rw [hk] at hu; cases hu
    · rw [hiff, he]
      simp

/-! ### A one-instruction handler under period 1 -/

/-- A user state in which the timer is due at once, under period 1, and the handler is one opcode 30 (R136). -/
structure Reentrant (s : State) : Prop where
  running : s.cpu = .running
  linked : Linked s
  params : s.params.WellFormed
  mem : s.mem.wf
  user : s.kernel = false
  limit : s.timerLimit = 1
  count : s.timerCount = 0
  handler : wordAt s s.params.timerVec = 30
  notFirst : s.params.timerVec ≠ s.params.sysStackBase - 1
  notSecond : s.params.timerVec ≠ s.params.sysStackBase - 2

/-- What such a step leaves of the interrupted program. -/
structure NoProgress (s t : State) : Prop where
  pc : t.pc = s.pc
  sp : t.sp = s.sp
  ac : t.ac = s.ac
  x : t.x = s.x
  y : t.y = s.y
  output : t.output = s.output

theorem Reentrant.period {s : State} (h : Reentrant s) : TimerPeriodOk s.timerLimit.toInt := by
  rw [h.limit]
  decide

theorem Reentrant.due {s : State} (h : Reentrant s) : s.timerCount.toInt ≤ 0 := by
  rw [h.count]
  decide

theorem Reentrant.handler_kept {s : State} (h : Reentrant s) : wordAt (handlerStart s) s.params.timerVec = 30 :=
  (wordAt_stored_other h.notSecond _ _).trans ((wordAt_stored_other h.notFirst _ _).trans h.handler)

/-- The handler's entry, with the handler's word at `PC`. -/
theorem Reentrant.atOpcode {s : State} (h : Reentrant s) : AtOpcode (handlerStart s) 30 := by
  obtain ⟨-, ⟨⟨vec0, vec1⟩, -⟩, -⟩ := id h.params
  refine ⟨?cpu, handlerStart_linked h.linked, handlerStart_noTimerEvent h.period, ?inArray, ?word⟩
  case cpu => rw [handlerStart_cpu]; exact h.running
  case inArray =>
    rw [handlerStart_pc, Accessible, handlerStart_params, handlerStart_kernel]
    exact ⟨by omega, vec1, .inl rfl⟩
  case word => rw [handlerStart_pc]; exact h.handler_kept

/-- The state after the timer's entry and the return from it. -/
def returned (s : State) : State := (((fetched (handlerStart s) 30).setPc s.pc).setSp s.sp).setKernel false

/-- The same after the tick. -/
def reentered (s : State) : State := (returned s).setTimerCount 0

theorem Reentrant.return_eq {s : State} (h : Reentrant s) :
    exec .returnFromInterrupt (fetched (handlerStart s) 30) = .next (returned s) := by
  refine exec_return_entered (cause := .timer) h.params h.mem ?linked ?kernel ?sp ?mem ?params
  case linked => exact (handlerStart_linked h.linked).of_eq rfl rfl rfl rfl
  case kernel => rw [fetched_kernel, handlerStart_kernel]
  case sp => rw [fetched_sp, entered_timer]; simp [handlerStart]
  case mem => rw [fetched_mem, entered_timer]; simp [handlerStart]
  case params => rw [fetched_params, handlerStart_params]

/-- The countdown, reloaded to the period 1, is 0 again after the tick. -/
theorem Reentrant.tick_eq {s : State} (h : Reentrant s) : tick (returned s) = reentered s := by
  have hcount : (returned s).timerCount = 1 := by simp [returned, h.due, h.limit]
  have hcpu : (returned s).cpu = .running := by simp [returned, h.running]
  rw [tick_of_not_stuck (by rw [hcpu]; exact nofun), hcount]
  rfl

theorem Reentrant.step_eq {s : State} (h : Reentrant s) : step s = .next (reentered s) := by
  have runs : RunsOneWord 30 .returnFromInterrupt := runsOneWord_of_decodeInstr rfl rfl
  calc step s = step (handlerStart s) :=
        timerInterruptIsTaken s h.running h.linked h.params h.period ⟨h.user, .inl h.due⟩
    _ = finish (exec .returnFromInterrupt (fetched (handlerStart s) 30)) := runs _ h.atOpcode
    _ = .next (reentered s) := by rw [h.return_eq, finish, h.tick_eq]

theorem reentered_mem (s : State) : (reentered s).mem = (handlerStart s).mem := by simp [reentered, returned]

theorem reentered_params (s : State) : (reentered s).params = s.params := by simp [reentered, returned]

theorem Reentrant.again {s : State} (h : Reentrant s) : Reentrant (reentered s) where
  running := by simp [reentered, returned, h.running]
  linked := (handlerStart_linked h.linked).of_eq (by simp [reentered, returned]) (by simp [reentered, returned])
    (by simp [reentered, returned]) (by simp [reentered, returned])
  params := by rw [reentered_params]; exact h.params
  mem := by
    rw [reentered_mem]
    exact Memory.write_wf (Memory.write_wf h.mem _ _) _ _
  user := by simp [reentered, returned]
  limit := by simp [reentered, returned, h.limit]
  count := by simp [reentered]
  handler := by
    rw [wordAt, reentered_mem, reentered_params]
    exact h.handler_kept
  notFirst := by rw [reentered_params]; exact h.notFirst
  notSecond := by rw [reentered_params]; exact h.notSecond

theorem reentered_noProgress (s : State) : NoProgress s (reentered s) := by
  constructor <;> simp [reentered, returned, handlerStart]

theorem NoProgress.trans {s t u : State} (h : NoProgress s t) (k : NoProgress t u) : NoProgress s u :=
  ⟨k.pc.trans h.pc, k.sp.trans h.sp, k.ac.trans h.ac, k.x.trans h.x, k.y.trans h.y, k.output.trans h.output⟩

theorem run_succ_of_step {M : Host.Core} {s t : M.State} (h : M.step s = .next t) (k : Nat) :
    M.run (k + 1) s = M.run k t := by
  simp only [Host.Core.run, h]

/-- Any number of such steps. -/
theorem Reentrant.run {s : State} (h : Reentrant s) (k : Nat) :
    ∃ t, core.run k s = .next t ∧ Reentrant t ∧ NoProgress s t := by
  induction k generalizing s with
  | zero => exact ⟨s, rfl, h, ⟨rfl, rfl, rfl, rfl, rfl, rfl⟩⟩
  | succ k ih =>
    obtain ⟨t, hrun, ht, still⟩ := ih h.again
    exact ⟨t, (run_succ_of_step (M := core) h.step_eq k).trans hrun, ht, (reentered_noProgress s).trans still⟩

/-- Settles O44: a step from such a state answers one, with the program where it was (`Reentrant.run`). -/
theorem timerReentryMakesNoProgress : Obligations.TimerReentryMakesNoProgress := by
  intro s k hr hl hw hm hk hlimit hcount hword h1 h2
  have start : Reentrant s := ⟨hr, hl, hw, hm.1.1, hk, hlimit, hcount, hword, h1, h2⟩
  obtain ⟨t, hrun, ht, still⟩ := start.run k
  exact ⟨t, hrun, ht.running, ht.user, still.pc, still.sp, still.ac, still.x, still.y, ht.count, still.output⟩

end Sys2Proof.Machine
end

section
/-! PROOFS. The cause of a fault (spec/60_exceptions.md R137 to R144). -/

namespace Sys2Proof.Machine

/-- The causes of a fault, told from the state in which an operation began (R138, R139, R140, R142). -/
def HasCause (s : State) (r : FaultReport) : Prop :=
  (∃ a kind pc, r = .accessViolation a kind pc ∧ s.kernel = false ∧ (s.params.sysBase : Int) ≤ a.toInt) ∨
  (∃ a kind pc, r = .addressRange a kind pc ∧ (a.toInt < 0 ∨ (s.params.memWords : Int) ≤ a.toInt) ∧
    (kind = .read → a ≠ Config.sentinel)) ∨
  (s.params.channelFails = true ∧ ((∃ a, r = .channelReadError a) ∨ ∃ m, r = .channelWriteError m))

theorem AccessFault.hasCause {s : State} {a : Word} {kind : AccessKind} {r : FaultReport}
    (h : AccessFault s a kind r) : HasCause s r := by
  rcases h with ⟨rfl, hk, hbase⟩ | ⟨rfl, ⟨-, hrange⟩, hread⟩ | ⟨hc, rfl | ⟨m, rfl⟩⟩
  · exact .inl ⟨_, _, _, rfl, hk, hbase⟩
  · exact .inr (.inl ⟨_, _, _, rfl, hrange, hread⟩)
  · exact .inr (.inr ⟨hc, .inl ⟨_, rfl⟩⟩)
  · exact .inr (.inr ⟨hc, .inr ⟨_, rfl⟩⟩)

/-- A cause found later holds from the start where the mode found later was user mode from the start. -/
theorem HasCause.of_later {s t : State} {r : FaultReport} (h : HasCause t r) (hp : t.params = s.params)
    (hk : t.kernel = false → s.kernel = false) : HasCause s r := by
  unfold HasCause at h ⊢
  rw [hp] at h
  rcases h with ⟨a, kind, pc, hr, hu, hbase⟩ | h | h
  · exact .inl ⟨a, kind, pc, hr, hk hu, hbase⟩
  · exact .inr (.inl h)
  · exact .inr (.inr h)

/-- Every fault of the operation, begun in `s`, has a cause there; where it goes on, the parameters and the mode are
kept. -/
def Res.Causes {α : Type} (s : State) : Res α → Prop
  | .ok _ t => t.params = s.params ∧ t.kernel = s.kernel
  | .fault r _ => HasCause s r
  | .stuck _ => True

theorem Res.Causes.bind {α β : Type} {s : State} {r : Res α} {k : α → State → Res β} (h : r.Causes s)
    (hk : ∀ v t, (k v t).Causes t) : (r.bind k).Causes s := by
  cases r with
  | fault f t => exact h
  | stuck t => trivial
  | ok v t =>
    obtain ⟨hp, hkernel⟩ := h
    have hkv := hk v t
    rw [Res.bind_ok]
    cases hr : k v t with
    | stuck u => trivial
    | ok w u => rw [hr] at hkv; exact ⟨hkv.1.trans hp, hkv.2.trans hkernel⟩
    | fault f u => rw [hr] at hkv; exact HasCause.of_later hkv hp fun hu => hkernel.symm.trans hu

theorem memRead_causes (a : Word) (s : State) : (memRead a s).Causes s := by
  cases h : memRead a s with
  | stuck t => trivial
  | ok v t => exact ⟨(memRead_ok h).1.1.params, (memRead_ok h).1.1.kernel⟩
  | fault r t => exact (memRead_fault h).2.2.hasCause

theorem push_causes (v : Word) (s : State) : (push v s).Causes s := by
  cases h : push v s with
  | stuck t => trivial
  | ok u t => exact ⟨(push_ok h).1.1.params, (push_ok h).1.1.kernel⟩
  | fault r t => exact (push_fault h).hasCause

theorem pop_causes (s : State) : (pop s).Causes s := (memRead_causes s.sp s).bind fun _ _ => ⟨rfl, rfl⟩

theorem loadAc_causes (a : Word) (s : State) : (loadAc a s).Causes s :=
  (memRead_causes a s).bind fun _ _ => ⟨rfl, rfl⟩

theorem readOpcode_causes (s : State) : (readOpcode s).Causes s :=
  (memRead_causes s.pc s).bind fun _ _ => ⟨rfl, rfl⟩

theorem decodeIr_causes (s : State) : (decodeIr s).Causes s := by
  cases h : decodeIr s with
  | stuck t => trivial
  | ok d t => exact ⟨(decodeIr_ok_frame h).1.params, decodeIr_ok_kernel h⟩
  | fault r t => exact (decodeIr_fault h).hasCause

/-- A fault of the interrupt sequence has a cause other than the privilege check, since its pushes are made in kernel
mode. -/
theorem AccessFault.hasCause_kernel {s u : State} {a : Word} {kind : AccessKind} {r : FaultReport}
    (h : AccessFault u a kind r) (hk : u.kernel = true) (hp : u.params = s.params) : HasCause s r :=
  h.hasCause.of_later hp fun hu => by rw [hk] at hu; cases hu

/-- Every fault of an instruction has a cause. -/
theorem exec_fault_hasCause {i : Instr} {s : State} {r : FaultReport} {t : State}
    (h : exec i s = .fault (.raised r t)) : HasCause s r := by
  have hasCause {x : Res Unit} (hx : x.Causes s) (h : x.outcome = .fault (.raised r t)) : HasCause s r := by
    obtain ⟨r', u, rfl, heq⟩ := Res.outcome_eq_fault.mp h
    cases heq
    exact hx
  rw [exec_eq_body] at h
  cases i
  case loadAddr | loadIdxX | loadIdxY | loadSpX => exact hasCause (loadAc_causes _ s) h
  case loadInd n => exact hasCause ((memRead_causes n s).bind loadAc_causes) h
  case store n =>
    obtain ⟨r', u, hfault, heq⟩ := Res.outcome_eq_fault.mp h
    cases heq
    exact (memWrite_fault hfault).2.2.hasCause
  case call a => exact hasCause ((push_causes _ s).bind (k := fun _ u => .ok () (u.setPc a)) fun _ _ => ⟨rfl, rfl⟩) h
  case push => exact hasCause (push_causes _ s) h
  case ret => exact hasCause ((pop_causes s).bind (k := fun v u => .ok () (u.setPc v)) fun _ _ => ⟨rfl, rfl⟩) h
  case pop => exact hasCause ((pop_causes s).bind (k := fun v u => .ok () (u.setAc v)) fun _ _ => ⟨rfl, rfl⟩) h
  case softwareInterrupt =>
    obtain ⟨r', u, hfault, heq⟩ := Res.outcome_eq_fault.mp h
    cases heq
    obtain ⟨v, a, hk, hp, cause, -⟩ := interrupt_fault hfault
    exact cause.hasCause_kernel hk hp
  case returnFromInterrupt =>
    obtain ⟨r', u, hfault, heq⟩ := Res.outcome_eq_fault.mp h
    cases heq
    obtain ⟨v, a, hk, hp, cause⟩ := returnFromHandler_fault hfault
    exact cause.hasCause.of_later hp fun hu => hk.symm.trans hu
  case terminate =>
    rw [← exec_eq_body] at h
    obtain ⟨hc, u, heq⟩ := exec_terminate_fault h
    cases heq
    exact .inr (.inr ⟨hc, .inr ⟨_, rfl⟩⟩)
  all_goals cases h

theorem finish_perform_fault {d : Option Instr} {s t : State} {r : FaultReport}
    (h : finish (perform d s) = .fault (.raised r t)) : HasCause s r := by
  cases d with
  | none => cases h
  | some i =>
    cases hx : exec i s with
    | next u => rw [perform, hx] at h; cases h
    | refused x => rw [perform, hx] at h; cases h
    | fault f =>
      rw [perform, hx] at h
      cases h
      exact exec_fault_hasCause hx

/-- A fault of a step has a cause, and an `AccessViolation` one in user mode with the timer not taken: from the entry on
the handler is in kernel mode. -/
theorem step_fault_hasCause {s t : State} {r : FaultReport} (h : step s = .fault (.raised r t)) :
    HasCause s r ∧ (TimerTaken s → ∀ a kind pc, r ≠ .accessViolation a kind pc) := by
  have hr : s.cpu = .running := by
    by_contra hne
    rw [stoppedCpuTakesNoStep s hne] at h
    cases h
  rw [step_running hr] at h
  have inKernel {u : State} (hu : HasCause u r) (hk : u.kernel = true) (a kind pc) : r ≠ .accessViolation a kind pc := by
    rintro rfl
    rcases hu with ⟨_, _, _, -, hku, -⟩ | ⟨_, _, _, heq, -⟩ | ⟨-, ⟨_, heq⟩ | ⟨_, heq⟩⟩
    · rw [hk] at hku; cases hku
    all_goals cases heq
  cases hp : timerPhase s with
  | stuck a => exact absurd hp timerPhase_not_stuck
  | fault f a =>
    rw [hp] at h
    cases h
    obtain ⟨u, b, hk, hparams, cause, -⟩ := timerPhase_fault hp
    exact ⟨cause.hasCause_kernel hk hparams, fun _ => inKernel cause.hasCause hk⟩
  | ok v a =>
    have later : HasCause a r := by
      rw [hp, Res.bind_ok] at h
      have front : ((readOpcode a).bind fun _ t => decodeIr t).Causes a :=
        (readOpcode_causes a).bind fun _ t => decodeIr_causes t
      cases hx : (readOpcode a).bind fun _ t => decodeIr t with
      | stuck u => rw [hx] at h; cases h
      | fault f u =>
        rw [hx] at h front
        cases h
        exact front
      | ok d u =>
        rw [hx] at h front
        exact (finish_perform_fault h).of_later front.1 fun hu => front.2.symm.trans hu
    obtain ⟨phase, ⟨taken, hk, -⟩ | ⟨hnot, -, hk, -⟩⟩ := timerPhase_ok hp
    · exact ⟨later.of_later phase.params fun _ => taken.1, fun _ => inKernel later hk⟩
    · exact ⟨later.of_later phase.params fun hu => hk.symm.trans hu, fun taken => absurd taken hnot⟩

/-- Settles O47: the run state that a fault leaves (`step_fault_keeps`) and its cause (`step_fault_hasCause`). -/
theorem faultsHaveTheirCause : Obligations.FaultsHaveTheirCause := by
  intro s f h
  obtain ⟨r, t, rfl, keeps⟩ := step_fault_keeps h
  refine ⟨r, t, rfl, keeps.cpu, ?_⟩
  obtain ⟨cause, notTaken⟩ := step_fault_hasCause h
  rcases cause with ⟨a, kind, pc, hr, hk, hbase⟩ | cause | cause
  · exact .inl ⟨a, kind, pc, hr, hk, fun taken => notTaken taken a kind pc hr, hbase⟩
  · exact .inr (.inl cause)
  · exact .inr (.inr cause)

end Sys2Proof.Machine
end

section
/-! PROOFS. The program image and the launch (spec/20_memory.md R63 to R65, spec/70_reset_and_hazards.md R151,
R152). -/

namespace Sys2Proof.Machine

/-! ### The lines of an image -/

theorem digitValue_dot : digitValue '.' = none := by decide

theorem readDigits_cons {c : Char} {d : Nat} (h : digitValue c = some d) (cs : List Char) (acc : Nat) :
    readDigits (c :: cs) acc = readDigits cs (10 * acc + d) := by
  simp only [readDigits, h]

/-- Reading stops where no digit follows. -/
theorem readDigits_stop {rest : List Char} (h : ∀ c, rest.head? = some c → digitValue c = none) (acc : Nat) :
    readDigits rest acc = acc := by
  cases rest with
  | nil => rfl
  | cons c cs => simp only [readDigits, h c rfl]

/-- A line that begins with the run `ds` of digits: its first digit, and the number that is read from there. -/
theorem digits_line {ds rest : List Char} (hds : ∀ c ∈ ds, (digitValue c).isSome = true) (hne : ds ≠ [])
    (hrest : ∀ c, rest.head? = some c → digitValue c = none) :
    ∃ c cs d, ds ++ rest = c :: cs ∧ digitValue c = some d ∧ readDigits cs d = readDigits ds 0 := by
  obtain ⟨c, cs, rfl⟩ := List.exists_cons_of_ne_nil hne
  obtain ⟨d, hd⟩ := Option.isSome_iff_exists.mp (hds c (by simp))
  refine ⟨c, cs ++ rest, d, rfl, hd, ?_⟩
  rw [readDigits_append (fun e he => hds e (by simp [he])), readDigits_stop hrest, readDigits_cons hd, Nat.mul_zero,
    Nat.zero_add]

theorem parseLine_index {ds rest : List Char} (hds : ∀ c ∈ ds, (digitValue c).isSome = true) (hne : ds ≠ [])
    (hrest : ∀ c, rest.head? = some c → digitValue c = none) :
    parseLine ('.' :: (ds ++ rest)) = .setIndex (readDigits ds 0) := by
  obtain ⟨c, cs, d, hline, hd, hread⟩ := digits_line hds hne hrest
  simp only [parseLine, digitValue_dot, if_pos, hline, hd, hread]

theorem parseLine_word {ds rest : List Char} (hds : ∀ c ∈ ds, (digitValue c).isSome = true) (hne : ds ≠ [])
    (hrest : ∀ c, rest.head? = some c → digitValue c = none) : parseLine (ds ++ rest) = .word (readDigits ds 0) := by
  obtain ⟨c, cs, d, hline, hd, hread⟩ := digits_line hds hne hrest
  simp only [parseLine, hline, hd, hread]

theorem parseLine_ignored {rest : List Char} (hrest : ∀ c, rest.head? = some c → digitValue c = none)
    (hdot : rest.head? ≠ some '.') : parseLine rest = .ignored := by
  cases rest with
  | nil => rfl
  | cons c cs =>
    have hc : c ≠ '.' := fun h => hdot (congrArg some h)
    simp only [parseLine, hrest c rfl, if_neg hc]

/-- Settles O59: the directive of each kind of line (`parseLine_index`, `parseLine_word`, `parseLine_ignored`), and what
`loadLines` makes of it. -/
theorem imageLinesPlaceWords : Obligations.ImageLinesPlaceWords := by
  intro p ds rest lines index m hds hne hrest
  have word : parseLine (ds ++ rest) = .word (readDigits ds 0) := parseLine_word hds hne hrest
  refine ⟨?index, fun hindex hmax => ?word, fun hindex => ?past, fun hdot => ?ignored⟩
  case index => simp only [loadLines, parseLine_index hds hne hrest]
  case word => simp only [loadLines, word, if_pos (And.intro hindex hmax)]
  case past =>
    have hlt : ¬ index < p.memWords := by omega
    simp only [loadLines, word, hlt, false_and, if_false]
  case ignored => simp only [loadLines, parseLine_ignored hrest hdot]

/-! ### What loading an image keeps -/

/-- A property of the memory that every placement of a word keeps holds of the memory loaded. -/
theorem loadLines_keeps {p : Params} {P : Memory → Prop}
    (hwrite : ∀ m index (n : Nat), index < p.memWords → (n : Int) ≤ Word.maxInt → P m →
      P (Memory.write m index (BitVec.ofNat 32 n)))
    {lines : List (List Char)} {index : Nat} {m m' : Memory} (h : loadLines p lines index m = some m') (hm : P m) :
    P m' := by
  induction lines generalizing index m with
  | nil => cases h; exact hm
  | cons line lines ih =>
    simp only [loadLines] at h
    split at h
    · exact ih h hm
    · split at h
      · rename_i hplace
        exact ih h (hwrite _ _ _ hplace.1 hplace.2 hm)
      · cases h
    · exact ih h hm
    · cases h

/-- A cell at which no line places a word keeps its word. -/
theorem loadLines_read_other {p : Params} {lines : List (List Char)} {index a : Nat} {m m' : Memory}
    (h : loadLines p lines index m = some m') (ha : a ∉ wordIndexes lines index) :
    Memory.read m' a = Memory.read m a := by
  induction lines generalizing index m with
  | nil => cases h; rfl
  | cons line lines ih =>
    cases hline : parseLine line with
    | setIndex n =>
      simp only [loadLines, wordIndexes, hline] at h ha
      exact ih h ha
    | word n =>
      simp only [loadLines, wordIndexes, hline, List.mem_cons, not_or] at h ha
      split at h
      · rw [ih h ha.2, Memory.read_write_other ha.1]
      · cases h
    | ignored =>
      simp only [loadLines, wordIndexes, hline] at h ha
      exact ih h ha
    | unparsed => simp only [loadLines, hline] at h; cases h

/-- A number that is a positive word is no negative one (R64). -/
theorem toInt_ofNat_nonneg {n : Nat} (h : (n : Int) ≤ Word.maxInt) : 0 ≤ (BitVec.ofNat 32 n).toInt := by
  rw [Word.maxInt] at h
  rw [BitVec.toInt_ofNat', Int.bmod_eq_of_le (by omega) (by omega)]
  omega

/-- A canonical memory with no negative word (R64). -/
def NonNegative (m : Memory) : Prop := m.wf ∧ ∀ a, 0 ≤ (Memory.read m a).toInt

theorem NonNegative.write {m : Memory} (h : NonNegative m) (index : Nat) {v : Word} (hv : 0 ≤ v.toInt) :
    NonNegative (Memory.write m index v) := by
  obtain ⟨hwf, hread⟩ := h
  refine ⟨Memory.write_wf hwf index v, fun a => ?_⟩
  by_cases ha : a = index
  · rw [ha, Memory.read_write_same hwf]
    exact hv
  · rw [Memory.read_write_other ha]
    exact hread a

/-- Settles O60: every placement of a word keeps the memory free of negative ones. -/
theorem imageHoldsNoNegativeWord : Obligations.ImageHoldsNoNegativeWord := by
  intro p lines index m n hwf hread h
  have loaded : NonNegative n := loadLines_keeps (P := NonNegative)
    (fun m index k _ hk hm => hm.write index (toInt_ofNat_nonneg hk)) h ⟨hwf, hread⟩
  exact loaded.2

/-! ### The memory of the launch draws -/

theorem Memory.read_of_not_listed {m : Memory} {a : Nat} (h : ∀ p ∈ m, p.1 ≠ a) :
    Memory.read m a = Config.unlistedWord := by
  induction m with
  | nil => rfl
  | cons p m ih =>
    rw [Memory.read_cons, if_neg (h p (by simp))]
    exact ih fun q hq => h q (by simp [hq])

theorem Memory.read_of_listed {m : Memory} {a : Nat} {v : Word} (h : m.wf) (hm : (a, v) ∈ m) : Memory.read m a = v := by
  induction m with
  | nil => cases hm
  | cons p m ih =>
    rcases List.mem_cons.mp hm with rfl | hm
    · rw [Memory.read_cons, if_pos rfl]
    · have hlt : p.1 < a := (List.pairwise_cons.mp h.1).1 _ hm
      rw [Memory.read_cons, if_neg (by omega)]
      exact ih (Memory.wf_tail h) hm

theorem mem_drawnMemory {p : Params} {cell : Nat → Word} {c : Nat × Word} :
    c ∈ drawnMemory p cell ↔ c.1 < p.memWords ∧ c.2 = cell c.1 ∧ c.2 ≠ Config.unlistedWord := by
  obtain ⟨a, v⟩ := c
  simp only [drawnMemory, List.mem_filterMap, List.mem_range]
  constructor
  · rintro ⟨b, hb, h⟩
    split at h
    · cases h
    · cases h
      exact ⟨hb, rfl, ‹_›⟩
  · rintro ⟨ha, rfl, hne⟩
    exact ⟨a, ha, if_neg hne⟩

theorem drawnMemory_ok (p : Params) (cell : Nat → Word) : Memory.Ok p (drawnMemory p cell) := by
  refine ⟨⟨?rising, fun c hc => (mem_drawnMemory.mp hc).2.2⟩, fun c hc => (mem_drawnMemory.mp hc).1⟩
  case rising =>
    refine List.pairwise_filterMap.mpr (List.pairwise_lt_range.imp fun {a b} hab c hc d hd => ?_)
    split at hc <;> cases hc
    split at hd <;> cases hd
    exact hab

theorem read_drawnMemory {p : Params} {cell : Nat → Word} {a : Nat} (ha : a < p.memWords) :
    Memory.read (drawnMemory p cell) a = cell a := by
  by_cases hu : cell a = Config.unlistedWord
  · rw [hu]
    refine Memory.read_of_not_listed fun c hc hca => ?_
    obtain ⟨-, hword, hne⟩ := mem_drawnMemory.mp hc
    rw [hword, hca] at hne
    exact hne hu
  · exact Memory.read_of_listed (drawnMemory_ok p cell).1 (mem_drawnMemory.mpr ⟨ha, rfl, hu⟩)

/-! ### The launch -/

section Launch
variable {l : Launch} {lines : List (List Char)}

theorem launch_badParameters (h : ¬ l.params.WellFormed) : launch l = .refused .badParameters := if_pos h

theorem launch_badTimerPeriod (hw : l.params.WellFormed) (h : ¬ TimerPeriodOk l.timerLimit) :
    launch l = .refused .badTimerPeriod := by
  rw [launch, if_neg (not_not.mpr hw), if_pos h]

variable (hw : l.params.WellFormed) (hp : TimerPeriodOk l.timerLimit)
include hw hp

theorem launch_unopened (h : l.image = none) : launch l = .fault .programImageError := by
  rw [launch, if_neg (not_not.mpr hw), if_neg (not_not.mpr hp), h]

theorem launch_unloaded (h : l.image = some lines)
    (hload : loadLines l.params lines 0 (drawnMemory l.params l.cell) = none) :
    launch l = .fault .programImageError := by
  rw [launch, if_neg (not_not.mpr hw), if_neg (not_not.mpr hp), h]
  simp only [hload]

theorem launch_loaded {m : Memory} (h : l.image = some lines)
    (hload : loadLines l.params lines 0 (drawnMemory l.params l.cell) = some m) :
    launch l = .next (launchedState l m) := by
  rw [launch, if_neg (not_not.mpr hw), if_neg (not_not.mpr hp), h]
  simp only [hload]

end Launch

/-- Settles O53: the launched state's parameters and timer passed the tests, its memory is the draws with words of the
array placed over them, and its channel is empty. -/
theorem launchHasInv : Obligations.LaunchHasInv := by
  intro l s h
  obtain ⟨hparams, hperiod, lines, m, -, hload, rfl⟩ := launch_next h
  have mem : Memory.Ok l.params m := loadLines_keeps (P := Memory.Ok l.params)
    (fun m index n hindex _ hm => ⟨Memory.write_wf hm.1 _ _, Memory.write_below hm.2 hindex _⟩) hload
    (drawnMemory_ok l.params l.cell)
  exact ⟨hparams, ⟨mem, nofun, rfl⟩, launchedState_timerOk hperiod m,
    fun _ => ⟨⟨⟨rfl, fun _ => rfl⟩, rfl⟩, fun _ => rfl⟩⟩

/-- Settles O57: the five cases of a launch, and the draw of a cell at which no line places a word. -/
theorem launchLeavesResetState : Obligations.LaunchLeavesResetState := by
  intro l
  refine ⟨launch_badParameters, launch_badTimerPeriod, launch_unopened, fun lines => launch_unloaded,
    fun lines m hw hp h hload => ?launched⟩
  case launched =>
    refine ⟨launchedState l m, launch_loaded hw hp h hload, rfl, rfl, rfl, rfl, rfl, rfl, rfl, rfl,
      toInt_ofInt_timerPeriod hp, rfl, rfl, rfl, rfl, rfl, rfl, rfl, rfl, rfl, rfl, fun a ha hnamed => ?_⟩
    have kept : Memory.read m a = Memory.read (drawnMemory l.params l.cell) a := loadLines_read_other hload hnamed
    exact kept.trans (read_drawnMemory ha)

/-- Draws of unlisted words list no cell. -/
theorem drawnMemory_unlisted (p : Params) : drawnMemory p (fun _ => Config.unlistedWord) = [] := by
  refine List.eq_nil_iff_forall_not_mem.mpr fun c hc => ?_
  obtain ⟨-, hword, hne⟩ := mem_drawnMemory.mp hc
  exact hne hword

/-- Settles O58: the launch is not refused, its draws list no cell, and the other fields are equal by evaluation. -/
theorem resetIsALaunch : Obligations.ResetIsALaunch := by
  refine ⟨?launch, rfl, rfl, rfl, rfl, rfl⟩
  case launch =>
    refine (launch_loaded (lines := []) (m := []) ?params ?period rfl ?load).trans rfl
    case params => decide
    case period => decide
    case load => exact congrArg some (drawnMemory_unlisted Params.reference)

end Sys2Proof.Machine
end
